-- ==== Sys2Proof/Word.lean ====
section
/-! DEFINITION. The word types of HUFPK (00_scope.md R7, R10): every value is an unsigned bit
vector of the width the spec states for it. -/

namespace Sys2Proof

/-- A command word or a read-port word: 64 bits (R90, R62). -/
abbrev Word := BitVec 64

/-- A byte of a stream: source, tree, payload or OUT byte. -/
abbrev Byte := BitVec 8

/-- A node index: 9 bits (R7, R29). -/
abbrev NodeIx := BitVec 9

end Sys2Proof
end

