-- ==== Sys2Proof/Syntax.lean ====
section
/-! DEFINITION. The commands of HUFPK, one constructor per row of the opcode map
(30_encoding.md R98), and the assembler's line (R104). -/

namespace Sys2Proof

/-- KIND of a node (10_state.md R30): 0 = Leaf, 1 = Internal. -/
inductive Kind where
  | leaf
  | internal
  deriving DecidableEq, Repr, Inhabited

/-- A command with its operands, each operand at exactly the width its format gives it
(R91 to R97). -/
inductive Instr where
  /-- NOP, format N, OPC 0x00 (46_system.md R290). -/
  | nop
  /-- RESET, format N, OPC 0x01 (46_system.md R291). -/
  | reset
  /-- ERR_CLR, format N, OPC 0x02 (46_system.md R292). -/
  | errClr
  /-- TREE_CLEAR, format N, OPC 0x10 (40_tree_memory.md R122). -/
  | treeClear
  /-- NODE_WR, format W, OPC 0x11 (40_tree_memory.md R120). -/
  | nodeWr (idx : NodeIx) (kind : Kind) (value : Byte) (left right : NodeIx)
  /-- ROOT_WR, format R, OPC 0x12 (40_tree_memory.md R121). -/
  | rootWr (idx : NodeIx)
  /-- CODEGEN, format N, OPC 0x13 (40_tree_memory.md R125). -/
  | codegen
  /-- SER, format N, OPC 0x20 (41_tree_serializer.md R152). -/
  | ser
  /-- DESER_INIT, format N, OPC 0x28 (42_tree_deserializer.md R173). -/
  | deserInit
  /-- DESER_BYTE, format B, OPC 0x29 (42_tree_deserializer.md R175). -/
  | deserByte (byte : Byte)
  /-- PACK_INIT, format N, OPC 0x30 (43_bit_packer.md R201). -/
  | packInit
  /-- PACK_BYTE, format B, OPC 0x31 (43_bit_packer.md R203). -/
  | packByte (byte : Byte)
  /-- PACK_FLUSH, format N, OPC 0x32 (43_bit_packer.md R207). -/
  | packFlush
  /-- HDR_LOAD, format H, OPC 0x38 (45_header_and_framing.md R262). -/
  | hdrLoad (hb0 hb1 : Byte)
  /-- UNPACK_INIT, format L, OPC 0x40 (44_bit_unpacker.md R232). -/
  | unpackInit (len : BitVec 48)
  /-- UNPACK_BYTE, format B, OPC 0x41 (44_bit_unpacker.md R236). -/
  | unpackByte (byte : Byte)
  /-- UNPACK_END, format N, OPC 0x42 (44_bit_unpacker.md R240). -/
  | unpackEnd
  deriving DecidableEq, Repr

/-- The 17 mnemonics of the opcode map (R98), as an assembler line names them (R104). -/
inductive Mnemonic where
  | nop | reset | errClr | treeClear | nodeWr | rootWr | codegen | ser | deserInit | deserByte
  | packInit | packByte | packFlush | hdrLoad | unpackInit | unpackByte | unpackEnd
  deriving DecidableEq, Repr

/-- An assembler line (R104): a mnemonic and its operands in the order written. An operand is the
number it stands for: `NIL` is 0x1FF, and in NODE_WR `LEAF` is 0 and `INT` is 1. -/
structure AsmLine where
  mnemonic : Mnemonic
  operands : List Nat
  deriving DecidableEq, Repr

end Sys2Proof
end

