-- ==== Sys2Proof/Config.lean ====
section
/-! DEFINITION. What a build of HUFPK fixes (00_scope.md R6, R7) and the values the spec leaves free
(20_memory.md R64, 93_implementation_defined.md S1 to S3). -/

namespace Sys2Proof.Config

/-- The two build parameters (R6). They must differ: a build with equal values is not a HUFPK
(93_implementation_defined.md V1), and this type holds no such build. -/
structure Params where
  sentinelByte : Byte
  escapeByte : Byte
  differ : sentinelByte ≠ escapeByte
  deriving DecidableEq, Repr

/-- The spec's default build (R6): SENTINEL_BYTE = 0x2A, ESCAPE_BYTE = 0x5C.
PRESUMED, log entry 8: the two values are general knowledge, not the source's. -/
def defaultParams : Params := ⟨0x2A#8, 0x5C#8, by decide⟩

/-- TREE_CAP, the number of node-memory entries (R7). -/
abbrev treeCap : Nat := 511

/-- STACK_CAP, the number of slot-stack entries (R7). -/
abbrev stackCap : Nat := 512

/-- The alphabet: one code-table entry per byte value (R7). -/
abbrev alphabet : Nat := 256

/-- NIL, the null node index (R7): it names no entry. -/
abbrev nil : NodeIx := 0x1FF#9

/-- The longest serial form the header can count (R7, R152). -/
abbrev maxTreeBytes : Nat := 8191

/-! The free values. Each is unspecified after a hardware reset (10_state.md R42) and may differ
between two devices and two resets, so each depends on the reset's number and the entry's index.
DESIGN CHOICE, log entries 4 to 7: nothing constrains them. -/

/-- KIND of node entry `i` after hardware reset number `epoch` (S1). -/
opaque freeKind (epoch i : Nat) : Kind

/-- VALUE of node entry `i` after hardware reset number `epoch` (S1). -/
opaque freeValue (epoch i : Nat) : Byte

/-- LEFT of node entry `i` after hardware reset number `epoch` (S1). -/
opaque freeLeft (epoch i : Nat) : NodeIx

/-- RIGHT of node entry `i` after hardware reset number `epoch` (S1). -/
opaque freeRight (epoch i : Nat) : NodeIx

/-- CODE_BITS entry `v` after hardware reset number `epoch` (S2). -/
opaque freeCodeBits (epoch v : Nat) : BitVec 256

/-- PARENT of stack entry `k` after hardware reset number `epoch` (S3). -/
opaque freeParent (epoch k : Nat) : NodeIx

/-- SIDE of stack entry `k` after hardware reset number `epoch` (S3). -/
opaque freeSide (epoch k : Nat) : BitVec 1

end Sys2Proof.Config
end

