-- ==== Sys2Proof/WellFormed.lean ====
section
/-! DEFINITION. Which commands and which assembler lines are well formed (30_encoding.md R97, R104).

An `Instr` carries every operand at its exact width, so each one is well formed and has one word;
an unusable value of a legal width is no illegal encoding (R102). The checks stand on the
assembler line, where an operand is a number of any size. -/

namespace Sys2Proof

/-- The operand widths, in the order an assembler line writes them, and at the end the shorter form
of NODE_WR for a leaf written with its children left out (R104). -/
def Mnemonic.operandWidths : Mnemonic → List Nat
  | .nop => []
  | .reset => []
  | .errClr => []
  | .treeClear => []
  | .nodeWr => [9, 1, 8, 9, 9]
  | .rootWr => [9]
  | .codegen => []
  | .ser => []
  | .deserInit => []
  | .deserByte => [8]
  | .packInit => []
  | .packByte => [8]
  | .packFlush => []
  | .hdrLoad => [8, 8]
  | .unpackInit => [48]
  | .unpackByte => [8]
  | .unpackEnd => []

/-- Each operand fits the width at its place, and there are as many operands as widths. -/
def operandsFit : List Nat → List Nat → Bool
  | [], [] => true
  | w :: ws, n :: ns => decide (n < 2 ^ w) && operandsFit ws ns
  | [], _ :: _ => false
  | _ :: _, [] => false

/-- The short form `NODE_WR i, LEAF, v` (R104): kind 0, the two children omitted. -/
def isShortLeaf (l : AsmLine) : Bool :=
  match l.mnemonic, l.operands with
  | .nodeWr, [i, k, v] => operandsFit [9, 1, 8] [i, k, v] && k == 0
  | _, _ => false

/-- R104: an operand out of its field's width is an assembly error, not a word. -/
def AsmLine.wellFormed (l : AsmLine) : Bool :=
  operandsFit l.mnemonic.operandWidths l.operands || isShortLeaf l

/-- Every command is well formed: its type admits no operand out of its width (R97, R102). -/
def Instr.wellFormed (_ : Instr) : Bool := true

end Sys2Proof
end

