-- ==== Sys2Proof/Decode.lean ====
section
/-! DEFINITION. The command encoding (30_encoding.md): the opcode map and the decoder made of it, the
encoder, the byte-serial form of a word (20_memory.md R70), and the assembler (R104). -/

namespace Sys2Proof

/-- One row of the opcode map (R98): the word selects the command when `word &&& mask = pattern`,
and `read` takes the operands from the word (R106). -/
structure Row where
  pattern : Word
  mask : Word
  read : Word → Instr

/-- Why a word is illegal (R100). -/
inductive Illegal where
  /-- CW[63:56] is no opcode of the map. -/
  | unassignedOpcode
  /-- The opcode is in the map and a reserved bit is set. -/
  | reservedBit
  deriving DecidableEq, Repr

/-- Bits `hi` down to `lo` of a command word (R10). -/
def bits (w : Word) (hi lo : Nat) : BitVec (hi - lo + 1) := w.extractLsb hi lo

/-- K, CW[26] (R94): 0 = Leaf, 1 = Internal. -/
def kindOfBit (b : BitVec 1) : Kind := if b = 1#1 then .internal else .leaf

def kindBit : Kind → BitVec 1
  | .leaf => 0#1
  | .internal => 1#1

/-- Field extraction (R106). -/
def fieldByte (w : Word) : Byte := bits w 7 0
def fieldRootIdx (w : Word) : NodeIx := bits w 8 0
def fieldNodeIdx (w : Word) : NodeIx := bits w 35 27
def fieldKind (w : Word) : Kind := kindOfBit (bits w 26 26)
def fieldValue (w : Word) : Byte := bits w 25 18
def fieldLeft (w : Word) : NodeIx := bits w 17 9
def fieldRight (w : Word) : NodeIx := bits w 8 0
def fieldHb0 (w : Word) : Byte := bits w 15 8
def fieldHb1 (w : Word) : Byte := bits w 7 0
def fieldLen (w : Word) : BitVec 48 := bits w 47 0

/-- NODE_WR's operands (R94, R106). -/
def readNodeWr (w : Word) : Instr :=
  .nodeWr (fieldNodeIdx w) (fieldKind w) (fieldValue w) (fieldLeft w) (fieldRight w)

/-- The opcode map, in the order of R98. -/
def rows : List Row := [
  ⟨0x0000000000000000#64, 0xFFFFFFFFFFFFFFFF#64, fun _ => .nop⟩,
  ⟨0x0100000000000000#64, 0xFFFFFFFFFFFFFFFF#64, fun _ => .reset⟩,
  ⟨0x0200000000000000#64, 0xFFFFFFFFFFFFFFFF#64, fun _ => .errClr⟩,
  ⟨0x1000000000000000#64, 0xFFFFFFFFFFFFFFFF#64, fun _ => .treeClear⟩,
  ⟨0x1100000000000000#64, 0xFFFFFFF000000000#64, readNodeWr⟩,
  ⟨0x1200000000000000#64, 0xFFFFFFFFFFFFFE00#64, fun w => .rootWr (fieldRootIdx w)⟩,
  ⟨0x1300000000000000#64, 0xFFFFFFFFFFFFFFFF#64, fun _ => .codegen⟩,
  ⟨0x2000000000000000#64, 0xFFFFFFFFFFFFFFFF#64, fun _ => .ser⟩,
  ⟨0x2800000000000000#64, 0xFFFFFFFFFFFFFFFF#64, fun _ => .deserInit⟩,
  ⟨0x2900000000000000#64, 0xFFFFFFFFFFFFFF00#64, fun w => .deserByte (fieldByte w)⟩,
  ⟨0x3000000000000000#64, 0xFFFFFFFFFFFFFFFF#64, fun _ => .packInit⟩,
  ⟨0x3100000000000000#64, 0xFFFFFFFFFFFFFF00#64, fun w => .packByte (fieldByte w)⟩,
  ⟨0x3200000000000000#64, 0xFFFFFFFFFFFFFFFF#64, fun _ => .packFlush⟩,
  ⟨0x3800000000000000#64, 0xFFFFFFFFFFFF0000#64, fun w => .hdrLoad (fieldHb0 w) (fieldHb1 w)⟩,
  ⟨0x4000000000000000#64, 0xFFFF000000000000#64, fun w => .unpackInit (fieldLen w)⟩,
  ⟨0x4100000000000000#64, 0xFFFFFFFFFFFFFF00#64, fun w => .unpackByte (fieldByte w)⟩,
  ⟨0x4200000000000000#64, 0xFFFFFFFFFFFFFFFF#64, fun _ => .unpackEnd⟩]

/-- The row selects the word (R98). -/
def Row.selects (r : Row) (w : Word) : Bool := w &&& r.mask == r.pattern

/-- The row's opcode is the word's (R90: OPC is CW[63:56]). -/
def Row.sameOpcode (r : Row) (w : Word) : Bool := bits w 63 56 == bits r.pattern 63 56

/-- Decoding (R100): total on every word; a word that no row selects is illegal, and the answer
names which of R100's two kinds of illegal word it is. -/
def decode (w : Word) : Except Illegal Instr :=
  match rows.find? (·.selects w) with
  | some r => .ok (r.read w)
  | none => .error (if rows.any (·.sameOpcode w) then .reservedBit else .unassignedOpcode)

/-! The encoder: each command's word, field by field from the format's table (R91 to R96). -/

/-- Format N (R91): the operand field is 0. -/
def wordN (opc : Byte) : Word := opc ++ 0#56

/-- Format B (R92). -/
def wordB (opc byte : Byte) : Word := opc ++ 0#48 ++ byte

/-- Format R (R93). -/
def wordR (opc : Byte) (idx : NodeIx) : Word := opc ++ 0#47 ++ idx

/-- Format W (R94). -/
def wordW (opc : Byte) (idx : NodeIx) (k : BitVec 1) (value : Byte) (left right : NodeIx) : Word :=
  opc ++ 0#20 ++ idx ++ k ++ value ++ left ++ right

/-- Format H (R95). -/
def wordH (opc hb0 hb1 : Byte) : Word := opc ++ 0#40 ++ hb0 ++ hb1

/-- Format L (R96). -/
def wordL (opc : Byte) (len : BitVec 48) : Word := opc ++ 0#8 ++ len

/-- The command word of a command (R90 to R98). -/
def encode : Instr → Word
  | .nop => wordN 0x00#8
  | .reset => wordN 0x01#8
  | .errClr => wordN 0x02#8
  | .treeClear => wordN 0x10#8
  | .nodeWr idx k v l r => wordW 0x11#8 idx (kindBit k) v l r
  | .rootWr idx => wordR 0x12#8 idx
  | .codegen => wordN 0x13#8
  | .ser => wordN 0x20#8
  | .deserInit => wordN 0x28#8
  | .deserByte b => wordB 0x29#8 b
  | .packInit => wordN 0x30#8
  | .packByte b => wordB 0x31#8 b
  | .packFlush => wordN 0x32#8
  | .hdrLoad hb0 hb1 => wordH 0x38#8 hb0 hb1
  | .unpackInit len => wordL 0x40#8 len
  | .unpackByte b => wordB 0x41#8 b
  | .unpackEnd => wordN 0x42#8

/-- The instruction the decoder reads from a word whose bits are `w`, bit 0 the least significant
(the opcode table numbers a command word as R10 and R90 do; a command is one word). -/
def decodeTableWord (_nbits w : Nat) : Option Instr :=
  match decode (BitVec.ofNat 64 w) with
  | .ok i => some i
  | .error _ => none

/-! A byte-wide channel carries a command word most significant byte first (20_memory.md R70). -/

/-- Why a byte list gives no command. -/
inductive ByteError where
  /-- Fewer than the 8 bytes of a word are left. -/
  | tooShort
  /-- The 8 bytes are an illegal word (R100). -/
  | illegal (why : Illegal)
  deriving DecidableEq, Repr

/-- The first word of a byte list in the order of R70, with the rest of the list. -/
def takeWord : List Byte → Option (Word × List Byte)
  | b7 :: b6 :: b5 :: b4 :: b3 :: b2 :: b1 :: b0 :: rest =>
    some (b7 ++ b6 ++ b5 ++ b4 ++ b3 ++ b2 ++ b1 ++ b0, rest)
  | _ => none

/-- Decoding from a byte-wide channel: total on any bytes, with a name for each rejection. -/
def decodeBytes (bs : List Byte) : Except ByteError (Instr × List Byte) :=
  match takeWord bs with
  | none => .error .tooShort
  | some (w, rest) =>
    match decode w with
    | .ok i => .ok (i, rest)
    | .error why => .error (.illegal why)

/-- The 8 bytes of a word, most significant first (R70). -/
def wordBytes (w : Word) : List Byte :=
  [bits w 63 56, bits w 55 48, bits w 47 40, bits w 39 32, bits w 31 24, bits w 23 16, bits w 15 8,
   bits w 7 0]

/-! The assembler (R104, R105): one line is one word; there are no pseudo-commands. -/

/-- The operands of a well-formed line as a command; `none` where the line is an assembly error. -/
def assemble (l : AsmLine) : Option Instr :=
  if l.wellFormed then
    match l.mnemonic, l.operands with
    | .nop, [] => some .nop
    | .reset, [] => some .reset
    | .errClr, [] => some .errClr
    | .treeClear, [] => some .treeClear
    | .nodeWr, [i, k, v, x, y] =>
      some (.nodeWr (BitVec.ofNat 9 i) (kindOfBit (BitVec.ofNat 1 k)) (BitVec.ofNat 8 v)
        (BitVec.ofNat 9 x) (BitVec.ofNat 9 y))
    | .nodeWr, [i, _, v] =>
      some (.nodeWr (BitVec.ofNat 9 i) .leaf (BitVec.ofNat 8 v) Config.nil Config.nil)
    | .rootWr, [i] => some (.rootWr (BitVec.ofNat 9 i))
    | .codegen, [] => some .codegen
    | .ser, [] => some .ser
    | .deserInit, [] => some .deserInit
    | .deserByte, [b] => some (.deserByte (BitVec.ofNat 8 b))
    | .packInit, [] => some .packInit
    | .packByte, [b] => some (.packByte (BitVec.ofNat 8 b))
    | .packFlush, [] => some .packFlush
    | .hdrLoad, [x, y] => some (.hdrLoad (BitVec.ofNat 8 x) (BitVec.ofNat 8 y))
    | .unpackInit, [n] => some (.unpackInit (BitVec.ofNat 48 n))
    | .unpackByte, [b] => some (.unpackByte (BitVec.ofNat 8 b))
    | .unpackEnd, [] => some .unpackEnd
    | _, _ => none
  else none

/-- The word of an assembler line (R104). -/
def assembleWord (l : AsmLine) : Option Word := (assemble l).map encode

end Sys2Proof
end

