-- ==== Sys2Proof/Machine/State.lean ====
section
/-! DEFINITION. The architectural state of HUFPK (10_state.md R20 to R44), the host's side of its three
ports (20_memory.md R60), and the state right after a hardware reset (R42, 70_reset_and_hazards.md
R340). Plain data throughout. -/

namespace Sys2Proof.Machine

/-- STATUS.MODE: which session is open (R23). -/
inductive Mode where
  | idle
  | pack
  | deser
  | unpack
  deriving DecidableEq, Repr

/-- One entry of the node memory (R30). -/
structure Node where
  valid : Bool
  kind : Kind
  value : Byte
  left : NodeIx
  right : NodeIx
  deriving DecidableEq, Repr

/-- One entry of the deserializer's slot stack (R41): the position to fill is `parent`'s left child
when `side` is 0, its right child when 1; `parent = NIL` names the root position. -/
structure Slot where
  parent : NodeIx
  side : BitVec 1
  deriving DecidableEq, Repr

/-- An indexed memory: the (index, entry) pairs that have been written since the last hardware
reset, indices strictly rising. What an unlisted index reads as is said by the accessors of
Machine/Ops.lean (log entry 19). -/
abbrev Table (α : Type) := List (Nat × α)

/-- What the host does next at the block's ports (00_scope.md R8, 45_header_and_framing.md R274). -/
inductive HostInput where
  /-- Issue one command word on the command port (20_memory.md R60). -/
  | command (word : Word)
  /-- Read one word of the read port (20_memory.md R61). -/
  | read (addr : BitVec 16)
  /-- Assert the reset input (70_reset_and_hazards.md R340). `abandoned` is the command word that was
  issued and not completed when reset came, if there was one: none of its effects survive. -/
  | hardwareReset (abandoned : Option Word)
  deriving DecidableEq, Repr

/-- The state: the complete list of R42, then the host's side of the ports and the counter that
selects the free values. -/
structure State where
  /-- STATUS.ERR (R24). -/
  err : BitVec 8
  /-- STATUS.MODE (R23). -/
  mode : Mode
  /-- ERR_CMD (R25). -/
  errCmd : Word
  /-- HDR_PAD (R26). -/
  hdrPad : BitVec 3
  /-- HDR_TBC (R27). -/
  hdrTbc : BitVec 13
  /-- ROOT (R29). -/
  root : NodeIx
  /-- NODE (R30), indices 0 to 510; an unlisted entry has VALID = 0 and free payload. -/
  nodes : Table Node
  /-- NEXT_NODE (R32). -/
  nextNode : BitVec 10
  /-- CODE_LEN (R34), indices 0 to 255; an unlisted entry is 0. -/
  codeLen : Table (BitVec 8)
  /-- CODE_BITS (R35), indices 0 to 255; an unlisted entry is free. -/
  codeBits : Table (BitVec 256)
  /-- ACC (R36). -/
  acc : BitVec 8
  /-- ACC_CNT (R36). -/
  accCnt : BitVec 3
  /-- CURSOR (R37). -/
  cursor : NodeIx
  /-- BITS_LEFT (R38). -/
  bitsLeft : BitVec 51
  /-- BUDGET (R39). -/
  budget : BitVec 13
  /-- ESC_PENDING (R40). -/
  escPending : Bool
  /-- STACK (R41), indices 0 to 511; an unlisted entry is free. -/
  stack : Table Slot
  /-- SP (R41). -/
  sp : BitVec 10
  /-- The build parameters, which CONFIG shows (R33); constant. -/
  params : Config.Params
  /-- OUT, every byte appended so far, oldest first (20_memory.md R66). -/
  out : List Byte
  /-- The words the read port has returned, oldest first (20_memory.md R61). -/
  readData : List Word
  /-- The host's next interactions, the next one first (log entry 1). -/
  inputs : List HostInput
  /-- How many hardware resets have come before this power-up's (log entry 7): it selects the free
  values and nothing else. -/
  epoch : Nat
  deriving DecidableEq, Repr

/-- Why a step stops with a fault. All three are raised only in states that no run from reset
reaches (R177, R178, R353); stopping there is safe, since no effect is invented. -/
inductive Fault where
  /-- A command would access a node-memory entry that does not exist (R30: NIL names no entry).
  Raised by UNPACK_BYTE and DESER_BYTE. Safe: the machine stops. -/
  | noSuchNode
  /-- DESER_BYTE would access a slot-stack entry that does not exist: below 0 or above 511 (R41).
  Safe: the machine stops. -/
  | noSuchSlot
  /-- DESER_BYTE would lower BUDGET below 0 (R181). Safe: the machine stops. -/
  | budgetUnderflow
  deriving DecidableEq, Repr

/-- Why a step refuses. -/
inductive Refusal where
  /-- Raised by exec's own arm for a command that has no meaning yet; no arm does. Safe. -/
  | notModelled (mnemonic : String)
  deriving DecidableEq, Repr

/-- The state right after a hardware reset of the default build (R42, R340, R342), before the host
does anything: each element at the value R42 gives; nothing listed in NODE, CODE_BITS and STACK,
so that what R42 calls unspecified is free. -/
def State.reset : State where
  err := 0#8
  mode := .idle
  errCmd := 0#64
  hdrPad := 0#3
  hdrTbc := 0#13
  root := Config.nil
  nodes := []
  nextNode := 0#10
  codeLen := []
  codeBits := []
  acc := 0#8
  accCnt := 0#3
  cursor := Config.nil
  bitsLeft := 0#51
  budget := 0#13
  escPending := false
  stack := []
  sp := 0#10
  params := Config.defaultParams
  out := []
  readData := []
  inputs := []
  epoch := 0

end Sys2Proof.Machine
end

