-- ==== Sys2Proof/Machine/Flags.lean ====
section
/-! DEFINITION. The STATUS fields, which are HUFPK's only flags (10_state.md R22 to R24): the mode and
error codes, and the modes each command is accepted in (70_reset_and_hazards.md R352). -/

namespace Sys2Proof.Machine

/-- The value of STATUS.MODE (R23). -/
def modeCode : Mode → BitVec 2
  | .idle => 0#2
  | .pack => 1#2
  | .deser => 2#2
  | .unpack => 3#2

/-- The errors a command can raise (60_exceptions.md R320). -/
inductive Err where
  | illegalCmd
  | sequence
  | badOperand
  | badTree
  | noCode
  | treeTooBig
  | deserEscAtEnd
  | deserTruncated
  | deserOverrun
  | deserCapacity
  | badSize
  | noTree
  | payloadOverrun
  | payloadShort
  | partialCode
  | badPath
  deriving DecidableEq, Repr

/-- The code STATUS.ERR holds (R320). -/
def errCode : Err → BitVec 8
  | .illegalCmd => 0x01#8
  | .sequence => 0x02#8
  | .badOperand => 0x03#8
  | .badTree => 0x04#8
  | .noCode => 0x05#8
  | .treeTooBig => 0x06#8
  | .deserEscAtEnd => 0x07#8
  | .deserTruncated => 0x08#8
  | .deserOverrun => 0x09#8
  | .deserCapacity => 0x0A#8
  | .badSize => 0x0B#8
  | .noTree => 0x0C#8
  | .payloadOverrun => 0x0D#8
  | .payloadShort => 0x0E#8
  | .partialCode => 0x0F#8
  | .badPath => 0x10#8

/-- Whether dispatch accepts the command in the mode, with no error pending (R311, R352). -/
def accepts : Instr → Mode → Bool
  | .nop, _ => true
  | .reset, _ => true
  | .errClr, _ => true
  | .treeClear, m => m == .idle
  | .nodeWr _ _ _ _ _, m => m == .idle
  | .rootWr _, m => m == .idle
  | .codegen, m => m == .idle
  | .ser, m => m == .idle
  | .deserInit, m => m == .idle
  | .deserByte _, m => m == .deser
  | .packInit, m => m == .idle
  | .packByte _, m => m == .pack
  | .packFlush, m => m == .pack
  | .hdrLoad _ _, m => m == .idle
  | .unpackInit _, m => m == .idle
  | .unpackByte _, m => m == .unpack
  | .unpackEnd, m => m == .unpack

/-- The command is DESER_BYTE, whose errors always end a deserialize session (60_exceptions.md R312,
R313). -/
def isDeserByte : Instr → Bool
  | .deserByte _ => true
  | .nop => false
  | .reset => false
  | .errClr => false
  | .treeClear => false
  | .nodeWr _ _ _ _ _ => false
  | .rootWr _ => false
  | .codegen => false
  | .ser => false
  | .deserInit => false
  | .packInit => false
  | .packByte _ => false
  | .packFlush => false
  | .hdrLoad _ _ => false
  | .unpackInit _ => false
  | .unpackByte _ => false
  | .unpackEnd => false

end Sys2Proof.Machine
end

