-- ==== Sys2Proof/Machine/Operands.lean ====
section
/-! DEFINITION. How a command's operands enter its rule (30_encoding.md R97): header bytes, payload
bits, code bits, and the bit accumulator they meet. No operand is sign-extended, scaled or added to
anything; where a rule computes on an operand it does so on natural numbers. -/

namespace Sys2Proof.Machine

/-- HDR_PAD from the header byte at file offset 0: HB0[7:5] (45_header_and_framing.md R262). -/
def padOfHeader (hb0 : Byte) : BitVec 3 := hb0.extractLsb 7 5

/-- HDR_TBC from the two header bytes: {HB0[4:0], HB1} (R262). -/
def tbcOfHeader (hb0 hb1 : Byte) : BitVec 13 := hb0.extractLsb 4 0 ++ hb1

/-- The packed header {HDR_PAD, HDR_TBC} (10_state.md R28). -/
def packHeader (pad : BitVec 3) (tbc : BitVec 13) : BitVec 16 := pad ++ tbc

/-- The first `n` bits of a payload byte, most significant first: bit j is BYTE[7 - j]
(44_bit_unpacker.md R236). -/
def payloadBits (b : Byte) (n : Nat) : List Bool :=
  (List.range n).map (fun j => b.getLsbD (7 - j))

/-- The code of a byte value: c[k] = CODE_BITS[v][k] for k below CODE_LEN[v] (43_bit_packer.md
R202). -/
def codeString (len : BitVec 8) (cbits : BitVec 256) : List Bool :=
  (List.range len.toNat).map (fun k => cbits.getLsbD k)

/-- CODE_BITS of a path: the sum of path[k] << k (40_tree_memory.md R125). -/
def pathBits : List Bool → BitVec 256
  | [] => 0#256
  | b :: p => (pathBits p <<< 1) ||| (if b then 1#256 else 0#256)

/-- One code bit enters the accumulator: ((acc << 1) | bit) & 0xFF (R203). -/
def pushBit (acc : Byte) (b : Bool) : Byte := (acc <<< 1) ||| (if b then 1#8 else 0#8)

/-- The packer's accumulator after some code bits, and the bytes they completed. -/
structure Packed where
  emitted : List Byte
  acc : Byte
  cnt : Nat
  deriving DecidableEq, Repr

/-- The loop of PACK_BYTE (R203): each bit enters the accumulator, and the eighth bit emits the byte
and starts the next at 0. -/
def packBits : List Bool → Byte → Nat → Packed
  | [], acc, cnt => ⟨[], acc, cnt⟩
  | b :: bs, acc, cnt =>
    if cnt + 1 = 8 then
      let r := packBits bs 0#8 0
      { r with emitted := pushBit acc b :: r.emitted }
    else packBits bs (pushBit acc b) (cnt + 1)

/-- PACK_FLUSH's partial byte: the pending bits moved to the top, zero padding below (R207). -/
def flushByte (acc : Byte) (cnt : Nat) : Byte := acc <<< (8 - cnt)

/-- The payload bit count (44_bit_unpacker.md R231) on natural numbers; `none` in the two cases in which it
would go below zero (R233). -/
def dataBits (len tbc pad : Nat) : Option Nat :=
  if len < tbc + 2 then none
  else if (len - tbc - 2) * 8 < pad then none
  else some ((len - tbc - 2) * 8 - pad)

/-- How a byte of the tree stream reads (42_tree_deserializer.md R171). -/
inductive Token where
  | escape
  | leaf (value : Byte)
  | internal
  deriving DecidableEq, Repr

/-- The token of a tree byte: a byte after an escape is a literal; else the escape test comes before the
sentinel test (R171, R175). -/
def tokenOf (p : Config.Params) (escPending : Bool) (b : Byte) : Token :=
  if escPending then .leaf b
  else if b = p.escapeByte then .escape
  else if b = p.sentinelByte then .internal
  else .leaf b

/-- A leaf's token bytes in the serial form (41_tree_serializer.md R150). -/
def leafToken (p : Config.Params) (v : Byte) : List Byte :=
  if v = p.sentinelByte ∨ v = p.escapeByte then [p.escapeByte, v] else [v]

end Sys2Proof.Machine
end

