-- ==== Sys2Proof/Machine/Ops.lean ====
section
/-! DEFINITION. The named operations over HUFPK's memories and registers, error entry and the return
from it (60_exceptions.md R310 to R317), the resets (46_system.md R291, 70_reset_and_hazards.md R340), and
the tree check (40_tree_memory.md R123). -/

namespace Sys2Proof.Machine

/-! Indexed memories. -/

/-- The entry listed at index `k`. -/
def tblGet {α : Type} : Table α → Nat → Option α
  | [], _ => none
  | (j, a) :: t, k => if j = k then some a else tblGet t k

/-- The memory with `a` at index `k`. -/
def tblSet {α : Type} : Table α → Nat → α → Table α
  | [], k, a => [(k, a)]
  | (j, b) :: t, k, a =>
    if k < j then (k, a) :: (j, b) :: t
    else if k = j then (k, a) :: t
    else (j, b) :: tblSet t k a

/-- The memory with index `k` unlisted. -/
def tblErase {α : Type} : Table α → Nat → Table α
  | [], _ => []
  | (j, b) :: t, k => if j = k then t else (j, b) :: tblErase t k

/-- Every listed entry changed by `f`. -/
def tblMap {α : Type} (f : α → α) : Table α → Table α
  | [] => []
  | (j, a) :: t => (j, f a) :: tblMap f t

/-- The indices rise strictly, from `lo`, and stay below `hi`: the canonical form. -/
def tblRising {α : Type} (hi : Nat) : Nat → Table α → Bool
  | _, [] => true
  | lo, (j, _) :: t => decide (lo ≤ j) && decide (j < hi) && tblRising hi (j + 1) t

/-- The canonical form of a memory of `n` entries. -/
def tblWf {α : Type} (n : Nat) (t : Table α) : Bool := tblRising n 0 t

/-- No listed entry is 0, the value an unlisted entry of CODE_LEN reads as. -/
def noZeroEntry : Table (BitVec 8) → Bool
  | [] => true
  | (_, a) :: t => a != 0#8 && noZeroEntry t

/-- All four memories are in their canonical form (log entry 19). -/
def memoryWf (s : State) : Bool :=
  tblWf Config.treeCap s.nodes && tblWf Config.alphabet s.codeLen && noZeroEntry s.codeLen &&
    tblWf Config.alphabet s.codeBits && tblWf Config.stackCap s.stack

/-! The node memory (10_state.md R30, R31). -/

/-- Node entry number `k`. One never written since the last hardware reset has VALID = 0 and the
free payload of log entry 4. -/
def nodeEntry (s : State) (k : Nat) : Node :=
  match tblGet s.nodes k with
  | some n => n
  | none => {
      valid := false
      kind := Config.freeKind s.epoch k
      value := Config.freeValue s.epoch k
      left := Config.freeLeft s.epoch k
      right := Config.freeRight s.epoch k }

/-- NODE[i]; NIL names no entry (R30). -/
def nodeAt (s : State) (i : NodeIx) : Option Node :=
  if i = Config.nil then none else some (nodeEntry s i.toNat)

/-- NODE[i] <- n, all five fields, for an index that names an entry. -/
def setNode (s : State) (i : NodeIx) (n : Node) : State :=
  { s with nodes := tblSet s.nodes i.toNat n }

/-- NODE[i].VALID <- 0 for every i, the other fields as they are (R31). -/
def clearValid (s : State) : State :=
  { s with nodes := tblMap (fun n => { n with valid := false }) s.nodes }

/-- Empty the tree (40_tree_memory.md R122): no valid entry, ROOT = NIL, NEXT_NODE = 0. -/
def clearTree (s : State) : State :=
  { clearValid s with root := Config.nil, nextNode := 0#10 }

/-! The code table (10_state.md R34, R35). -/

/-- CODE_LEN[v]. -/
def codeLenAt (s : State) (v : Byte) : BitVec 8 :=
  match tblGet s.codeLen v.toNat with
  | some n => n
  | none => 0#8

/-- CODE_BITS[v]; an entry never written since the last hardware reset is free (log entry 5). -/
def codeBitsAt (s : State) (v : Byte) : BitVec 256 :=
  match tblGet s.codeBits v.toNat with
  | some b => b
  | none => Config.freeCodeBits s.epoch v.toNat

/-- CODE_LEN[v] <- len, keeping the canonical form. -/
def setLen (t : Table (BitVec 8)) (v : Byte) (len : BitVec 8) : Table (BitVec 8) :=
  if len = 0#8 then tblErase t v.toNat else tblSet t v.toNat len

/-- The code bit string of a byte value (43_bit_packer.md R202). -/
def codeOf (s : State) (v : Byte) : List Bool := codeString (codeLenAt s v) (codeBitsAt s v)

/-! The slot stack (10_state.md R41). -/

/-- STACK[k]; an entry never written since the last hardware reset is free (log entry 6). -/
def slotAt (s : State) (k : Nat) : Slot :=
  match tblGet s.stack k with
  | some x => x
  | none => { parent := Config.freeParent s.epoch k, side := Config.freeSide s.epoch k }

/-- STACK[k] <- x. -/
def setSlot (s : State) (k : Nat) (x : Slot) : State :=
  { s with stack := tblSet s.stack k x }

/-! OUT (20_memory.md R66). -/

/-- Append bytes to OUT, in order. -/
def emit (s : State) (bs : List Byte) : State := { s with out := s.out ++ bs }

/-! The error mechanism. -/

/-- Deserializer error entry (60_exceptions.md R313). -/
def deserErrorEntry (s : State) : State :=
  { clearTree s with sp := 0#10, budget := 0#13, escPending := false }

/-- Error entry (R312): taking the error `e` in a command whose word is `cw`, from the state before
the command. `byDeser` says that the command is DESER_BYTE. -/
def errorEntry (e : Err) (cw : Word) (byDeser : Bool) (s : State) : State :=
  let t := if s.mode = .deser ∨ byDeser = true then deserErrorEntry s else s
  { t with err := errCode e, errCmd := cw, mode := .idle }

/-- The return from an error (R317, 46_system.md R292). -/
def errorReturn (s : State) : State := { s with err := 0#8, errCmd := 0#64 }

/-- Error entry of a decoded command. ERR_CMD receives its word, which is its encoding
(DEDUCED, log entry 11: R98 gives each command exactly one word). -/
def raiseIn (i : Instr) (e : Err) (s : State) : State := errorEntry e (encode i) (isDeserByte i) s

/-- How the pseudocode of a command ends (00_scope.md R11, R12). -/
inductive Ending where
  /-- By `return` or by running off its end: its writes take effect. -/
  | done (s : State)
  /-- By `raise Error(e)`: none of its writes does. -/
  | raise (e : Err)
  /-- At an access to something that does not exist; no run from reset gets there. -/
  | stuck (f : Fault)
  deriving DecidableEq, Repr

/-- Dispatch of a decoded command other than RESET and ERR_CLR (60_exceptions.md R310): discard while
an error is pending, then SEQUENCE, then the command's own rule. -/
def perform (i : Instr) (body : State → Ending) (s : State) : Host.Outcome State Fault Refusal :=
  if s.err ≠ 0#8 then .next s
  else if accepts i s.mode then
    match body s with
    | .done t => .next t
    | .raise e => .next (raiseIn i e s)
    | .stuck f => .fault f
  else .next (raiseIn i .sequence s)

/-- Dispatch of an illegal word (R310, R316, R321). -/
def performIllegal (cw : Word) (s : State) : Host.Outcome State Fault Refusal :=
  if s.err ≠ 0#8 then .next s else .next (errorEntry .illegalCmd cw false s)

/-! The resets. -/

/-- The RESET command (46_system.md R291): each element at the "cmd RESET" value of 10_state.md R42;
NODE payload, CODE_BITS and STACK entries keep their values. -/
def commandReset (s : State) : State :=
  { clearTree s with
    err := 0#8
    mode := .idle
    errCmd := 0#64
    hdrPad := 0#3
    hdrTbc := 0#13
    codeLen := []
    acc := 0#8
    accCnt := 0#3
    cursor := Config.nil
    bitsLeft := 0#51
    budget := 0#13
    escPending := false
    sp := 0#10 }

/-- Hardware reset (70_reset_and_hazards.md R340): each element at its "hw reset" value, the
unspecified ones at fresh free values (the next epoch's); OUT and the build parameters stay. -/
def hardwareReset (s : State) : State :=
  { State.reset with
    params := s.params
    out := s.out
    readData := s.readData
    inputs := s.inputs
    epoch := s.epoch + 1 }

/-! The tree check (40_tree_memory.md R123). -/

/-- The loop of `wf_tree()`: `todo` is the stack of indices, the top first; `seen` the indices reached.
Each round that does not end the loop adds an index below 511 to `seen`, so 511 rounds of fuel
suffice (DEDUCED, log entry 14). -/
def wfWalk (s : State) : Nat → List NodeIx → List NodeIx → Bool
  | _, [], _ => true
  | 0, _ :: _, _ => false
  | fuel + 1, i :: todo, seen =>
    match nodeAt s i with
    | none => false
    | some n =>
      if n.valid then
        if seen.contains i then false
        else
          match n.kind with
          | .internal => wfWalk s fuel (n.left :: n.right :: todo) (i :: seen)
          | .leaf => wfWalk s fuel todo (i :: seen)
      else false

/-- `wf_tree()`: ROOT is NIL or the root of a finite tree in the node memory. -/
def wfTree (s : State) : Bool :=
  s.root == Config.nil || wfWalk s Config.treeCap [s.root] []

end Sys2Proof.Machine
end

