-- ==== Sys2Proof/Machine/Control.lean ====
section
/-! DEFINITION. The control commands (46_system.md): NOP, RESET, ERR_CLR. -/

namespace Sys2Proof.Machine

/-- NOP (R290): nothing changes, in any mode and with or without an error pending. -/
def execNop (s : State) : Host.Outcome State Fault Refusal := perform .nop (fun t => .done t) s

/-- RESET (R291): accepted in every mode and while an error is pending (60_exceptions.md R310,
R316); OUT and CONFIG stay. -/
def execReset (s : State) : Host.Outcome State Fault Refusal := .next (commandReset s)

/-- ERR_CLR (R292): the return from an error, accepted in every mode and while an error is pending
(R310, R316, R317). -/
def execErrClr (s : State) : Host.Outcome State Fault Refusal := .next (errorReturn s)

end Sys2Proof.Machine
end

