-- ==== Sys2Proof/Machine/Deserializer.lean ====
section
/-! DEFINITION. The tree deserializer (42_tree_deserializer.md): DESER_INIT, DESER_BYTE. -/

namespace Sys2Proof.Machine

/-- DESER_INIT's own rule (R173): the old tree goes first; a byte count of 0 leaves the empty tree
and no session. -/
def deserInitBody (s : State) : Ending :=
  let t := { clearTree s with escPending := false, budget := s.hdrTbc }
  if s.hdrTbc = 0#13 then .done { t with sp := 0#10 }
  else .done { setSlot t 0 { parent := Config.nil, side := 0#1 } with sp := 1#10, mode := .deser }

/-- DESER_INIT (R173). -/
def execDeserInit (s : State) : Host.Outcome State Fault Refusal :=
  perform .deserInit deserInitBody s

/-- The node a Leaf token places (R174). -/
def newLeaf (v : Byte) : Node :=
  { valid := true, kind := .leaf, value := v, left := Config.nil, right := Config.nil }

/-- The node an Internal token places (R174). -/
def newInternal : Node :=
  { valid := true, kind := .internal, value := 0#8, left := Config.nil, right := Config.nil }

/-- The new node `n` enters the position `slot` names: ROOT, or a child field of its parent
(R175). -/
def attach (slot : Slot) (n : NodeIx) (s : State) : State :=
  if slot.parent = Config.nil then { s with root := n }
  else
    let p := nodeEntry s slot.parent.toNat
    if slot.side = 0#1 then setNode s slot.parent { p with left := n }
    else setNode s slot.parent { p with right := n }

/-- The two positions an Internal node opens: the right one at `k`, the left one on top of it
(R175). -/
def openChildren (n : NodeIx) (k : Nat) (s : State) : State :=
  setSlot (setSlot s k { parent := n, side := 1#1 }) (k + 1) { parent := n, side := 0#1 }

/-- The end of DESER_BYTE once the node is placed (R172, R175): the tree is complete exactly when no
position is left. -/
def finishToken (budget : BitVec 13) (s : State) : Ending :=
  if s.sp = 0#10 then
    if budget ≠ 0#13 then .raise .deserOverrun else .done { s with mode := .idle }
  else if budget = 0#13 then .raise .deserTruncated
  else .done s

/-- Place a node token (R174, R175). `opens` says that the token is Internal. NEXT_NODE above 511 and SP outside 1 to 512 name no entry; no run reaches them (log entry 10). -/
def placeToken (node : Node) (opens : Bool) (budget : BitVec 13) (s : State) : Ending :=
  if s.nextNode = 511#10 then .raise .deserCapacity
  else if Config.treeCap < s.nextNode.toNat then .stuck .noSuchNode
  else if s.sp = 0#10 ∨ Config.stackCap < s.sp.toNat then .stuck .noSuchSlot
  else
    let n : NodeIx := s.nextNode.setWidth 9
    let k := s.sp.toNat - 1
    let t := attach (slotAt s k) n (setNode s n node)
    if opens then
      if k + 1 < Config.stackCap then
        finishToken budget { openChildren n k t with
          nextNode := s.nextNode + 1#10
          sp := BitVec.ofNat 10 (k + 2)
          budget := budget
          escPending := false }
      else .stuck .noSuchSlot
    else
      finishToken budget { t with
        nextNode := s.nextNode + 1#10
        sp := BitVec.ofNat 10 k
        budget := budget
        escPending := false }

/-- DESER_BYTE's own rule (R175). BUDGET is at least 1 in every state a run reaches (R177); at 0 it
has nothing to lower (log entry 10). -/
def deserByteBody (b : Byte) (s : State) : Ending :=
  if s.budget = 0#13 then .stuck .budgetUnderflow
  else
    let budget := s.budget - 1#13
    match tokenOf s.params s.escPending b with
    | .escape =>
      if budget = 0#13 then .raise .deserEscAtEnd
      else .done { s with budget := budget, escPending := true }
    | .leaf v => placeToken (newLeaf v) false budget s
    | .internal => placeToken newInternal true budget s

/-- DESER_BYTE (R175). -/
def execDeserByte (b : Byte) (s : State) : Host.Outcome State Fault Refusal :=
  perform (.deserByte b) (deserByteBody b) s

end Sys2Proof.Machine
end

