-- ==== Sys2Proof/Machine/Header.lean ====
section
/-! DEFINITION. The header (45_header_and_framing.md section 1): HDR_LOAD and the packed view HDR. -/

namespace Sys2Proof.Machine

/-- HDR, the read-only view {HDR_PAD, HDR_TBC} (10_state.md R28). -/
def hdrWord (s : State) : BitVec 16 := packHeader s.hdrPad s.hdrTbc

/-- HDR_LOAD (R262): every 16-bit value is accepted. -/
def execHdrLoad (hb0 hb1 : Byte) (s : State) : Host.Outcome State Fault Refusal :=
  perform (.hdrLoad hb0 hb1)
    (fun t => .done { t with hdrPad := padOfHeader hb0, hdrTbc := tbcOfHeader hb0 hb1 }) s

end Sys2Proof.Machine
end

