-- ==== Sys2Proof/Machine/Packer.lean ====
section
/-! DEFINITION. The bit packer (43_bit_packer.md): PACK_INIT, PACK_BYTE, PACK_FLUSH. -/

namespace Sys2Proof.Machine

/-- PACK_INIT (R201): no check that a code table exists. -/
def execPackInit (s : State) : Host.Outcome State Fault Refusal :=
  perform .packInit (fun t => .done { t with acc := 0#8, accCnt := 0#3, mode := .pack }) s

/-- PACK_BYTE's own rule (R203, R204). -/
def packByteBody (b : Byte) (s : State) : Ending :=
  if codeLenAt s b = 0#8 then .raise .noCode
  else
    let r := packBits (codeOf s b) s.acc s.accCnt.toNat
    .done { emit s r.emitted with acc := r.acc, accCnt := BitVec.ofNat 3 r.cnt }

/-- PACK_BYTE (R203). -/
def execPackByte (b : Byte) (s : State) : Host.Outcome State Fault Refusal :=
  perform (.packByte b) (packByteBody b) s

/-- PACK_FLUSH's own rule (R207). -/
def packFlushBody (s : State) : Ending :=
  let t :=
    if s.accCnt = 0#3 then { s with hdrPad := 0#3 }
    else { emit s [flushByte s.acc s.accCnt.toNat] with
      hdrPad := BitVec.ofNat 3 (8 - s.accCnt.toNat) }
  .done { t with acc := 0#8, accCnt := 0#3, mode := .idle }

/-- PACK_FLUSH (R207). -/
def execPackFlush (s : State) : Host.Outcome State Fault Refusal := perform .packFlush packFlushBody s

end Sys2Proof.Machine
end

