-- ==== Sys2Proof/Machine/Serializer.lean ====
section
/-! DEFINITION. The tree serializer (41_tree_serializer.md): SER. -/

namespace Sys2Proof.Machine

/-- The loop of `ser_bytes()` (R151): `todo` is the stack of indices, the top first, so the left
subtree comes before the right. The fuel is that of the tree check (log entry 14). -/
def serWalk (s : State) : Nat → List NodeIx → List Byte
  | _, [] => []
  | 0, _ :: _ => []
  | fuel + 1, i :: todo =>
    let n := nodeEntry s i.toNat
    match n.kind with
    | .internal => s.params.sentinelByte :: serWalk s fuel (n.left :: n.right :: todo)
    | .leaf => leafToken s.params n.value ++ serWalk s fuel todo

/-- `ser_bytes()` (R151): the serial form of the tree at ROOT. -/
def serBytes (s : State) : List Byte :=
  if s.root = Config.nil then [] else serWalk s Config.treeCap [s.root]

/-- SER's own rule (R152). -/
def serBody (s : State) : Ending :=
  if wfTree s then
    let bs := serBytes s
    if Config.maxTreeBytes < bs.length then .raise .treeTooBig
    else .done { emit s bs with hdrTbc := BitVec.ofNat 13 bs.length }
  else .raise .badTree

/-- SER (R152). -/
def execSer (s : State) : Host.Outcome State Fault Refusal := perform .ser serBody s

end Sys2Proof.Machine
end

