-- ==== Sys2Proof/Machine/Tree.lean ====
section
/-! DEFINITION. Tree storage and code-table generation (40_tree_memory.md): TREE_CLEAR, NODE_WR,
ROOT_WR, CODEGEN. -/

namespace Sys2Proof.Machine

/-- TREE_CLEAR (R122). -/
def execTreeClear (s : State) : Host.Outcome State Fault Refusal :=
  perform .treeClear (fun t => .done (clearTree t)) s

/-- NODE_WR's own rule (R120): index NIL is BAD_OPERAND; LEFT and RIGHT are stored unchecked. -/
def nodeWrBody (idx : NodeIx) (k : Kind) (v : Byte) (l r : NodeIx) (s : State) : Ending :=
  if idx = Config.nil then .raise .badOperand
  else .done (setNode s idx { valid := true, kind := k, value := v, left := l, right := r })

/-- NODE_WR (R120). -/
def execNodeWr (idx : NodeIx) (k : Kind) (v : Byte) (l r : NodeIx) (s : State) :
    Host.Outcome State Fault Refusal :=
  perform (.nodeWr idx k v l r) (nodeWrBody idx k v l r) s

/-- ROOT_WR (R121): any 9-bit value is stored unchecked. -/
def execRootWr (idx : NodeIx) (s : State) : Host.Outcome State Fault Refusal :=
  perform (.rootWr idx) (fun t => .done { t with root := idx }) s

/-- The leaves `visit` reaches (R125), in pre-order, each with its value and its path, root step
first. `todo` holds the indices still to visit with the paths to them. The fuel is that of the tree
check, which bounds the walk of a tree that passes it (log entry 14). -/
def leafCodes (s : State) : Nat → List (NodeIx × List Bool) → List (Byte × List Bool)
  | _, [] => []
  | 0, _ :: _ => []
  | fuel + 1, (i, path) :: todo =>
    let n := nodeEntry s i.toNat
    match n.kind with
    | .leaf => (n.value, path) :: leafCodes s fuel todo
    | .internal => leafCodes s fuel ((n.left, path ++ [false]) :: (n.right, path ++ [true]) :: todo)

/-- Every leaf's value with its code, in pre-order; the empty tree has none, and a single leaf has
the code "0" (R125, R127). -/
def treeCodes (s : State) : List (Byte × List Bool) :=
  if s.root = Config.nil then []
  else
    let n := nodeEntry s s.root.toNat
    match n.kind with
    | .leaf => [(n.value, [false])]
    | .internal => leafCodes s Config.treeCap [(s.root, [])]

/-- CODE_LEN made from the codes in order, from all 0: a later leaf of the same value wins
(R125, R128). -/
def lengthsOf (codes : List (Byte × List Bool)) : Table (BitVec 8) :=
  codes.foldl (fun t c => setLen t c.1 (BitVec.ofNat 8 c.2.length)) []

/-- Every CODE_BITS entry 0, each one written (R125). -/
def zeroBits : Table (BitVec 256) := (List.range Config.alphabet).map (fun v => (v, 0#256))

/-- CODE_BITS made from the codes in order, from all 0 (R125, R128). -/
def bitsOf (codes : List (Byte × List Bool)) : Table (BitVec 256) :=
  codes.foldl (fun t c => tblSet t c.1.toNat (pathBits c.2)) zeroBits

/-- CODEGEN's own rule (R125): every entry of both arrays is written anew. -/
def codegenBody (s : State) : Ending :=
  if wfTree s then
    .done { s with codeLen := lengthsOf (treeCodes s), codeBits := bitsOf (treeCodes s) }
  else .raise .badTree

/-- CODEGEN (R125). -/
def execCodegen (s : State) : Host.Outcome State Fault Refusal := perform .codegen codegenBody s

end Sys2Proof.Machine
end

