-- ==== Sys2Proof/Machine/Unpacker.lean ====
section
/-! DEFINITION. The bit unpacker (44_bit_unpacker.md): UNPACK_INIT, UNPACK_BYTE, UNPACK_END. -/

namespace Sys2Proof.Machine

/-- UNPACK_INIT's own rule (R232): BAD_TREE, then BAD_SIZE, then NO_TREE. -/
def unpackInitBody (len : BitVec 48) (s : State) : Ending :=
  if wfTree s then
    match dataBits len.toNat s.hdrTbc.toNat s.hdrPad.toNat with
    | none => .raise .badSize
    | some n =>
      if 0 < n ∧ s.root = Config.nil then .raise .noTree
      else .done { s with bitsLeft := BitVec.ofNat 51 n, cursor := s.root, mode := .unpack }
  else .raise .badTree

/-- UNPACK_INIT (R232). -/
def execUnpackInit (len : BitVec 48) (s : State) : Host.Outcome State Fault Refusal :=
  perform (.unpackInit len) (unpackInitBody len) s

/-- How a walk over some payload bits ends. -/
inductive Walked where
  /-- The cursor it leaves and the bytes it emits. -/
  | ok (cursor : NodeIx) (emitted : List Byte)
  /-- A 1 bit with a single-leaf tree (R235). -/
  | badPath
  /-- A step to or from NIL; no run reaches one (R353). -/
  | noEntry
  deriving DecidableEq, Repr

/-- A walk whose first step emits `v`. -/
def emitFirst (v : Byte) : Walked → Walked
  | .ok c bs => .ok c (v :: bs)
  | .badPath => .badPath
  | .noEntry => .noEntry

/-- The loop of UNPACK_BYTE (R236), bit after bit, from cursor `cur`: with a leaf at ROOT each 0 bit
emits its value and a 1 bit is BAD_PATH (R235); else the cursor steps to a child, and on a leaf
emits and goes back to ROOT. -/
def unpackBits (s : State) : List Bool → NodeIx → Walked
  | [], cur => .ok cur []
  | b :: rest, cur =>
    match nodeAt s s.root with
    | none => .noEntry
    | some r =>
      match r.kind with
      | .leaf => if b then .badPath else emitFirst r.value (unpackBits s rest cur)
      | .internal =>
        match nodeAt s cur with
        | none => .noEntry
        | some c =>
          let next := if b then c.right else c.left
          match nodeAt s next with
          | none => .noEntry
          | some n =>
            match n.kind with
            | .leaf => emitFirst n.value (unpackBits s rest s.root)
            | .internal => unpackBits s rest next

/-- How many bits one payload byte gives: min(8, BITS_LEFT) (R236, R237). -/
def bitsTaken (s : State) : Nat := min 8 s.bitsLeft.toNat

/-- UNPACK_BYTE's own rule (R236). -/
def unpackByteBody (b : Byte) (s : State) : Ending :=
  if s.bitsLeft = 0#51 then .raise .payloadOverrun
  else
    match unpackBits s (payloadBits b (bitsTaken s)) s.cursor with
    | .ok cur bs =>
      .done { emit s bs with
        cursor := cur
        bitsLeft := BitVec.ofNat 51 (s.bitsLeft.toNat - bitsTaken s) }
    | .badPath => .raise .badPath
    | .noEntry => .stuck .noSuchNode

/-- UNPACK_BYTE (R236). -/
def execUnpackByte (b : Byte) (s : State) : Host.Outcome State Fault Refusal :=
  perform (.unpackByte b) (unpackByteBody b) s

/-- UNPACK_END's own rule (R240). -/
def unpackEndBody (s : State) : Ending :=
  if s.bitsLeft ≠ 0#51 then .raise .payloadShort
  else if s.cursor ≠ s.root then .raise .partialCode
  else .done { s with mode := .idle }

/-- UNPACK_END (R240). -/
def execUnpackEnd (s : State) : Host.Outcome State Fault Refusal := perform .unpackEnd unpackEndBody s

end Sys2Proof.Machine
end

