-- ==== Sys2Proof/Machine/Dispatch.lean ====
section
/-! DEFINITION. exec: one arm per command, each one call of its meaning. -/

namespace Sys2Proof.Machine

def exec (i : Instr) (s : State) : Host.Outcome State Fault Refusal :=
  match i with
  | .nop => Sys2Proof.Machine.execNop s
  | .reset => Sys2Proof.Machine.execReset s
  | .errClr => Sys2Proof.Machine.execErrClr s
  | .treeClear => Sys2Proof.Machine.execTreeClear s
  | .nodeWr idx k v l r => Sys2Proof.Machine.execNodeWr idx k v l r s
  | .rootWr idx => Sys2Proof.Machine.execRootWr idx s
  | .codegen => Sys2Proof.Machine.execCodegen s
  | .ser => Sys2Proof.Machine.execSer s
  | .deserInit => Sys2Proof.Machine.execDeserInit s
  | .deserByte b => Sys2Proof.Machine.execDeserByte b s
  | .packInit => Sys2Proof.Machine.execPackInit s
  | .packByte b => Sys2Proof.Machine.execPackByte b s
  | .packFlush => Sys2Proof.Machine.execPackFlush s
  | .hdrLoad hb0 hb1 => Sys2Proof.Machine.execHdrLoad hb0 hb1 s
  | .unpackInit len => Sys2Proof.Machine.execUnpackInit len s
  | .unpackByte b => Sys2Proof.Machine.execUnpackByte b s
  | .unpackEnd => Sys2Proof.Machine.execUnpackEnd s

end Sys2Proof.Machine
end

