-- ==== Sys2Proof/Machine/ReadPort.lean ====
section
/-! DEFINITION. The read port (20_memory.md R61 to R65): a pure function of the state and the address.
Bits that R62 does not name read as 0. -/

namespace Sys2Proof.Machine

/-- STATUS (R62): [7:0] ERR, [9:8] MODE. -/
def statusWord (s : State) : Word := 0#54 ++ modeCode s.mode ++ s.err

/-- PACKER (R62): [7:0] ACC, [10:8] ACC_CNT. -/
def packerWord (s : State) : Word := 0#53 ++ s.accCnt ++ s.acc

def bitOf (b : Bool) : BitVec 1 := if b then 1#1 else 0#1

/-- DESER (R62): [12:0] BUDGET, [13] ESC_PENDING, [25:16] NEXT_NODE, [41:32] SP. -/
def deserWord (s : State) : Word :=
  0#22 ++ s.sp ++ 0#6 ++ s.nextNode ++ 0#2 ++ bitOf s.escPending ++ s.budget

/-- CONFIG (R62, 10_state.md R33): [7:0] SENTINEL_BYTE, [15:8] ESCAPE_BYTE, [24:16] TREE_CAP. -/
def configWord (s : State) : Word :=
  0#39 ++ BitVec.ofNat 9 Config.treeCap ++ s.params.escapeByte ++ s.params.sentinelByte

/-- A NODE word (R62): [8:0] RIGHT, [17:9] LEFT, [25:18] VALUE, [26] KIND, [27] VALID. -/
def nodeWord (n : Node) : Word :=
  0#36 ++ bitOf n.valid ++ kindBit n.kind ++ n.value ++ n.left ++ n.right

/-- A STACK word (R62): [8:0] PARENT, [9] SIDE. -/
def slotWord (x : Slot) : Word := 0#54 ++ x.side ++ x.parent

/-- The registers at 0x0000 to 0x0008 (R62); 0x0009 to 0x00FF read 0 (R63). -/
def readRegister (s : State) : Nat → Word
  | 0x0000 => statusWord s
  | 0x0001 => s.errCmd
  | 0x0002 => (hdrWord s).setWidth 64
  | 0x0003 => s.root.setWidth 64
  | 0x0004 => packerWord s
  | 0x0005 => s.cursor.setWidth 64
  | 0x0006 => s.bitsLeft.setWidth 64
  | 0x0007 => deserWord s
  | 0x0008 => configWord s
  | _ => 0#64

/-- Part `w` of CODE_BITS[v]: bits 64w+63 down to 64w (R62). -/
def codeBitsPart (s : State) (v w : Nat) : Word :=
  (codeBitsAt s (BitVec.ofNat 8 v)).extractLsb' (64 * w) 64

/-- A read of the 16-bit word address `a` (R62); an address R62 does not list reads 0 (R63). -/
def readPort (s : State) (a : BitVec 16) : Word :=
  let n := a.toNat
  if n < 0x0100 then readRegister s n
  else if n < 0x0100 + Config.treeCap then nodeWord (nodeEntry s (n - 0x0100))
  else if n < 0x0400 then 0#64
  else if n < 0x0400 + Config.alphabet then
    (codeLenAt s (BitVec.ofNat 8 (n - 0x0400))).setWidth 64
  else if n < 0x0800 then 0#64
  else if n < 0x0800 + 4 * Config.alphabet then
    codeBitsPart s ((n - 0x0800) / 4) ((n - 0x0800) % 4)
  else if n < 0x2000 then 0#64
  else if n < 0x2000 + Config.stackCap then slotWord (slotAt s (n - 0x2000))
  else 0#64

end Sys2Proof.Machine
end

