-- ==== Sys2Proof/Machine/Ports.lean ====
section
/-! DEFINITION. What the block does with one interaction of the host's at its ports (20_memory.md
R60, 60_exceptions.md R310, 70_reset_and_hazards.md R340, R350). -/

namespace Sys2Proof.Machine

/-- The host's interaction at the front is taken. -/
def takeInput (s : State) (rest : List HostInput) : State := { s with inputs := rest }

/-- A command word at the command port: decode, then dispatch (R310). -/
def performWord (cw : Word) (s : State) : Host.Outcome State Fault Refusal :=
  match decode cw with
  | .ok i => exec i s
  | .error _ => performIllegal cw s

/-- A read: the word goes to the host, and no element of the block changes (R61, R65). -/
def performRead (a : BitVec 16) (s : State) : State :=
  { s with readData := s.readData ++ [readPort s a] }

/-- One interaction (R61, R340, R350): each is whole before the next begins. A command abandoned by
a hardware reset leaves no effect. -/
def performInput : HostInput → State → Host.Outcome State Fault Refusal
  | .command cw, s => performWord cw s
  | .read a, s => .next (performRead a s)
  | .hardwareReset _, s => .next (hardwareReset s)

/-- Put a command word where step takes its next one from. -/
def issueFirst (cw : Word) (s : State) : State := { s with inputs := .command cw :: s.inputs }

/-- The block's own turn: with no interaction waiting it waits, unchanged (70_reset_and_hazards.md R343, R361). -/
def serve (s : State) : Host.Outcome State Fault Refusal :=
  match s.inputs with
  | [] => .next s
  | a :: rest => performInput a (takeInput s rest)

end Sys2Proof.Machine
end

