-- ==== Sys2Proof/Machine/Step.lean ====
section
/-! DEFINITION. One step: the host's next interaction, or none (00_scope.md R8, R9). -/

namespace Sys2Proof.Machine

/-- One step of the machine. -/
def step (s : State) : Host.Outcome State Fault Refusal := serve s

/-- `s` with the command word of number `w` as the host's next interaction, so that the next step
performs it. A command is one 64-bit word, and the opcode table numbers its bits as R10 does. -/
def State.withFetchWord (s : State) (_nbits w : Nat) : State := issueFirst (BitVec.ofNat 64 w) s

end Sys2Proof.Machine
end

