-- ==== Sys2Proof/Machine/HostRules.lean ====
section
/-! DEFINITION. The host rules (45_header_and_framing.md section 2, R266 to R276): what the source
requires of the components the block leaves to the host, as plain functions over bytes and over the
host's interactions. The block neither performs nor checks them, and step uses none of them; they
are here so that a whole run can be stated (log entries 20 and 23 to 25). -/

namespace Sys2Proof.Machine

/-- The host's Huffman tree (R270): the frequency is host state only (10_state.md R30). -/
inductive HTree where
  | leaf (value : Byte) (freq : Nat)
  | internal (freq : Nat) (left right : HTree)
  deriving DecidableEq, Repr

def freqOf : HTree → Nat
  | .leaf _ f => f
  | .internal f _ _ => f

/-- How often a byte value occurs (R268). -/
def countOf (source : List Byte) (v : Byte) : Nat := source.count v

/-- Insertion into the ordered queue (R269): before the first entry whose frequency is greater than
or equal to the new node's. -/
def queueInsert : List HTree → HTree → List HTree
  | [], t => [t]
  | q :: qs, t => if freqOf t ≤ freqOf q then t :: q :: qs else q :: queueInsert qs t

/-- The queue of one leaf per value with a count above 0, inserted in byte-value order (R270). -/
def startQueue (source : List Byte) : List HTree :=
  ((List.range 256).map (fun n => BitVec.ofNat 8 n)).foldl
    (fun q v =>
      let f := countOf source v
      if f = 0 then q else queueInsert q (.leaf v f)) []

/-- The tree builder's loop (R270); each round shortens the queue by one, so its length is fuel
enough. -/
def buildLoop : Nat → List HTree → Option HTree
  | _, [] => none
  | _, [t] => some t
  | 0, _ :: _ :: _ => none
  | fuel + 1, a :: b :: q =>
    buildLoop fuel (queueInsert q (.internal (freqOf a + freqOf b) a b))

/-- The Huffman tree of a source; `none` for an empty one (R270). -/
def buildTree (source : List Byte) : Option HTree :=
  let q := startQueue source
  buildLoop q.length q

/-- How many nodes the tree has. -/
def nodeCount : HTree → Nat
  | .leaf _ _ => 1
  | .internal _ l r => 1 + nodeCount l + nodeCount r

/-- One NODE_WR per node, numbered in pre-order from `i`. R271 leaves the numbering to the host;
pre-order is the one the spec's examples use (R273).
DESIGN CHOICE, log entries 20, 23 and 24: the numbering; the operands that no rule fixes for the host
(93_implementation_defined.md S6), VALUE of an Internal node 0, LEFT and RIGHT of a Leaf NIL; and the
order of the words, a node before its left subtree and that before its right one, where R271 asks for
one word per node and gives no order. -/
def nodeWrites : HTree → Nat → List Instr
  | .leaf v _, i => [.nodeWr (BitVec.ofNat 9 i) .leaf v Config.nil Config.nil]
  | .internal _ l r, i =>
    .nodeWr (BitVec.ofNat 9 i) .internal 0#8 (BitVec.ofNat 9 (i + 1))
        (BitVec.ofNat 9 (i + 1 + nodeCount l)) ::
      (nodeWrites l (i + 1) ++ nodeWrites r (i + 1 + nodeCount l))

/-- Loading a tree: its nodes, then its root's index, or NIL for an empty source (R271). -/
def loadTree : Option HTree → List Instr
  | none => [.rootWr Config.nil]
  | some t => nodeWrites t 0 ++ [.rootWr 0#9]

/-- The commands of the compression sequence (R271). -/
def compressCommands (source : List Byte) : List Instr :=
  .treeClear :: (loadTree (buildTree source) ++
    [.codegen, .ser, .packInit] ++ source.map .packByte ++ [.packFlush])

/-- A command as the host issues it. -/
def issue (i : Instr) : HostInput := .command (encode i)

/-- The compression sequence (R271), and then the reads of STATUS and HDR that end it, with no other
read (DESIGN CHOICE, log entry 25). -/
def compressInputs (source : List Byte) : List HostInput :=
  (compressCommands source).map issue ++ [.read 0x0000#16, .read 0x0002#16]

/-- The file the host makes of HDR and the bytes of OUT (R263, R266, R267): the header
big-endian at offset 0, then the tree bytes and the payload. -/
def fileOf (hdr : BitVec 16) (out : List Byte) : List Byte :=
  hdr.extractLsb 15 8 :: hdr.extractLsb 7 0 :: out

/-- The commands of the decompression sequence (R272). A file under 2 bytes is a corrupt container and
starts no sequence; the operand of UNPACK_INIT holds no size of 2^48 or more. -/
def decompressCommands : List Byte → Option (List Instr)
  | hb0 :: hb1 :: rest =>
    let size := rest.length + 2
    if 2 ^ 48 ≤ size then none
    else
      let t := (tbcOfHeader hb0 hb1).toNat
      some (.hdrLoad hb0 hb1 :: .deserInit :: ((rest.take t).map .deserByte ++
        .unpackInit (BitVec.ofNat 48 size) :: ((rest.drop t).map .unpackByte ++ [.unpackEnd])))
  | _ => none

/-- The decompression sequence (R272), and then the read of STATUS that ends it, with no other read
(DESIGN CHOICE, log entry 25). -/
def decompressInputs (file : List Byte) : Option (List HostInput) :=
  (decompressCommands file).map (fun cs => cs.map issue ++ [.read 0x0000#16])

/-! The end of a run (R276). `s` is the state the run began in and `t` the one it ended in; the host
knows of them only what the ports gave it. DESIGN CHOICE, log entry 25: this host makes the reads that
end a run and no other, although R274 lets a host read at any time between commands. -/

/-- The run succeeded: the ERR field of the STATUS word the host read at its end is 0 (R276,
70_reset_and_hazards.md R359). -/
def runSucceeded (status : Word) : Bool := (status.extractLsb 7 0 : Byte) == 0#8

/-- The bytes OUT received during a run. -/
def runBytes (s t : State) : List Byte := t.out.drop s.out.length

/-- The words the host read during a run. -/
def runReads (s t : State) : List Word := t.readData.drop s.readData.length

/-- Failure is whole (R276): the host keeps a run's bytes when the run succeeded, and else discards
every one of them. -/
def keptBytes (status : Word) (bytes : List Byte) : Option (List Byte) :=
  if runSucceeded status then some bytes else none

/-- The file a compression run leaves (R271, R276): none when the run failed, and none when it has not
come to the two reads that end it, since its header was then never written. DESIGN CHOICE, log entry 25:
a run with any other read in it is not this host's, and gets none here. -/
def compressedFile (s t : State) : Option (List Byte) :=
  match runReads s t with
  | [status, hdr] => (keptBytes status (runBytes s t)).map (fileOf (hdr.extractLsb 15 0))
  | _ => none

/-- The bytes a decompression run leaves (R272, R276): none when the run failed, and none when it has
not come to the read that ends it. DESIGN CHOICE, log entry 25: so it is for a run with any other read
in it. -/
def decompressedBytes (s t : State) : Option (List Byte) :=
  match runReads s t with
  | [status] => keptBytes status (runBytes s t)
  | _ => none

end Sys2Proof.Machine
end

