-- ==== Sys2Proof/Safety.lean ====
section
/-! DEFINITION. The terms claims about HUFPK use: trees and paths in the node memory said without the
walking loops (40_tree_memory.md R123, R125), the bits pending in the packer, how payload bits read,
and the invariants that the rules state of every state between two commands (10_state.md R36, R37,
42_tree_deserializer.md R177, R178, 70_reset_and_hazards.md R353). -/

namespace Sys2Proof.Machine

/-! Trees and paths. -/

/-- The entries of `l`, in pre-order, form a tree rooted at `i`: every node valid, every Internal node with two
subtrees (R123, 00_scope.md section 7). -/
inductive IsTree (s : State) : NodeIx → List NodeIx → Prop
  | leaf {i : NodeIx} {n : Node} (h : nodeAt s i = some n) (hv : n.valid = true)
      (hk : n.kind = .leaf) : IsTree s i [i]
  | internal {i : NodeIx} {n : Node} {l r : List NodeIx} (h : nodeAt s i = some n)
      (hv : n.valid = true) (hk : n.kind = .internal) (hl : IsTree s n.left l)
      (hr : IsTree s n.right r) : IsTree s i (i :: (l ++ r))

/-- The node that a path of steps leads to from `i`: false to the left child, true to the right; a
step leaves an Internal node only (00_scope.md section 7, Code). -/
def follow (s : State) : NodeIx → List Bool → Option NodeIx
  | i, [] => some i
  | i, b :: p =>
    match nodeAt s i with
    | none => none
    | some n =>
      match n.kind with
      | .leaf => none
      | .internal => follow s (if b then n.right else n.left) p

/-- The path leads from ROOT to a leaf that holds `v`. -/
def leafPath (s : State) (p : List Bool) (v : Byte) : Prop :=
  ∃ i n, follow s s.root p = some i ∧ nodeAt s i = some n ∧ n.kind = .leaf ∧ n.value = v

/-- Path `p` comes before path `q` in pre-order: at the first step where they differ `p` goes left. Neither leads through the other's leaf. -/
def before : List Bool → List Bool → Bool
  | [], _ => false
  | _ :: _, [] => false
  | a :: p, b :: q => if a = b then before p q else b

/-- The serial form of the subtree at `i` (41_tree_serializer.md R150): an Internal node is the sentinel
byte, then its left subtree, then its right; a leaf is its token. -/
inductive SerialForm (s : State) : NodeIx → List Byte → Prop
  | leaf {i : NodeIx} {n : Node} (h : nodeAt s i = some n) (hk : n.kind = .leaf) :
      SerialForm s i (if n.value = s.params.sentinelByte ∨ n.value = s.params.escapeByte
        then [s.params.escapeByte, n.value] else [n.value])
  | internal {i : NodeIx} {n : Node} {l r : List Byte} (h : nodeAt s i = some n)
      (hk : n.kind = .internal) (hl : SerialForm s n.left l) (hr : SerialForm s n.right r) :
      SerialForm s i (s.params.sentinelByte :: (l ++ r))

/-! Bits. -/

/-- The bits of bytes, each most significant first (20_memory.md R69). -/
def bitsMsb (bs : List Byte) : List Bool := bs.flatMap (fun b => payloadBits b 8)

/-- The bits pending in the packer: the low ACC_CNT bits of ACC, the earliest the most significant
(10_state.md R36). -/
def pending (s : State) : List Bool :=
  (List.range s.accCnt.toNat).map (fun j => s.acc.getLsbD (s.accCnt.toNat - 1 - j))

/-- How payload bits read in a tree whose root is Internal (44_bit_unpacker.md R230): from cursor `cur`
the bits lead to a cursor and emit bytes. -/
inductive Reads (s : State) : NodeIx → List Bool → NodeIx → List Byte → Prop
  | done (cur : NodeIx) : Reads s cur [] cur []
  | inner {cur next last : NodeIx} {c n : Node} {b : Bool} {bs : List Bool} {out : List Byte}
      (hc : nodeAt s cur = some c) (hk : c.kind = .internal)
      (hnext : next = if b then c.right else c.left) (hn : nodeAt s next = some n)
      (hi : n.kind = .internal) (h : Reads s next bs last out) : Reads s cur (b :: bs) last out
  | leaf {cur next last : NodeIx} {c n : Node} {b : Bool} {bs : List Bool} {out : List Byte}
      (hc : nodeAt s cur = some c) (hk : c.kind = .internal)
      (hnext : next = if b then c.right else c.left) (hn : nodeAt s next = some n)
      (hi : n.kind = .leaf) (h : Reads s s.root bs last out) :
      Reads s cur (b :: bs) last (n.value :: out)

/-- What a reader of the tree sees at the end of a path from ROOT: the kind, and a leaf's value
(41_tree_serializer.md R155: shape, KIND and VALUE). -/
def seenAt (s : State) (p : List Bool) : Option (Kind × Option Byte) :=
  match follow s s.root p with
  | none => none
  | some i =>
    match nodeAt s i with
    | none => none
    | some n =>
      match n.kind with
      | .leaf => some (.leaf, some n.value)
      | .internal => some (.internal, none)

/-- NODE[j] after DESER_BYTE has placed `node` at index `n` in the position `slot` names: the new
entry, the one child field of its parent, and every other entry as it was (42_tree_deserializer.md
R175). -/
def nodeAfterToken (s : State) (slot : Slot) (n : NodeIx) (node : Node) (j : NodeIx) : Option Node :=
  if j = n then some node
  else if j = slot.parent then
    match nodeAt s j with
    | none => none
    | some p => some (if slot.side = 0#1 then { p with left := n } else { p with right := n })
  else nodeAt s j

/-! Commands and what they touch. -/

/-- The opcode of a command (30_encoding.md R98). -/
def opcode : Instr → Byte
  | .nop => 0x00#8
  | .reset => 0x01#8
  | .errClr => 0x02#8
  | .treeClear => 0x10#8
  | .nodeWr _ _ _ _ _ => 0x11#8
  | .rootWr _ => 0x12#8
  | .codegen => 0x13#8
  | .ser => 0x20#8
  | .deserInit => 0x28#8
  | .deserByte _ => 0x29#8
  | .packInit => 0x30#8
  | .packByte _ => 0x31#8
  | .packFlush => 0x32#8
  | .hdrLoad _ _ => 0x38#8
  | .unpackInit _ => 0x40#8
  | .unpackByte _ => 0x41#8
  | .unpackEnd => 0x42#8

/-- The most bytes a command appends to OUT (20_memory.md R66, R73). -/
def emitBound : Instr → Nat
  | .nop => 0
  | .reset => 0
  | .errClr => 0
  | .treeClear => 0
  | .nodeWr _ _ _ _ _ => 0
  | .rootWr _ => 0
  | .codegen => 0
  | .ser => 767
  | .deserInit => 0
  | .deserByte _ => 0
  | .packInit => 0
  | .packByte _ => 32
  | .packFlush => 1
  | .hdrLoad _ _ => 0
  | .unpackInit _ => 0
  | .unpackByte _ => 8
  | .unpackEnd => 0

/-- From `s` to `t` the tree and the deserialize session are cleared (60_exceptions.md R313): no valid
entry, each payload as it was, and the session's registers at 0. -/
def SessionCleared (s t : State) : Prop :=
  (∀ k, nodeEntry t k = { nodeEntry s k with valid := false }) ∧ t.root = Config.nil ∧
  t.nextNode = 0#10 ∧ t.sp = 0#10 ∧ t.budget = 0#13 ∧ t.escPending = false

/-- From `s` to `t` the tree and the deserialize session are as they were. -/
def SessionKept (s t : State) : Prop :=
  t.nodes = s.nodes ∧ t.root = s.root ∧ t.nextNode = s.nextNode ∧ t.sp = s.sp ∧
  t.budget = s.budget ∧ t.escPending = s.escPending

/-- From `s` to `t` everything but ERR, ERR_CMD, MODE, the tree and the deserialize session's
registers is as it was, the slot stack's entries and OUT among it (R314). -/
def RestKept (s t : State) : Prop :=
  t.hdrPad = s.hdrPad ∧ t.hdrTbc = s.hdrTbc ∧ t.codeLen = s.codeLen ∧ t.codeBits = s.codeBits ∧
  t.acc = s.acc ∧ t.accCnt = s.accCnt ∧ t.cursor = s.cursor ∧ t.bitsLeft = s.bitsLeft ∧
  t.stack = s.stack ∧ t.params = s.params ∧ t.out = s.out ∧ t.readData = s.readData ∧
  t.epoch = s.epoch

/-- From `s` to `t` the error `code` was entered by the command word `cw` (R312, R314): a session of
the deserializer is cleared when `ends` says that the error ends one, and nothing else changes. -/
def ErrorEntered (code : BitVec 8) (cw : Word) (ends : Prop) (s t : State) : Prop :=
  t.err = code ∧ t.errCmd = cw ∧ t.mode = .idle ∧ RestKept s t ∧
  (ends → SessionCleared s t) ∧ (¬ ends → SessionKept s t)

/-! Invariants. -/

/-- The status registers (R24, R25, R320): a known code; an error leaves no session open; with no
error pending ERR_CMD is 0. -/
def StatusOk (s : State) : Prop :=
  s.err.toNat ≤ 0x10 ∧ (s.err ≠ 0#8 → s.mode = .idle) ∧ (s.err = 0#8 → s.errCmd = 0#64)

/-- The packer (R36): the bits of ACC at and above ACC_CNT are 0. -/
def PackOk (s : State) : Prop := s.acc.toNat < 2 ^ s.accCnt.toNat

/-- A live stack entry has been written, and names the root position or a valid node the
deserializer has placed. -/
def slotOk (s : State) (k : Nat) : Bool :=
  match tblGet s.stack k with
  | none => false
  | some x =>
    x.parent == Config.nil ||
      (decide (x.parent.toNat < s.nextNode.toNat) &&
        match tblGet s.nodes x.parent.toNat with
        | none => false
        | some n => n.valid)

/-- The deserializer (R32, R41, R177, R178). -/
def DeserOk (s : State) : Prop :=
  s.nextNode.toNat ≤ Config.treeCap ∧
  (s.mode = .deser → s.budget ≠ 0#13 ∧ s.sp ≠ 0#10 ∧ s.sp.toNat ≤ s.nextNode.toNat + 1 ∧
    ∀ k < s.sp.toNat, slotOk s k = true) ∧
  (s.mode ≠ .deser → s.budget = 0#13 ∧ s.sp = 0#10 ∧ s.escPending = false)

/-- The code table (R35, R43): a value with a code has its bits written, 0 at and above the code's
length. -/
def CodeOk (s : State) : Prop :=
  ∀ v : Byte, codeLenAt s v ≠ 0#8 →
    ∃ b, tblGet s.codeBits v.toNat = some b ∧ ∀ k, (codeLenAt s v).toNat ≤ k → b.getLsbD k = false

/-- CURSOR is ROOT or an Internal node of the tree (R37). -/
def CursorOk (s : State) : Prop :=
  s.cursor = s.root ∨
    ∃ p n, follow s s.root p = some s.cursor ∧ nodeAt s s.cursor = some n ∧ n.kind = .internal

/-- The unpacker (R37, R234, R353). -/
def UnpackOk (s : State) : Prop :=
  s.mode = .unpack →
    wfTree s = true ∧ (s.bitsLeft ≠ 0#51 → s.root ≠ Config.nil) ∧ CursorOk s

/-- All of them, with the canonical form of the memories. -/
def Consistent (s : State) : Prop :=
  memoryWf s = true ∧ StatusOk s ∧ PackOk s ∧ DeserOk s ∧ CodeOk s ∧ UnpackOk s

/-- A safe step: it stops with no fault and no refusal. -/
def SafeStep (s : State) : Prop := ∃ t, step s = .next t

/-- The state with the host about to issue these command words and nothing else. -/
def withWords (s : State) (ws : List Word) : State := { s with inputs := ws.map .command }

end Sys2Proof.Machine
end

