-- ==== Sys2Proof/Certificates/Slice0/Obligations.lean ====
section
/-! DEFINITION. The statements for the provers, each from the numbered rules its docstring names. -/

open Sys2Proof Sys2Proof.Machine

/-! ### Encoding (30_encoding.md) -/

/-- R91 to R98, R106: the decoder reads back every command from its word, every operand whole. -/
def Obligations.DecodeOfEncode : Prop :=
  ∀ i : Instr, i.wellFormed = true → decode (encode i) = .ok i

/-- R98, R100: a word that decodes is the word of the command it decodes to, so ERR_CMD of a decoded
command is the word the host issued (10_state.md R25). -/
def Obligations.EncodeOfDecode : Prop :=
  ∀ (w : Word) (i : Instr), decode w = .ok i → encode i = w

/-- R104: the words of the syntax table's examples. -/
def Obligations.SpecWordsDecode : Prop :=
  decode 0x2000000000000000#64 = .ok .ser ∧
  decode 0x3100000000000061#64 = .ok (.packByte 0x61#8) ∧
  decode 0x1200000000000000#64 = .ok (.rootWr 0#9) ∧
  decode 0x1100000004000202#64 = .ok (.nodeWr 0#9 .internal 0#8 1#9 2#9) ∧
  decode 0x3800000000008003#64 = .ok (.hdrLoad 0x80#8 0x03#8) ∧
  decode 0x4000000000000006#64 = .ok (.unpackInit 6#48)

/-- R98: no two rows of the opcode map match the same word. -/
def Obligations.OneRowPerWord : Prop :=
  rows.Pairwise (fun a b => ∀ w : Word, ¬ (a.selects w = true ∧ b.selects w = true))

/-- R100, R101: a word is illegal exactly when it is no command's word, and the reason is the opcode
exactly when CW[63:56] is none of the map's 17. -/
def Obligations.IllegalWordsExactly : Prop :=
  ∀ w : Word,
    ((∃ e, decode w = .error e) ↔ ∀ i : Instr, encode i ≠ w) ∧
    (decode w = .error .unassignedOpcode ↔
      ¬ ((bits w 63 56 : Byte) ∈ ([0x00#8, 0x01#8, 0x02#8, 0x10#8, 0x11#8, 0x12#8, 0x13#8, 0x20#8,
        0x28#8, 0x29#8, 0x30#8, 0x31#8, 0x32#8, 0x38#8, 0x40#8, 0x41#8, 0x42#8] : List Byte)))

/-- 20_memory.md R70: over a byte-wide channel a word travels most significant byte first.
The byte form of a word is the model's, log entry 16. -/
def Obligations.WordBytesBigEndian : Prop :=
  ∀ (w : Word) (rest : List Byte),
    (∀ k < 8, (wordBytes w)[k]? = some (BitVec.ofNat 8 (w.toNat / 2 ^ (8 * (7 - k))))) ∧
    takeWord (wordBytes w ++ rest) = some (w, rest) ∧
    ∀ i, decode w = .ok i → decodeBytes (wordBytes w ++ rest) = .ok (i, rest)

/-- R104: exactly the lines with every operand in its width have a word, and a leaf written with
its children left out takes NIL for both.
A line as a mnemonic and numbers is the model's choice, log entry 22. -/
def Obligations.AssemblerRefusesWideOperands : Prop :=
  (∀ l : AsmLine, (assembleWord l).isSome = l.wellFormed) ∧
  ∀ i v : Nat, assembleWord ⟨.nodeWr, [i, 0, v]⟩ = assembleWord ⟨.nodeWr, [i, 0, v, 511, 511]⟩

/-! ### The ports -/

/-- 60_exceptions.md R310, 70_reset_and_hazards.md R350: a command word that decodes is performed, whole,
by one step.
The list of interactions that step takes from is the model's choice, log entry 1. -/
def Obligations.StepPerformsDecodedCommand : Prop :=
  ∀ (s : State) (cw : Word) (rest : List HostInput) (i : Instr),
    s.inputs = .command cw :: rest → decode cw = .ok i → i.wellFormed = true →
      step s = exec i { s with inputs := rest }

/-- 20_memory.md R61: a read returns the addressed word and changes no element; every address reads
after it as before it. 70_reset_and_hazards.md R343: with nothing asked of it, the block waits.
The read as a step and the list that is empty are the model's choices, log entries 3 and 1. -/
def Obligations.ReadsHaveNoSideEffect : Prop :=
  (∀ (s : State) (a : BitVec 16) (rest : List HostInput), s.inputs = .read a :: rest →
    ∃ t, step s = .next t ∧
      t = { s with inputs := rest, readData := s.readData ++ [readPort s a] } ∧
      ∀ b, readPort t b = readPort s b) ∧
  (∀ s : State, s.inputs = [] → step s = .next s)

/-- 70_reset_and_hazards.md R340, R342: a hardware reset, with or without a command abandoned.
The reset as a step of its own is the model's choice, log entry 13. -/
def Obligations.HardwareResetResult : Prop :=
  ∀ (s : State) (ab : Option Word) (rest : List HostInput),
    s.inputs = .hardwareReset ab :: rest →
    ∃ t, step s = .next t ∧
      t.err = 0#8 ∧ t.mode = .idle ∧ t.errCmd = 0#64 ∧ t.hdrPad = 0#3 ∧ t.hdrTbc = 0#13 ∧
      t.root = Config.nil ∧ t.nextNode = 0#10 ∧ t.acc = 0#8 ∧ t.accCnt = 0#3 ∧
      t.cursor = Config.nil ∧ t.bitsLeft = 0#51 ∧ t.budget = 0#13 ∧ t.escPending = false ∧
      t.sp = 0#10 ∧ (∀ k, (nodeEntry t k).valid = false) ∧ (∀ v, codeLenAt t v = 0#8) ∧
      hdrWord t = 0x0000#16 ∧
      t.params = s.params ∧ t.out = s.out ∧ t.readData = s.readData ∧ t.inputs = rest ∧ Consistent t

/-! ### Errors (60_exceptions.md) -/

/-- R316: while an error is pending, every word but ERR_CLR's and RESET's is discarded. -/
def Obligations.PendingErrorDiscards : Prop :=
  ∀ (s : State) (cw : Word) (rest : List HostInput),
    s.err ≠ 0#8 → s.inputs = .command cw :: rest →
    decode cw ≠ .ok .errClr → decode cw ≠ .ok .reset →
      step s = .next { s with inputs := rest }

/-- R321: an illegal word raises ILLEGAL_CMD in every mode, and in DESER clears the session. -/
def Obligations.IllegalWordRaises : Prop :=
  ∀ (s : State) (cw : Word) (rest : List HostInput) (e : Illegal),
    s.err = 0#8 → s.inputs = .command cw :: rest → decode cw = .error e →
    ∃ t, step s = .next t ∧ t.inputs = rest ∧
      ErrorEntered 0x01#8 cw (s.mode = .deser) { s with inputs := rest } t

/-- R322, R312, R313: a command its mode does not accept raises SEQUENCE. That a stray DESER_BYTE clears the
tree in any mode is log entry 12. -/
def Obligations.WrongModeRaisesSequence : Prop :=
  ∀ (i : Instr) (s : State), s.err = 0#8 → accepts i s.mode = false →
    ∃ t, exec i s = .next t ∧ t.inputs = s.inputs ∧
      ErrorEntered 0x02#8 (encode i) (s.mode = .deser ∨ opcode i = 0x29#8) s t

/-- R311: with no error pending, a command ends in SEQUENCE exactly outside the modes R311 gives it. -/
def Obligations.SequenceExactlyOutsideTheModes : Prop :=
  ∀ (i : Instr) (s : State), s.err = 0#8 →
    ((∃ t, exec i s = .next t ∧ t.err = 0x02#8) ↔
      ¬ (opcode i ∈ [0x00#8, 0x01#8, 0x02#8] ∨
        (s.mode = .deser ∧ opcode i = 0x29#8) ∨
        (s.mode = .pack ∧ opcode i ∈ [0x31#8, 0x32#8]) ∨
        (s.mode = .unpack ∧ opcode i ∈ [0x41#8, 0x42#8]) ∨
        (s.mode = .idle ∧ opcode i ∈ [0x10#8, 0x11#8, 0x12#8, 0x13#8, 0x20#8, 0x28#8, 0x30#8,
          0x38#8, 0x40#8])))

/-- R312 to R314: whichever command word fails, with whichever error, error entry writes ERR, ERR_CMD and
MODE, clears the deserialize session it ends, and nothing else changes. That a stray DESER_BYTE clears
the tree in any mode is log entry 12. -/
def Obligations.ErrorsArePrecise : Prop :=
  ∀ (s t : State) (cw : Word) (rest : List HostInput),
    s.err = 0#8 → s.inputs = .command cw :: rest → step s = .next t → t.err ≠ 0#8 →
    t.err.toNat ≤ 0x10 ∧ t.inputs = rest ∧
    ErrorEntered t.err cw (s.mode = .deser ∨ ∃ b, decode cw = .ok (.deserByte b))
      { s with inputs := rest } t

/-! ### Control commands (46_system.md) -/

/-- R290: NOP leaves every state element and OUT unchanged, in every mode, error pending or not. -/
def Obligations.NopCompletes : Prop := ∀ s : State, exec .nop s = .next s

/-- R291: RESET in every state; node payload, CODE_BITS, STACK entries, OUT and CONFIG stay. -/
def Obligations.ResetCommandResult : Prop :=
  ∀ s : State, ∃ t, exec .reset s = .next t ∧
    t.err = 0#8 ∧ t.errCmd = 0#64 ∧ t.mode = .idle ∧ t.hdrPad = 0#3 ∧ t.hdrTbc = 0#13 ∧
    SessionCleared s t ∧ (∀ v, codeLenAt t v = 0#8) ∧ t.acc = 0#8 ∧ t.accCnt = 0#3 ∧
    t.cursor = Config.nil ∧ t.bitsLeft = 0#51 ∧ t.codeBits = s.codeBits ∧ t.stack = s.stack ∧
    t.params = s.params ∧ t.out = s.out ∧ t.readData = s.readData ∧ t.inputs = s.inputs ∧
    t.epoch = s.epoch

/-- R292, R317: ERR_CLR in every state clears ERR and ERR_CMD and nothing else. -/
def Obligations.ErrClrCompletes : Prop :=
  ∀ s : State, exec .errClr s = .next { s with err := 0#8, errCmd := 0#64 }

/-! ### Tree storage and code table (40_tree_memory.md) -/

/-- R122. -/
def Obligations.TreeClearResult : Prop :=
  ∀ s : State, s.err = 0#8 → s.mode = .idle →
    ∃ t, exec .treeClear s = .next t ∧ t.root = Config.nil ∧ t.nextNode = 0#10 ∧
      (∀ k, nodeEntry t k = { nodeEntry s k with valid := false }) ∧
      t = { s with nodes := t.nodes, root := t.root, nextNode := t.nextNode }

/-- R120, R323: NODE_WR writes all five fields of one entry and nothing else; index NIL is
BAD_OPERAND. -/
def Obligations.NodeWrResult : Prop :=
  ∀ (s : State) (idx : NodeIx) (k : Kind) (v : Byte) (l r : NodeIx),
    s.err = 0#8 → s.mode = .idle →
    (idx ≠ Config.nil →
      ∃ t, exec (.nodeWr idx k v l r) s = .next t ∧
        nodeAt t idx = some { valid := true, kind := k, value := v, left := l, right := r } ∧
        (∀ j, j ≠ idx → nodeAt t j = nodeAt s j) ∧ t = { s with nodes := t.nodes }) ∧
    (idx = Config.nil →
      exec (.nodeWr idx k v l r) s =
        .next { s with err := 0x03#8, errCmd := encode (.nodeWr idx k v l r) })

/-- R121: ROOT_WR takes every 9-bit value, NIL included, unchecked. -/
def Obligations.RootWrCompletes : Prop :=
  ∀ (s : State) (idx : NodeIx), s.err = 0#8 → s.mode = .idle →
    exec (.rootWr idx) s = .next { s with root := idx }

/-- R123: `wf_tree()` is true exactly when ROOT is NIL or ROOT is the root of a finite tree in the node memory in
which no node is reached twice. The walk's fuel therefore decides nothing.
(Log entry 14.) -/
def Obligations.WfTreeExactly : Prop :=
  ∀ s : State, wfTree s = true ↔
    s.root = Config.nil ∨ ∃ l, IsTree s s.root l ∧ l.Nodup

/-- R124: a tree that passes `wf_tree()` is a full binary tree of at most 511 nodes, with one more leaf than
internal nodes, so at most 256 leaves, and no node deeper than 255. -/
def Obligations.TreeBounds : Prop :=
  ∀ s : State, wfTree s = true → s.root ≠ Config.nil →
    ∃ l, IsTree s s.root l ∧ l.Nodup ∧ l.length ≤ 511 ∧
      l.countP (fun j => (nodeAt s j).any (fun n => n.kind == .leaf)) =
        l.countP (fun j => (nodeAt s j).any (fun n => n.kind == .internal)) + 1 ∧
      l.countP (fun j => (nodeAt s j).any (fun n => n.kind == .leaf)) ≤ 256 ∧
      ∀ p j, follow s s.root p = some j → p.length ≤ 255

/-- R125, R127, R128: the code of a value is the path to its leaf, that of the last one in pre-order where
several hold it; a single leaf has the code "0"; a value with no leaf has none. -/
def Obligations.CodegenResult : Prop :=
  ∀ s : State, s.err = 0#8 → s.mode = .idle → wfTree s = true →
    ∃ t, exec .codegen s = .next t ∧ t = { s with codeLen := t.codeLen, codeBits := t.codeBits } ∧
      (s.root = Config.nil → ∀ v, codeLenAt t v = 0#8 ∧ codeBitsAt t v = 0#256) ∧
      (∀ n, nodeAt s s.root = some n → n.kind = .leaf → ∀ v,
        codeLenAt t v = (if v = n.value then 1#8 else 0#8) ∧ codeBitsAt t v = 0#256) ∧
      (∀ n, nodeAt s s.root = some n → n.kind = .internal → ∀ v,
        ((¬ ∃ p, leafPath s p v) → codeLenAt t v = 0#8 ∧ codeBitsAt t v = 0#256) ∧
        ((∃ p, leafPath s p v) →
          ∃ p, leafPath s p v ∧ (∀ q, leafPath s q v → q = p ∨ before q p = true) ∧
            (codeLenAt t v).toNat = p.length ∧
            ∀ k, (codeBitsAt t v).getLsbD k = (p[k]?).getD false))

/-- R324: CODEGEN, SER and UNPACK_INIT raise BAD_TREE when `wf_tree()` is false, before any other of
their checks. -/
def Obligations.BadTreeRaised : Prop :=
  ∀ (s : State) (i : Instr), s.err = 0#8 → s.mode = .idle → wfTree s = false →
    opcode i ∈ [0x13#8, 0x20#8, 0x40#8] →
      exec i s = .next { s with err := 0x04#8, errCmd := encode i }

/-- R130: two CODEGEN commands with no tree change between them leave the code table equal, whatever
else has changed, and a second one right after the first changes nothing. -/
def Obligations.CodegenIdempotent : Prop :=
  ∀ s t : State, exec .codegen s = .next t → t.err = 0#8 →
    exec .codegen t = .next t ∧
    ∀ s' t' : State, exec .codegen s' = .next t' → t'.err = 0#8 → s'.root = s.root →
      (∀ i, nodeAt s' i = nodeAt s i) → t'.codeLen = t.codeLen ∧ t'.codeBits = t.codeBits

/-- R129: the codes form a prefix code, and reading a code's bits from the root ends at the leaf that holds
its value. It holds with duplicate leaf values too. -/
def Obligations.CodesPrefixFree : Prop :=
  ∀ s t : State, exec .codegen s = .next t → t.err = 0#8 →
    ∀ v : Byte, codeLenAt t v ≠ 0#8 →
      (∀ w : Byte, v ≠ w → codeLenAt t w ≠ 0#8 → ¬ (codeOf t v <+: codeOf t w)) ∧
      unpackBits t (codeOf t v) t.root = .ok t.root [v]

/-! ### Serializer (41_tree_serializer.md) -/

/-- R152, R154: SER appends the serial form to OUT and records its length, which is at most 767, so
TREE_TOO_BIG is never raised. -/
def Obligations.SerResult : Prop :=
  ∀ s : State, s.err = 0#8 → s.mode = .idle → wfTree s = true →
    (serBytes s).length ≤ 767 ∧
    ∃ t, exec .ser s = .next t ∧ t.hdrTbc.toNat = (serBytes s).length ∧
      t = { s with out := s.out ++ serBytes s, hdrTbc := t.hdrTbc }

/-- R150: the serial form is the pre-order form, and empty for the empty tree. -/
def Obligations.SerialFormPreorder : Prop :=
  ∀ s : State, wfTree s = true →
    (s.root = Config.nil → serBytes s = []) ∧
    (s.root ≠ Config.nil → SerialForm s s.root (serBytes s))

/-! ### Deserializer (42_tree_deserializer.md) -/

/-- R173.
That the other stack entries keep their values is log entry 6. -/
def Obligations.DeserInitResult : Prop :=
  ∀ s : State, s.err = 0#8 → s.mode = .idle →
    ∃ t, exec .deserInit s = .next t ∧ t.root = Config.nil ∧ t.nextNode = 0#10 ∧
      t.escPending = false ∧ t.budget = s.hdrTbc ∧
      (∀ k, nodeEntry t k = { nodeEntry s k with valid := false }) ∧
      t = { s with
        nodes := t.nodes, root := t.root, nextNode := t.nextNode, escPending := t.escPending
        budget := t.budget, stack := t.stack, sp := t.sp, mode := t.mode } ∧
      (s.hdrTbc = 0#13 → t.sp = 0#10 ∧ t.mode = .idle ∧ t.stack = s.stack) ∧
      (s.hdrTbc ≠ 0#13 → t.sp = 1#10 ∧ t.mode = .deser ∧
        slotAt t 0 = { parent := Config.nil, side := 0#1 } ∧
        ∀ k, k ≠ 0 → slotAt t k = slotAt s k)

/-- R171, R175: an escape byte takes one unit of budget and creates no node. -/
def Obligations.DeserByteEscape : Prop :=
  ∀ s : State, s.err = 0#8 → s.mode = .deser → s.escPending = false → 2 ≤ s.budget.toNat →
    ∃ t, exec (.deserByte s.params.escapeByte) s = .next t ∧
      t.budget.toNat + 1 = s.budget.toNat ∧ t = { s with budget := t.budget, escPending := true }

/-- R171, R174, R175: a Leaf token, a literal after an escape or a byte that is neither marker, fills
the top position; with it the session ends or goes on. -/
def Obligations.DeserByteLeaf : Prop :=
  ∀ (s : State) (b : Byte), s.err = 0#8 → s.mode = .deser →
    (s.escPending = true ∨ (b ≠ s.params.escapeByte ∧ b ≠ s.params.sentinelByte)) →
    s.nextNode.toNat < 511 → 1 ≤ s.sp.toNat → s.sp.toNat ≤ 512 →
    (slotAt s (s.sp.toNat - 1)).parent ≠ s.nextNode.setWidth 9 →
    (s.sp.toNat = 1 ∧ s.budget.toNat = 1 ∨ 2 ≤ s.sp.toNat ∧ 2 ≤ s.budget.toNat) →
    ∃ t, exec (.deserByte b) s = .next t ∧
      t.nextNode.toNat = s.nextNode.toNat + 1 ∧ t.sp.toNat + 1 = s.sp.toNat ∧
      t.budget.toNat + 1 = s.budget.toNat ∧ t.escPending = false ∧
      t.mode = (if s.sp.toNat = 1 then .idle else .deser) ∧
      t.root = (if (slotAt s (s.sp.toNat - 1)).parent = Config.nil then s.nextNode.setWidth 9
        else s.root) ∧
      (∀ j, nodeAt t j = nodeAfterToken s (slotAt s (s.sp.toNat - 1)) (s.nextNode.setWidth 9)
        { valid := true, kind := .leaf, value := b, left := Config.nil, right := Config.nil } j) ∧
      t = { s with
        nodes := t.nodes, root := t.root, nextNode := t.nextNode, escPending := false
        budget := t.budget, sp := t.sp, mode := t.mode }

/-- R171, R174, R175: an Internal token fills the top position and opens the right child's and, on top
of it, the left child's. -/
def Obligations.DeserByteInternal : Prop :=
  ∀ s : State, s.err = 0#8 → s.mode = .deser → s.escPending = false →
    s.nextNode.toNat < 511 → 1 ≤ s.sp.toNat → s.sp.toNat ≤ 511 → 2 ≤ s.budget.toNat →
    (slotAt s (s.sp.toNat - 1)).parent ≠ s.nextNode.setWidth 9 →
    ∃ t, exec (.deserByte s.params.sentinelByte) s = .next t ∧
      t.nextNode.toNat = s.nextNode.toNat + 1 ∧ t.sp.toNat = s.sp.toNat + 1 ∧
      t.budget.toNat + 1 = s.budget.toNat ∧
      t.root = (if (slotAt s (s.sp.toNat - 1)).parent = Config.nil then s.nextNode.setWidth 9
        else s.root) ∧
      (∀ j, nodeAt t j = nodeAfterToken s (slotAt s (s.sp.toNat - 1)) (s.nextNode.setWidth 9)
        { valid := true, kind := .internal, value := 0#8, left := Config.nil,
          right := Config.nil } j) ∧
      slotAt t (s.sp.toNat - 1) = { parent := s.nextNode.setWidth 9, side := 1#1 } ∧
      slotAt t s.sp.toNat = { parent := s.nextNode.setWidth 9, side := 0#1 } ∧
      (∀ k, k ≠ s.sp.toNat - 1 → k ≠ s.sp.toNat → slotAt t k = slotAt s k) ∧
      t = { s with
        nodes := t.nodes, root := t.root, nextNode := t.nextNode
        budget := t.budget, sp := t.sp, stack := t.stack }

/-- R172, R176, R327 to R330: the four ways a tree byte fails, each clearing the session. -/
def Obligations.DeserByteErrors : Prop :=
  ∀ (s : State) (b : Byte), s.err = 0#8 → s.mode = .deser → s.budget ≠ 0#13 →
    (s.escPending = false → b = s.params.escapeByte → s.budget = 1#13 →
      ∃ t, exec (.deserByte b) s = .next t ∧ ErrorEntered 0x07#8 (encode (.deserByte b)) True s t) ∧
    (s.escPending = true ∨ b ≠ s.params.escapeByte →
      (s.nextNode = 511#10 →
        ∃ t, exec (.deserByte b) s = .next t ∧
          ErrorEntered 0x0A#8 (encode (.deserByte b)) True s t) ∧
      (s.nextNode.toNat < 511 →
        (s.escPending = true ∨ b ≠ s.params.sentinelByte → 1 ≤ s.sp.toNat → s.sp.toNat ≤ 512 →
          (s.sp = 1#10 → s.budget ≠ 1#13 →
            ∃ t, exec (.deserByte b) s = .next t ∧
              ErrorEntered 0x09#8 (encode (.deserByte b)) True s t) ∧
          (s.sp ≠ 1#10 → s.budget = 1#13 →
            ∃ t, exec (.deserByte b) s = .next t ∧
              ErrorEntered 0x08#8 (encode (.deserByte b)) True s t)) ∧
        (s.escPending = false → b = s.params.sentinelByte → 1 ≤ s.sp.toNat → s.sp.toNat ≤ 511 →
          s.budget = 1#13 →
            ∃ t, exec (.deserByte b) s = .next t ∧
              ErrorEntered 0x08#8 (encode (.deserByte b)) True s t)))

/-- R179: a deserialize session that ends without error leaves a tree that passes `wf_tree()`, whose
NEXT_NODE nodes are entries 0, 1, 2, ... in pre-order with root 0, and no other valid entry. Reads and
NOPs may stand between the tree bytes. -/
def Obligations.DeserializedTreeWellFormed : Prop :=
  ∀ (s t : State) (ins : List HostInput), s.err = 0#8 → s.mode = .idle →
    (∀ a ∈ ins, (∃ addr, a = .read addr) ∨ a = issue .nop ∨ ∃ b, a = issue (.deserByte b)) →
    Host.Core.run core (ins.length + 1) { s with inputs := issue .deserInit :: ins } = .next t →
    t.err = 0#8 → t.mode = .idle →
      wfTree t = true ∧
      (s.hdrTbc = 0#13 → t.root = Config.nil ∧ t.nextNode = 0#10) ∧
      (s.hdrTbc ≠ 0#13 → t.root = 0#9 ∧
        IsTree t t.root ((List.range t.nextNode.toNat).map (BitVec.ofNat 9))) ∧
      ∀ k, (nodeEntry t k).valid = true ↔ k < t.nextNode.toNat

/-- 41_tree_serializer.md R155: the bytes SER emits, given back to the deserializer with the HDR_TBC that SER
left, rebuild a tree of the same shape, kinds and leaf values, numbered 0, 1, 2, ... in pre-order. -/
def Obligations.SerDeserRoundTrip : Prop :=
  ∀ (s s' : State) (bs : List Byte), exec .ser s = .next s' → s'.err = 0#8 → s'.out = s.out ++ bs →
    ∃ t, Host.Core.run core (bs.length + 1)
        (withWords s' (encode .deserInit :: bs.map (fun b => encode (.deserByte b)))) = .next t ∧
      t.err = 0#8 ∧ t.mode = .idle ∧ (∀ p, seenAt t p = seenAt s p) ∧
      (s.root ≠ Config.nil →
        IsTree t 0#9 ((List.range t.nextNode.toNat).map (BitVec.ofNat 9)) ∧ t.root = 0#9)

/-! ### Packer (43_bit_packer.md) -/

/-- R201. -/
def Obligations.PackInitCompletes : Prop :=
  ∀ s : State, s.err = 0#8 → s.mode = .idle →
    exec .packInit s = .next { s with acc := 0#8, accCnt := 0#3, mode := .pack }

/-- R203, R205, R325: the code's bits join the pending ones, first bit first; whole bytes leave, most
significant bit first; a value with no code is NO_CODE. -/
def Obligations.PackByteAppendsCode : Prop :=
  ∀ (s : State) (b : Byte), s.err = 0#8 → s.mode = .pack →
    (codeLenAt s b ≠ 0#8 →
      ∃ t bs, exec (.packByte b) s = .next t ∧
        bitsMsb bs ++ pending t = pending s ++ codeOf s b ∧
        t = { s with out := s.out ++ bs, acc := t.acc, accCnt := t.accCnt }) ∧
    (codeLenAt s b = 0#8 →
      exec (.packByte b) s =
        .next { s with err := 0x05#8, errCmd := encode (.packByte b), mode := .idle })

/-- R207, R208: the pending bits leave as one byte with HDR_PAD zero bits below them; no byte leaves
when none is pending. -/
def Obligations.PackFlushResult : Prop :=
  ∀ s : State, s.err = 0#8 → s.mode = .pack →
    ∃ t bs, exec .packFlush s = .next t ∧
      bitsMsb bs = pending s ++ List.replicate t.hdrPad.toNat false ∧
      t.hdrPad.toNat = (8 - s.accCnt.toNat) % 8 ∧
      t = { s with
        out := s.out ++ bs, hdrPad := t.hdrPad, acc := 0#8, accCnt := 0#3, mode := .idle }

/-! ### Header (45_header_and_framing.md) -/

/-- R260 to R262: HDR_LOAD loads both fields from the two header bytes, high byte first, and loading
HDR's own two bytes changes nothing. -/
def Obligations.HdrLoadResult : Prop :=
  ∀ (s : State) (hb0 hb1 : Byte), s.err = 0#8 → s.mode = .idle →
    (∃ t, exec (.hdrLoad hb0 hb1) s = .next t ∧ t.hdrPad.toNat = hb0.toNat / 32 ∧
      t.hdrTbc.toNat = hb0.toNat % 32 * 256 + hb1.toNat ∧
      (hdrWord t).toNat = hb0.toNat * 256 + hb1.toNat ∧
      t = { s with hdrPad := t.hdrPad, hdrTbc := t.hdrTbc }) ∧
    exec (.hdrLoad ((hdrWord s).extractLsb 15 8) ((hdrWord s).extractLsb 7 0)) s = .next s

/-! ### Unpacker (44_bit_unpacker.md) -/

/-- R231 to R234, R331, R332: the meaningful bit count on natural numbers, and the checks in their
order once the tree is well formed. -/
def Obligations.UnpackInitResult : Prop :=
  ∀ (s : State) (len : BitVec 48), s.err = 0#8 → s.mode = .idle → wfTree s = true →
    ((len.toNat < s.hdrTbc.toNat + 2 ∨
        (len.toNat - s.hdrTbc.toNat - 2) * 8 < s.hdrPad.toNat) →
      exec (.unpackInit len) s =
        .next { s with err := 0x0B#8, errCmd := encode (.unpackInit len) }) ∧
    (s.hdrTbc.toNat + 2 ≤ len.toNat →
      s.hdrPad.toNat ≤ (len.toNat - s.hdrTbc.toNat - 2) * 8 →
      (s.root = Config.nil ∧ s.hdrPad.toNat < (len.toNat - s.hdrTbc.toNat - 2) * 8 →
        exec (.unpackInit len) s =
          .next { s with err := 0x0C#8, errCmd := encode (.unpackInit len) }) ∧
      (s.root ≠ Config.nil ∨ s.hdrPad.toNat = (len.toNat - s.hdrTbc.toNat - 2) * 8 →
        ∃ t, exec (.unpackInit len) s = .next t ∧
          t.bitsLeft.toNat = (len.toNat - s.hdrTbc.toNat - 2) * 8 - s.hdrPad.toNat ∧
          t = { s with bitsLeft := t.bitsLeft, cursor := s.root, mode := .unpack }))

/-- R230, R236, R237: with an Internal root, one payload byte reads min(8, BITS_LEFT) bits from its
top, steps right on 1 and left on 0, and each leaf reached emits its value. -/
def Obligations.UnpackByteDecodes : Prop :=
  ∀ (s : State) (b : Byte) (r : Node), s.err = 0#8 → s.mode = .unpack → s.bitsLeft ≠ 0#51 →
    wfTree s = true → nodeAt s s.root = some r → r.kind = .internal → CursorOk s →
    ∃ t cur bs,
      Reads s s.cursor
        ((List.range (min 8 s.bitsLeft.toNat)).map (fun j => b.getLsbD (7 - j))) cur bs ∧
      exec (.unpackByte b) s = .next t ∧
      t.bitsLeft.toNat + min 8 s.bitsLeft.toNat = s.bitsLeft.toNat ∧
      t = { s with out := s.out ++ bs, cursor := cur, bitsLeft := t.bitsLeft }

/-- R235, R336: with a Leaf at ROOT each meaningful 0 bit emits its value and CURSOR stays; a
meaningful 1 bit is BAD_PATH, and then nothing is emitted. -/
def Obligations.UnpackByteSingleLeaf : Prop :=
  ∀ (s : State) (b : Byte) (r : Node), s.err = 0#8 → s.mode = .unpack → s.bitsLeft ≠ 0#51 →
    nodeAt s s.root = some r → r.kind = .leaf →
    ((∀ j < min 8 s.bitsLeft.toNat, b.getLsbD (7 - j) = false) →
      ∃ t, exec (.unpackByte b) s = .next t ∧
        t.bitsLeft.toNat + min 8 s.bitsLeft.toNat = s.bitsLeft.toNat ∧
        t = { s with
          out := s.out ++ List.replicate (min 8 s.bitsLeft.toNat) r.value
          bitsLeft := t.bitsLeft }) ∧
    ((∃ j < min 8 s.bitsLeft.toNat, b.getLsbD (7 - j) = true) →
      exec (.unpackByte b) s =
        .next { s with err := 0x10#8, errCmd := encode (.unpackByte b), mode := .idle })

/-- R238, R333: the bits below the meaningful ones are never read; with none left to read the byte
is PAYLOAD_OVERRUN. -/
def Obligations.PaddingIgnored : Prop :=
  ∀ (s : State) (b : Byte), s.err = 0#8 → s.mode = .unpack →
    (s.bitsLeft = 0#51 →
      exec (.unpackByte b) s =
        .next { s with err := 0x0D#8, errCmd := encode (.unpackByte b), mode := .idle }) ∧
    ∀ (c : Byte) (t : State), s.bitsLeft ≠ 0#51 →
      (∀ j < min 8 s.bitsLeft.toNat, b.getLsbD (7 - j) = c.getLsbD (7 - j)) →
      exec (.unpackByte b) s = .next t → t.err = 0#8 → exec (.unpackByte c) s = .next t

/-- R240, R334, R335: UNPACK_END closes the session, or reports missing bits, or a partial code. -/
def Obligations.UnpackEndResult : Prop :=
  ∀ s : State, s.err = 0#8 → s.mode = .unpack →
    (s.bitsLeft = 0#51 → s.cursor = s.root → exec .unpackEnd s = .next { s with mode := .idle }) ∧
    (s.bitsLeft ≠ 0#51 → exec .unpackEnd s =
      .next { s with err := 0x0E#8, errCmd := encode .unpackEnd, mode := .idle }) ∧
    (s.bitsLeft = 0#51 → s.cursor ≠ s.root → exec .unpackEnd s =
      .next { s with err := 0x0F#8, errCmd := encode .unpackEnd, mode := .idle })

/-- R239: the codes of a source, read bit after bit in the tree they were made from, give the source
back, and leave the cursor at ROOT. -/
def Obligations.CodesUnpackToSource : Prop :=
  ∀ (s t : State) (source : List Byte), exec .codegen s = .next t → t.err = 0#8 →
    (∀ v ∈ source, codeLenAt t v ≠ 0#8) →
      unpackBits t (source.flatMap (codeOf t)) t.root = .ok t.root source

/-! ### The whole machine -/

/-- 20_memory.md R66, R73: OUT is append-only, only SER, PACK_BYTE, PACK_FLUSH and UNPACK_BYTE append to
it and within their bounds, and a command that ends in error appends nothing.
OUT as a list is log entry 2. -/
def Obligations.EmissionBounds : Prop :=
  (∀ (i : Instr) (s t : State), exec i s = .next t →
    ∃ bs, t.out = s.out ++ bs ∧ bs.length ≤ emitBound i ∧ (t.err ≠ 0#8 → bs = [])) ∧
  ∀ s t : State, step s = .next t → ∃ bs, t.out = s.out ++ bs

/-- 10_state.md R44: which commands write which element; RESET aside, and error entry in a deserialize
session for the tree and the session's registers. -/
def Obligations.CommandWrites : Prop :=
  ∀ (i : Instr) (s t : State), exec i s = .next t → opcode i ≠ 0x01#8 →
    (t.err ≠ s.err ∨ t.errCmd ≠ s.errCmd → t.err ≠ 0#8 ∨ opcode i = 0x02#8) ∧
    (t.mode ≠ s.mode → t.err ≠ 0#8 ∨
      opcode i ∈ [0x30#8, 0x32#8, 0x28#8, 0x29#8, 0x40#8, 0x42#8]) ∧
    (t.hdrPad ≠ s.hdrPad → opcode i ∈ [0x32#8, 0x38#8]) ∧
    (t.hdrTbc ≠ s.hdrTbc → opcode i ∈ [0x20#8, 0x38#8]) ∧
    (t.root ≠ s.root → opcode i ∈ [0x12#8, 0x10#8, 0x28#8, 0x29#8] ∨
      (t.err ≠ 0#8 ∧ s.mode = .deser)) ∧
    (t.nodes ≠ s.nodes → opcode i ∈ [0x11#8, 0x10#8, 0x28#8, 0x29#8] ∨
      (t.err ≠ 0#8 ∧ s.mode = .deser)) ∧
    (t.nextNode ≠ s.nextNode → opcode i ∈ [0x10#8, 0x28#8, 0x29#8] ∨
      (t.err ≠ 0#8 ∧ s.mode = .deser)) ∧
    (t.codeLen ≠ s.codeLen ∨ t.codeBits ≠ s.codeBits → opcode i = 0x13#8) ∧
    (t.acc ≠ s.acc ∨ t.accCnt ≠ s.accCnt → opcode i ∈ [0x30#8, 0x31#8, 0x32#8]) ∧
    (t.cursor ≠ s.cursor ∨ t.bitsLeft ≠ s.bitsLeft → opcode i ∈ [0x40#8, 0x41#8]) ∧
    (t.budget ≠ s.budget ∨ t.escPending ≠ s.escPending ∨ t.stack ≠ s.stack ∨ t.sp ≠ s.sp →
      opcode i ∈ [0x28#8, 0x29#8] ∨ (t.err ≠ 0#8 ∧ s.mode = .deser)) ∧
    (t.out ≠ s.out → opcode i ∈ [0x20#8, 0x31#8, 0x32#8, 0x41#8]) ∧
    t.params = s.params ∧ t.readData = s.readData ∧ t.inputs = s.inputs ∧ t.epoch = s.epoch

/-- 70_reset_and_hazards.md R352: while a session goes on, nothing changes the code table or the header
registers, nor, in PACK and UNPACK, the tree; sessions never nest; and a session is closed only by
its own last command, by an error, or by RESET. -/
def Obligations.OpenSessionIsolated : Prop :=
  ∀ (i : Instr) (s t : State), exec i s = .next t → s.mode ≠ .idle →
    (t.mode = s.mode →
      t.codeLen = s.codeLen ∧ t.codeBits = s.codeBits ∧ t.hdrPad = s.hdrPad ∧
      t.hdrTbc = s.hdrTbc ∧ (s.mode ≠ .deser → t.root = s.root ∧ t.nodes = s.nodes)) ∧
    (t.mode ≠ s.mode → t.mode = .idle ∧
      (t.err ≠ 0#8 ∨ opcode i = 0x01#8 ∨ (s.mode = .pack ∧ opcode i = 0x32#8) ∨
        (s.mode = .deser ∧ opcode i = 0x29#8) ∨ (s.mode = .unpack ∧ opcode i = 0x42#8)))

/-- Log entry 19: every step keeps the four memories in their canonical form. -/
def Obligations.StepKeepsMemoryForm : Prop :=
  ∀ s t : State, memoryWf s = true → step s = .next t → memoryWf t = true

/-- 10_state.md R24, R25, R36, 60_exceptions.md R312, R320: every step keeps the status registers and the
packer's accumulator as those rules say. -/
def Obligations.StepKeepsStatusAndPacker : Prop :=
  ∀ s t : State, step s = .next t → (StatusOk s → StatusOk t) ∧ (PackOk s → PackOk t)

/-- 42_tree_deserializer.md R177, R178, R181: every step keeps the deserializer's invariants.
That a live entry has been written is told by the model's own lists, log entries 6 and 19. -/
def Obligations.StepKeepsDeserializer : Prop :=
  ∀ s t : State, DeserOk s → step s = .next t → DeserOk t

/-- 10_state.md R35, R43: every step keeps the code table so that a value with a code has its bits
written, 0 from the code's length up.
That an entry has been written is told by the model's own lists, log entries 5 and 19. -/
def Obligations.StepKeepsCodeTable : Prop :=
  ∀ s t : State, CodeOk s → step s = .next t → CodeOk t

/-- 10_state.md R37, 70_reset_and_hazards.md R353: every step keeps an open unpack session on a
well-formed tree with its cursor at ROOT or an Internal node of it. -/
def Obligations.StepKeepsUnpacker : Prop :=
  ∀ s t : State, UnpackOk s → step s = .next t → UnpackOk t

/-- 10_state.md R42, 70_reset_and_hazards.md R342: the reset state meets every invariant. -/
def Obligations.ResetMeetsInvariant : Prop := Consistent State.reset

/-- 42_tree_deserializer.md R177, R178, 70_reset_and_hazards.md R353: in a state that meets the
invariant no step stops: each access is to an entry that exists.
The faults are the model's, log entries 9 and 10. -/
def Obligations.StepNeverStops : Prop := ∀ s : State, Consistent s → SafeStep s

/-- 10_state.md R43: no command reads an unspecified element: with every free value exchanged for
another the command does the same.
The free values and the counter that selects them are the model's, log entries 4 to 7. -/
def Obligations.FreeValuesUnread : Prop :=
  ∀ (i : Instr) (s t : State) (e : Nat), Consistent s → exec i s = .next t →
    exec i { s with epoch := e } = .next { t with epoch := e }

/-! ### The read port (20_memory.md) -/

/-- R62: the registers' words; bits not named read as 0. -/
def Obligations.ReadPortRegisters : Prop :=
  ∀ s : State,
    (readPort s 0x0000#16).toNat = s.err.toNat + (modeCode s.mode).toNat * 2 ^ 8 ∧
    readPort s 0x0001#16 = s.errCmd ∧
    (readPort s 0x0002#16).toNat = s.hdrTbc.toNat + s.hdrPad.toNat * 2 ^ 13 ∧
    (readPort s 0x0003#16).toNat = s.root.toNat ∧
    (readPort s 0x0004#16).toNat = s.acc.toNat + s.accCnt.toNat * 2 ^ 8 ∧
    (readPort s 0x0005#16).toNat = s.cursor.toNat ∧
    (readPort s 0x0006#16).toNat = s.bitsLeft.toNat ∧
    (readPort s 0x0007#16).toNat = s.budget.toNat + s.escPending.toNat * 2 ^ 13 +
      s.nextNode.toNat * 2 ^ 16 + s.sp.toNat * 2 ^ 32 ∧
    (readPort s 0x0008#16).toNat = s.params.sentinelByte.toNat +
      s.params.escapeByte.toNat * 2 ^ 8 + 511 * 2 ^ 16

/-- R62, R63: the memories' words, and 0 at every address R62 does not list. -/
def Obligations.ReadPortMemories : Prop :=
  ∀ s : State,
    (∀ k < 511, (readPort s (BitVec.ofNat 16 (0x0100 + k))).toNat =
      (nodeEntry s k).right.toNat + (nodeEntry s k).left.toNat * 2 ^ 9 +
      (nodeEntry s k).value.toNat * 2 ^ 18 + (kindBit (nodeEntry s k).kind).toNat * 2 ^ 26 +
      (nodeEntry s k).valid.toNat * 2 ^ 27) ∧
    (∀ v : Byte, (readPort s (BitVec.ofNat 16 (0x0400 + v.toNat))).toNat = (codeLenAt s v).toNat) ∧
    (∀ v : Byte, ∀ w < 4, ∀ j < 64,
      (readPort s (BitVec.ofNat 16 (0x0800 + 4 * v.toNat + w))).getLsbD j =
        (codeBitsAt s v).getLsbD (64 * w + j)) ∧
    (∀ k < 512, (readPort s (BitVec.ofNat 16 (0x2000 + k))).toNat =
      (slotAt s k).parent.toNat + (slotAt s k).side.toNat * 2 ^ 9) ∧
    (∀ a : BitVec 16, (0x0009 ≤ a.toNat ∧ a.toNat < 0x0100 ∨ 0x02FF ≤ a.toNat ∧ a.toNat < 0x0400 ∨
        0x0500 ≤ a.toNat ∧ a.toNat < 0x0800 ∨ 0x0C00 ≤ a.toNat ∧ a.toNat < 0x2000 ∨
        0x2200 ≤ a.toNat) → readPort s a = 0#64)

/-- R62: bits [26:0] of a NODE word are laid out as in a NODE_WR command word, so a word read from
the node memory can be written back unchanged. -/
def Obligations.NodeReadWritesBack : Prop :=
  ∀ (s : State) (idx : NodeIx) (n : Node), nodeAt s idx = some n →
    decode (0x1100000000000000#64 ||| (idx.setWidth 64 <<< 27) |||
        (readPort s (BitVec.ofNat 16 (0x0100 + idx.toNat)) &&& 0x0000000007FFFFFF#64)) =
      .ok (.nodeWr idx n.kind n.value n.left n.right)
end

