-- ==== Sys2Proof/Laws/Table.lean ====
section
/-! SUPPORT. The laws of indexed memories: read after write, what a write leaves alone, and that every
operation keeps the canonical form. -/

namespace Sys2Proof.Machine

variable {α : Type}

@[simp] theorem tblGet_nil (k : Nat) : tblGet ([] : Table α) k = none := rfl

theorem tblGet_cons (j : Nat) (a : α) (t : Table α) (k : Nat) :
    tblGet ((j, a) :: t) k = if j = k then some a else tblGet t k := rfl

/-- A read at the index just written gives the value written. -/
@[simp] theorem tblGet_tblSet_self (t : Table α) (k : Nat) (a : α) :
    tblGet (tblSet t k a) k = some a := by
  induction t with
  | nil => simp [tblSet, tblGet]
  | cons x t ih =>
    obtain ⟨j, b⟩ := x
    rcases lt_trichotomy k j with h | h | h
    · simp [tblSet, h, tblGet]
    · simp [tblSet, h, tblGet]
    · simp [tblSet, tblGet, ih, h.ne, h.ne', Nat.not_lt.2 h.le]

/-- A write leaves every other index as it was. -/
theorem tblGet_tblSet_ne (t : Table α) {k m : Nat} (a : α) (h : m ≠ k) :
    tblGet (tblSet t k a) m = tblGet t m := by
  induction t with
  | nil => simp [tblSet, tblGet, h.symm]
  | cons x t ih =>
    obtain ⟨j, b⟩ := x
    rcases lt_trichotomy k j with hk | hk | hk
    · simp [tblSet, hk, tblGet, h.symm]
    · subst hk; simp [tblSet, tblGet, h.symm]
    · simp [tblSet, tblGet, ih, hk.ne', Nat.not_lt.2 hk.le]

theorem tblGet_tblSet (t : Table α) (k m : Nat) (a : α) :
    tblGet (tblSet t k a) m = if m = k then some a else tblGet t m := by
  split
  · next h => subst h; simp
  · next h => exact tblGet_tblSet_ne t a h

theorem tblGet_tblMap (f : α → α) (t : Table α) (k : Nat) :
    tblGet (tblMap f t) k = (tblGet t k).map f := by
  induction t with
  | nil => rfl
  | cons x t ih =>
    obtain ⟨j, b⟩ := x
    by_cases h : j = k <;> simp [tblMap, tblGet, h, ih]

theorem tblGet_tblErase_ne (t : Table α) {k m : Nat} (h : m ≠ k) :
    tblGet (tblErase t k) m = tblGet t m := by
  induction t with
  | nil => rfl
  | cons x t ih =>
    obtain ⟨j, b⟩ := x
    by_cases hj : j = k
    · subst hj; simp [tblErase, tblGet, h.symm]
    · simp [tblErase, tblGet, hj, ih]

/-- Nothing below the first index of a rising list is listed. -/
theorem tblGet_of_rising {hi lo : Nat} {t : Table α} (h : tblRising hi lo t = true) {k : Nat}
    (hk : k < lo) : tblGet t k = none := by
  induction t generalizing lo with
  | nil => rfl
  | cons x t ih =>
    obtain ⟨j, b⟩ := x
    simp only [tblRising, Bool.and_eq_true, decide_eq_true_eq] at h
    have : j ≠ k := by omega
    simp [tblGet, this, ih h.2 (by omega)]

/-- Every listed index of a rising list is in range. -/
theorem lt_of_tblGet {hi lo : Nat} {t : Table α} (h : tblRising hi lo t = true) {k : Nat} {a : α}
    (hk : tblGet t k = some a) : k < hi := by
  induction t generalizing lo with
  | nil => simp at hk
  | cons x t ih =>
    obtain ⟨j, b⟩ := x
    simp only [tblRising, Bool.and_eq_true, decide_eq_true_eq] at h
    by_cases hj : j = k
    · omega
    · exact ih h.2 (by simpa [tblGet, hj] using hk)

theorem tblGet_tblErase_self {hi lo : Nat} {t : Table α} (h : tblRising hi lo t = true) (k : Nat) :
    tblGet (tblErase t k) k = none := by
  induction t generalizing lo with
  | nil => rfl
  | cons x t ih =>
    obtain ⟨j, b⟩ := x
    simp only [tblRising, Bool.and_eq_true, decide_eq_true_eq] at h
    by_cases hj : j = k
    · subst hj
      simpa [tblErase] using tblGet_of_rising h.2 (Nat.lt_succ_self j)
    · simp [tblErase, tblGet, hj, ih h.2]

theorem tblRising_mono {hi lo lo' : Nat} {t : Table α} (h : tblRising hi lo t = true)
    (hl : lo' ≤ lo) : tblRising hi lo' t = true := by
  cases t with
  | nil => rfl
  | cons x t =>
    obtain ⟨j, b⟩ := x
    simp only [tblRising, Bool.and_eq_true, decide_eq_true_eq] at h ⊢
    exact ⟨⟨by omega, h.1.2⟩, h.2⟩

theorem tblRising_tblSet {hi lo : Nat} {t : Table α} (h : tblRising hi lo t = true) {k : Nat}
    (hlo : lo ≤ k) (hhi : k < hi) (a : α) : tblRising hi lo (tblSet t k a) = true := by
  induction t generalizing lo with
  | nil => simp [tblSet, tblRising, hlo, hhi]
  | cons x t ih =>
    obtain ⟨j, b⟩ := x
    simp only [tblRising, Bool.and_eq_true, decide_eq_true_eq] at h
    rcases lt_trichotomy k j with hk | hk | hk
    · simp [tblSet, hk, tblRising, hlo, hhi, h.1.2, h.2]
    · subst hk; simp [tblSet, tblRising, h.1.1, h.1.2, h.2]
    · have hn : ¬ k < j := by omega
      simp [tblSet, hn, hk.ne', tblRising, h.1.1, h.1.2, ih h.2 hk]

theorem tblRising_tblErase {hi lo : Nat} {t : Table α} (h : tblRising hi lo t = true) (k : Nat) :
    tblRising hi lo (tblErase t k) = true := by
  induction t generalizing lo with
  | nil => rfl
  | cons x t ih =>
    obtain ⟨j, b⟩ := x
    simp only [tblRising, Bool.and_eq_true, decide_eq_true_eq] at h
    by_cases hj : j = k
    · simpa [tblErase, hj] using tblRising_mono h.2 (by omega)
    · simp [tblErase, hj, tblRising, h.1.1, h.1.2, ih h.2]

/-- A write in range keeps the canonical form. -/
theorem tblWf_tblSet {n : Nat} {t : Table α} (h : tblWf n t = true) {k : Nat} (hk : k < n) (a : α) :
    tblWf n (tblSet t k a) = true := tblRising_tblSet h (Nat.zero_le k) hk a

theorem tblWf_tblErase {n : Nat} {t : Table α} (h : tblWf n t = true) (k : Nat) :
    tblWf n (tblErase t k) = true := tblRising_tblErase h k

theorem tblRising_tblMap (f : α → α) (hi : Nat) : ∀ (lo : Nat) (t : Table α),
    tblRising hi lo (tblMap f t) = tblRising hi lo t
  | _, [] => rfl
  | _, (j, _) :: t => by simp [tblMap, tblRising, tblRising_tblMap f hi (j + 1) t]

@[simp] theorem tblWf_tblMap (n : Nat) (f : α → α) (t : Table α) :
    tblWf n (tblMap f t) = tblWf n t := tblRising_tblMap f n 0 t

@[simp] theorem tblWf_nil (n : Nat) : tblWf n ([] : Table α) = true := rfl

theorem noZeroEntry_tblErase {t : Table (BitVec 8)} (h : noZeroEntry t = true) (k : Nat) :
    noZeroEntry (tblErase t k) = true := by
  induction t with
  | nil => rfl
  | cons x t ih =>
    obtain ⟨j, b⟩ := x
    simp only [noZeroEntry, Bool.and_eq_true] at h
    by_cases hj : j = k <;> simp [tblErase, hj, noZeroEntry, h.1, h.2, ih h.2]

theorem noZeroEntry_tblSet {t : Table (BitVec 8)} (h : noZeroEntry t = true) (k : Nat)
    {a : BitVec 8} (ha : a ≠ 0#8) : noZeroEntry (tblSet t k a) = true := by
  induction t with
  | nil => simp [tblSet, noZeroEntry, ha]
  | cons x t ih =>
    obtain ⟨j, b⟩ := x
    simp only [noZeroEntry, Bool.and_eq_true] at h
    rcases lt_trichotomy k j with hk | hk | hk
    · simp only [tblSet, hk, if_true, noZeroEntry, Bool.and_eq_true]
      exact ⟨by simpa using ha, h.1, h.2⟩
    · subst hk
      simp only [tblSet, lt_irrefl, if_false, if_true, noZeroEntry, Bool.and_eq_true]
      exact ⟨by simpa using ha, h.2⟩
    · have hn : ¬ k < j := by omega
      simp only [tblSet, hn, hk.ne', if_false, noZeroEntry, Bool.and_eq_true]
      exact ⟨h.1, ih h.2⟩

theorem tblWf_setLen {t : Table (BitVec 8)} (h : tblWf Config.alphabet t = true) (v : Byte)
    (n : BitVec 8) : tblWf Config.alphabet (setLen t v n) = true := by
  unfold setLen
  split
  · exact tblWf_tblErase h _
  · exact tblWf_tblSet h v.isLt _

theorem noZeroEntry_setLen {t : Table (BitVec 8)} (h : noZeroEntry t = true) (v : Byte)
    (n : BitVec 8) : noZeroEntry (setLen t v n) = true := by
  unfold setLen
  split
  · exact noZeroEntry_tblErase h _
  · next hn => exact noZeroEntry_tblSet h _ hn

end Sys2Proof.Machine
end

