-- ==== Sys2Proof/Laws/State.lean ====
section
/-! SUPPORT. What each named update of State does to each field: one lemma per field per update. -/

namespace Sys2Proof.Machine

/-! setNode -/

@[simp] theorem setNode_err (s : State) (i : NodeIx) (n : Node) :
    (setNode s i n).err = s.err := rfl
@[simp] theorem setNode_mode (s : State) (i : NodeIx) (n : Node) :
    (setNode s i n).mode = s.mode := rfl
@[simp] theorem setNode_errCmd (s : State) (i : NodeIx) (n : Node) :
    (setNode s i n).errCmd = s.errCmd := rfl
@[simp] theorem setNode_hdrPad (s : State) (i : NodeIx) (n : Node) :
    (setNode s i n).hdrPad = s.hdrPad := rfl
@[simp] theorem setNode_hdrTbc (s : State) (i : NodeIx) (n : Node) :
    (setNode s i n).hdrTbc = s.hdrTbc := rfl
@[simp] theorem setNode_root (s : State) (i : NodeIx) (n : Node) :
    (setNode s i n).root = s.root := rfl
@[simp] theorem setNode_nodes (s : State) (i : NodeIx) (n : Node) :
    (setNode s i n).nodes = tblSet s.nodes i.toNat n := rfl
@[simp] theorem setNode_nextNode (s : State) (i : NodeIx) (n : Node) :
    (setNode s i n).nextNode = s.nextNode := rfl
@[simp] theorem setNode_codeLen (s : State) (i : NodeIx) (n : Node) :
    (setNode s i n).codeLen = s.codeLen := rfl
@[simp] theorem setNode_codeBits (s : State) (i : NodeIx) (n : Node) :
    (setNode s i n).codeBits = s.codeBits := rfl
@[simp] theorem setNode_acc (s : State) (i : NodeIx) (n : Node) :
    (setNode s i n).acc = s.acc := rfl
@[simp] theorem setNode_accCnt (s : State) (i : NodeIx) (n : Node) :
    (setNode s i n).accCnt = s.accCnt := rfl
@[simp] theorem setNode_cursor (s : State) (i : NodeIx) (n : Node) :
    (setNode s i n).cursor = s.cursor := rfl
@[simp] theorem setNode_bitsLeft (s : State) (i : NodeIx) (n : Node) :
    (setNode s i n).bitsLeft = s.bitsLeft := rfl
@[simp] theorem setNode_budget (s : State) (i : NodeIx) (n : Node) :
    (setNode s i n).budget = s.budget := rfl
@[simp] theorem setNode_escPending (s : State) (i : NodeIx) (n : Node) :
    (setNode s i n).escPending = s.escPending := rfl
@[simp] theorem setNode_stack (s : State) (i : NodeIx) (n : Node) :
    (setNode s i n).stack = s.stack := rfl
@[simp] theorem setNode_sp (s : State) (i : NodeIx) (n : Node) :
    (setNode s i n).sp = s.sp := rfl
@[simp] theorem setNode_params (s : State) (i : NodeIx) (n : Node) :
    (setNode s i n).params = s.params := rfl
@[simp] theorem setNode_out (s : State) (i : NodeIx) (n : Node) :
    (setNode s i n).out = s.out := rfl
@[simp] theorem setNode_readData (s : State) (i : NodeIx) (n : Node) :
    (setNode s i n).readData = s.readData := rfl
@[simp] theorem setNode_inputs (s : State) (i : NodeIx) (n : Node) :
    (setNode s i n).inputs = s.inputs := rfl
@[simp] theorem setNode_epoch (s : State) (i : NodeIx) (n : Node) :
    (setNode s i n).epoch = s.epoch := rfl

/-! clearValid -/

@[simp] theorem clearValid_err (s : State) :
    (clearValid s).err = s.err := rfl
@[simp] theorem clearValid_mode (s : State) :
    (clearValid s).mode = s.mode := rfl
@[simp] theorem clearValid_errCmd (s : State) :
    (clearValid s).errCmd = s.errCmd := rfl
@[simp] theorem clearValid_hdrPad (s : State) :
    (clearValid s).hdrPad = s.hdrPad := rfl
@[simp] theorem clearValid_hdrTbc (s : State) :
    (clearValid s).hdrTbc = s.hdrTbc := rfl
@[simp] theorem clearValid_root (s : State) :
    (clearValid s).root = s.root := rfl
@[simp] theorem clearValid_nodes (s : State) :
    (clearValid s).nodes = tblMap (fun n => { n with valid := false }) s.nodes := rfl
@[simp] theorem clearValid_nextNode (s : State) :
    (clearValid s).nextNode = s.nextNode := rfl
@[simp] theorem clearValid_codeLen (s : State) :
    (clearValid s).codeLen = s.codeLen := rfl
@[simp] theorem clearValid_codeBits (s : State) :
    (clearValid s).codeBits = s.codeBits := rfl
@[simp] theorem clearValid_acc (s : State) :
    (clearValid s).acc = s.acc := rfl
@[simp] theorem clearValid_accCnt (s : State) :
    (clearValid s).accCnt = s.accCnt := rfl
@[simp] theorem clearValid_cursor (s : State) :
    (clearValid s).cursor = s.cursor := rfl
@[simp] theorem clearValid_bitsLeft (s : State) :
    (clearValid s).bitsLeft = s.bitsLeft := rfl
@[simp] theorem clearValid_budget (s : State) :
    (clearValid s).budget = s.budget := rfl
@[simp] theorem clearValid_escPending (s : State) :
    (clearValid s).escPending = s.escPending := rfl
@[simp] theorem clearValid_stack (s : State) :
    (clearValid s).stack = s.stack := rfl
@[simp] theorem clearValid_sp (s : State) :
    (clearValid s).sp = s.sp := rfl
@[simp] theorem clearValid_params (s : State) :
    (clearValid s).params = s.params := rfl
@[simp] theorem clearValid_out (s : State) :
    (clearValid s).out = s.out := rfl
@[simp] theorem clearValid_readData (s : State) :
    (clearValid s).readData = s.readData := rfl
@[simp] theorem clearValid_inputs (s : State) :
    (clearValid s).inputs = s.inputs := rfl
@[simp] theorem clearValid_epoch (s : State) :
    (clearValid s).epoch = s.epoch := rfl

/-! clearTree -/

@[simp] theorem clearTree_err (s : State) :
    (clearTree s).err = s.err := rfl
@[simp] theorem clearTree_mode (s : State) :
    (clearTree s).mode = s.mode := rfl
@[simp] theorem clearTree_errCmd (s : State) :
    (clearTree s).errCmd = s.errCmd := rfl
@[simp] theorem clearTree_hdrPad (s : State) :
    (clearTree s).hdrPad = s.hdrPad := rfl
@[simp] theorem clearTree_hdrTbc (s : State) :
    (clearTree s).hdrTbc = s.hdrTbc := rfl
@[simp] theorem clearTree_root (s : State) :
    (clearTree s).root = Config.nil := rfl
@[simp] theorem clearTree_nodes (s : State) :
    (clearTree s).nodes = tblMap (fun n => { n with valid := false }) s.nodes := rfl
@[simp] theorem clearTree_nextNode (s : State) :
    (clearTree s).nextNode = 0#10 := rfl
@[simp] theorem clearTree_codeLen (s : State) :
    (clearTree s).codeLen = s.codeLen := rfl
@[simp] theorem clearTree_codeBits (s : State) :
    (clearTree s).codeBits = s.codeBits := rfl
@[simp] theorem clearTree_acc (s : State) :
    (clearTree s).acc = s.acc := rfl
@[simp] theorem clearTree_accCnt (s : State) :
    (clearTree s).accCnt = s.accCnt := rfl
@[simp] theorem clearTree_cursor (s : State) :
    (clearTree s).cursor = s.cursor := rfl
@[simp] theorem clearTree_bitsLeft (s : State) :
    (clearTree s).bitsLeft = s.bitsLeft := rfl
@[simp] theorem clearTree_budget (s : State) :
    (clearTree s).budget = s.budget := rfl
@[simp] theorem clearTree_escPending (s : State) :
    (clearTree s).escPending = s.escPending := rfl
@[simp] theorem clearTree_stack (s : State) :
    (clearTree s).stack = s.stack := rfl
@[simp] theorem clearTree_sp (s : State) :
    (clearTree s).sp = s.sp := rfl
@[simp] theorem clearTree_params (s : State) :
    (clearTree s).params = s.params := rfl
@[simp] theorem clearTree_out (s : State) :
    (clearTree s).out = s.out := rfl
@[simp] theorem clearTree_readData (s : State) :
    (clearTree s).readData = s.readData := rfl
@[simp] theorem clearTree_inputs (s : State) :
    (clearTree s).inputs = s.inputs := rfl
@[simp] theorem clearTree_epoch (s : State) :
    (clearTree s).epoch = s.epoch := rfl

/-! setSlot -/

@[simp] theorem setSlot_err (s : State) (k : Nat) (x : Slot) :
    (setSlot s k x).err = s.err := rfl
@[simp] theorem setSlot_mode (s : State) (k : Nat) (x : Slot) :
    (setSlot s k x).mode = s.mode := rfl
@[simp] theorem setSlot_errCmd (s : State) (k : Nat) (x : Slot) :
    (setSlot s k x).errCmd = s.errCmd := rfl
@[simp] theorem setSlot_hdrPad (s : State) (k : Nat) (x : Slot) :
    (setSlot s k x).hdrPad = s.hdrPad := rfl
@[simp] theorem setSlot_hdrTbc (s : State) (k : Nat) (x : Slot) :
    (setSlot s k x).hdrTbc = s.hdrTbc := rfl
@[simp] theorem setSlot_root (s : State) (k : Nat) (x : Slot) :
    (setSlot s k x).root = s.root := rfl
@[simp] theorem setSlot_nodes (s : State) (k : Nat) (x : Slot) :
    (setSlot s k x).nodes = s.nodes := rfl
@[simp] theorem setSlot_nextNode (s : State) (k : Nat) (x : Slot) :
    (setSlot s k x).nextNode = s.nextNode := rfl
@[simp] theorem setSlot_codeLen (s : State) (k : Nat) (x : Slot) :
    (setSlot s k x).codeLen = s.codeLen := rfl
@[simp] theorem setSlot_codeBits (s : State) (k : Nat) (x : Slot) :
    (setSlot s k x).codeBits = s.codeBits := rfl
@[simp] theorem setSlot_acc (s : State) (k : Nat) (x : Slot) :
    (setSlot s k x).acc = s.acc := rfl
@[simp] theorem setSlot_accCnt (s : State) (k : Nat) (x : Slot) :
    (setSlot s k x).accCnt = s.accCnt := rfl
@[simp] theorem setSlot_cursor (s : State) (k : Nat) (x : Slot) :
    (setSlot s k x).cursor = s.cursor := rfl
@[simp] theorem setSlot_bitsLeft (s : State) (k : Nat) (x : Slot) :
    (setSlot s k x).bitsLeft = s.bitsLeft := rfl
@[simp] theorem setSlot_budget (s : State) (k : Nat) (x : Slot) :
    (setSlot s k x).budget = s.budget := rfl
@[simp] theorem setSlot_escPending (s : State) (k : Nat) (x : Slot) :
    (setSlot s k x).escPending = s.escPending := rfl
@[simp] theorem setSlot_stack (s : State) (k : Nat) (x : Slot) :
    (setSlot s k x).stack = tblSet s.stack k x := rfl
@[simp] theorem setSlot_sp (s : State) (k : Nat) (x : Slot) :
    (setSlot s k x).sp = s.sp := rfl
@[simp] theorem setSlot_params (s : State) (k : Nat) (x : Slot) :
    (setSlot s k x).params = s.params := rfl
@[simp] theorem setSlot_out (s : State) (k : Nat) (x : Slot) :
    (setSlot s k x).out = s.out := rfl
@[simp] theorem setSlot_readData (s : State) (k : Nat) (x : Slot) :
    (setSlot s k x).readData = s.readData := rfl
@[simp] theorem setSlot_inputs (s : State) (k : Nat) (x : Slot) :
    (setSlot s k x).inputs = s.inputs := rfl
@[simp] theorem setSlot_epoch (s : State) (k : Nat) (x : Slot) :
    (setSlot s k x).epoch = s.epoch := rfl

/-! emit -/

@[simp] theorem emit_err (s : State) (bs : List Byte) :
    (emit s bs).err = s.err := rfl
@[simp] theorem emit_mode (s : State) (bs : List Byte) :
    (emit s bs).mode = s.mode := rfl
@[simp] theorem emit_errCmd (s : State) (bs : List Byte) :
    (emit s bs).errCmd = s.errCmd := rfl
@[simp] theorem emit_hdrPad (s : State) (bs : List Byte) :
    (emit s bs).hdrPad = s.hdrPad := rfl
@[simp] theorem emit_hdrTbc (s : State) (bs : List Byte) :
    (emit s bs).hdrTbc = s.hdrTbc := rfl
@[simp] theorem emit_root (s : State) (bs : List Byte) :
    (emit s bs).root = s.root := rfl
@[simp] theorem emit_nodes (s : State) (bs : List Byte) :
    (emit s bs).nodes = s.nodes := rfl
@[simp] theorem emit_nextNode (s : State) (bs : List Byte) :
    (emit s bs).nextNode = s.nextNode := rfl
@[simp] theorem emit_codeLen (s : State) (bs : List Byte) :
    (emit s bs).codeLen = s.codeLen := rfl
@[simp] theorem emit_codeBits (s : State) (bs : List Byte) :
    (emit s bs).codeBits = s.codeBits := rfl
@[simp] theorem emit_acc (s : State) (bs : List Byte) :
    (emit s bs).acc = s.acc := rfl
@[simp] theorem emit_accCnt (s : State) (bs : List Byte) :
    (emit s bs).accCnt = s.accCnt := rfl
@[simp] theorem emit_cursor (s : State) (bs : List Byte) :
    (emit s bs).cursor = s.cursor := rfl
@[simp] theorem emit_bitsLeft (s : State) (bs : List Byte) :
    (emit s bs).bitsLeft = s.bitsLeft := rfl
@[simp] theorem emit_budget (s : State) (bs : List Byte) :
    (emit s bs).budget = s.budget := rfl
@[simp] theorem emit_escPending (s : State) (bs : List Byte) :
    (emit s bs).escPending = s.escPending := rfl
@[simp] theorem emit_stack (s : State) (bs : List Byte) :
    (emit s bs).stack = s.stack := rfl
@[simp] theorem emit_sp (s : State) (bs : List Byte) :
    (emit s bs).sp = s.sp := rfl
@[simp] theorem emit_params (s : State) (bs : List Byte) :
    (emit s bs).params = s.params := rfl
@[simp] theorem emit_out (s : State) (bs : List Byte) :
    (emit s bs).out = s.out ++ bs := rfl
@[simp] theorem emit_readData (s : State) (bs : List Byte) :
    (emit s bs).readData = s.readData := rfl
@[simp] theorem emit_inputs (s : State) (bs : List Byte) :
    (emit s bs).inputs = s.inputs := rfl
@[simp] theorem emit_epoch (s : State) (bs : List Byte) :
    (emit s bs).epoch = s.epoch := rfl

/-! deserErrorEntry -/

@[simp] theorem deserErrorEntry_err (s : State) :
    (deserErrorEntry s).err = s.err := rfl
@[simp] theorem deserErrorEntry_mode (s : State) :
    (deserErrorEntry s).mode = s.mode := rfl
@[simp] theorem deserErrorEntry_errCmd (s : State) :
    (deserErrorEntry s).errCmd = s.errCmd := rfl
@[simp] theorem deserErrorEntry_hdrPad (s : State) :
    (deserErrorEntry s).hdrPad = s.hdrPad := rfl
@[simp] theorem deserErrorEntry_hdrTbc (s : State) :
    (deserErrorEntry s).hdrTbc = s.hdrTbc := rfl
@[simp] theorem deserErrorEntry_root (s : State) :
    (deserErrorEntry s).root = Config.nil := rfl
@[simp] theorem deserErrorEntry_nodes (s : State) :
    (deserErrorEntry s).nodes = tblMap (fun n => { n with valid := false }) s.nodes := rfl
@[simp] theorem deserErrorEntry_nextNode (s : State) :
    (deserErrorEntry s).nextNode = 0#10 := rfl
@[simp] theorem deserErrorEntry_codeLen (s : State) :
    (deserErrorEntry s).codeLen = s.codeLen := rfl
@[simp] theorem deserErrorEntry_codeBits (s : State) :
    (deserErrorEntry s).codeBits = s.codeBits := rfl
@[simp] theorem deserErrorEntry_acc (s : State) :
    (deserErrorEntry s).acc = s.acc := rfl
@[simp] theorem deserErrorEntry_accCnt (s : State) :
    (deserErrorEntry s).accCnt = s.accCnt := rfl
@[simp] theorem deserErrorEntry_cursor (s : State) :
    (deserErrorEntry s).cursor = s.cursor := rfl
@[simp] theorem deserErrorEntry_bitsLeft (s : State) :
    (deserErrorEntry s).bitsLeft = s.bitsLeft := rfl
@[simp] theorem deserErrorEntry_budget (s : State) :
    (deserErrorEntry s).budget = 0#13 := rfl
@[simp] theorem deserErrorEntry_escPending (s : State) :
    (deserErrorEntry s).escPending = false := rfl
@[simp] theorem deserErrorEntry_stack (s : State) :
    (deserErrorEntry s).stack = s.stack := rfl
@[simp] theorem deserErrorEntry_sp (s : State) :
    (deserErrorEntry s).sp = 0#10 := rfl
@[simp] theorem deserErrorEntry_params (s : State) :
    (deserErrorEntry s).params = s.params := rfl
@[simp] theorem deserErrorEntry_out (s : State) :
    (deserErrorEntry s).out = s.out := rfl
@[simp] theorem deserErrorEntry_readData (s : State) :
    (deserErrorEntry s).readData = s.readData := rfl
@[simp] theorem deserErrorEntry_inputs (s : State) :
    (deserErrorEntry s).inputs = s.inputs := rfl
@[simp] theorem deserErrorEntry_epoch (s : State) :
    (deserErrorEntry s).epoch = s.epoch := rfl

/-! errorReturn -/

@[simp] theorem errorReturn_err (s : State) :
    (errorReturn s).err = 0#8 := rfl
@[simp] theorem errorReturn_mode (s : State) :
    (errorReturn s).mode = s.mode := rfl
@[simp] theorem errorReturn_errCmd (s : State) :
    (errorReturn s).errCmd = 0#64 := rfl
@[simp] theorem errorReturn_hdrPad (s : State) :
    (errorReturn s).hdrPad = s.hdrPad := rfl
@[simp] theorem errorReturn_hdrTbc (s : State) :
    (errorReturn s).hdrTbc = s.hdrTbc := rfl
@[simp] theorem errorReturn_root (s : State) :
    (errorReturn s).root = s.root := rfl
@[simp] theorem errorReturn_nodes (s : State) :
    (errorReturn s).nodes = s.nodes := rfl
@[simp] theorem errorReturn_nextNode (s : State) :
    (errorReturn s).nextNode = s.nextNode := rfl
@[simp] theorem errorReturn_codeLen (s : State) :
    (errorReturn s).codeLen = s.codeLen := rfl
@[simp] theorem errorReturn_codeBits (s : State) :
    (errorReturn s).codeBits = s.codeBits := rfl
@[simp] theorem errorReturn_acc (s : State) :
    (errorReturn s).acc = s.acc := rfl
@[simp] theorem errorReturn_accCnt (s : State) :
    (errorReturn s).accCnt = s.accCnt := rfl
@[simp] theorem errorReturn_cursor (s : State) :
    (errorReturn s).cursor = s.cursor := rfl
@[simp] theorem errorReturn_bitsLeft (s : State) :
    (errorReturn s).bitsLeft = s.bitsLeft := rfl
@[simp] theorem errorReturn_budget (s : State) :
    (errorReturn s).budget = s.budget := rfl
@[simp] theorem errorReturn_escPending (s : State) :
    (errorReturn s).escPending = s.escPending := rfl
@[simp] theorem errorReturn_stack (s : State) :
    (errorReturn s).stack = s.stack := rfl
@[simp] theorem errorReturn_sp (s : State) :
    (errorReturn s).sp = s.sp := rfl
@[simp] theorem errorReturn_params (s : State) :
    (errorReturn s).params = s.params := rfl
@[simp] theorem errorReturn_out (s : State) :
    (errorReturn s).out = s.out := rfl
@[simp] theorem errorReturn_readData (s : State) :
    (errorReturn s).readData = s.readData := rfl
@[simp] theorem errorReturn_inputs (s : State) :
    (errorReturn s).inputs = s.inputs := rfl
@[simp] theorem errorReturn_epoch (s : State) :
    (errorReturn s).epoch = s.epoch := rfl

/-! takeInput -/

@[simp] theorem takeInput_err (s : State) (rest : List HostInput) :
    (takeInput s rest).err = s.err := rfl
@[simp] theorem takeInput_mode (s : State) (rest : List HostInput) :
    (takeInput s rest).mode = s.mode := rfl
@[simp] theorem takeInput_errCmd (s : State) (rest : List HostInput) :
    (takeInput s rest).errCmd = s.errCmd := rfl
@[simp] theorem takeInput_hdrPad (s : State) (rest : List HostInput) :
    (takeInput s rest).hdrPad = s.hdrPad := rfl
@[simp] theorem takeInput_hdrTbc (s : State) (rest : List HostInput) :
    (takeInput s rest).hdrTbc = s.hdrTbc := rfl
@[simp] theorem takeInput_root (s : State) (rest : List HostInput) :
    (takeInput s rest).root = s.root := rfl
@[simp] theorem takeInput_nodes (s : State) (rest : List HostInput) :
    (takeInput s rest).nodes = s.nodes := rfl
@[simp] theorem takeInput_nextNode (s : State) (rest : List HostInput) :
    (takeInput s rest).nextNode = s.nextNode := rfl
@[simp] theorem takeInput_codeLen (s : State) (rest : List HostInput) :
    (takeInput s rest).codeLen = s.codeLen := rfl
@[simp] theorem takeInput_codeBits (s : State) (rest : List HostInput) :
    (takeInput s rest).codeBits = s.codeBits := rfl
@[simp] theorem takeInput_acc (s : State) (rest : List HostInput) :
    (takeInput s rest).acc = s.acc := rfl
@[simp] theorem takeInput_accCnt (s : State) (rest : List HostInput) :
    (takeInput s rest).accCnt = s.accCnt := rfl
@[simp] theorem takeInput_cursor (s : State) (rest : List HostInput) :
    (takeInput s rest).cursor = s.cursor := rfl
@[simp] theorem takeInput_bitsLeft (s : State) (rest : List HostInput) :
    (takeInput s rest).bitsLeft = s.bitsLeft := rfl
@[simp] theorem takeInput_budget (s : State) (rest : List HostInput) :
    (takeInput s rest).budget = s.budget := rfl
@[simp] theorem takeInput_escPending (s : State) (rest : List HostInput) :
    (takeInput s rest).escPending = s.escPending := rfl
@[simp] theorem takeInput_stack (s : State) (rest : List HostInput) :
    (takeInput s rest).stack = s.stack := rfl
@[simp] theorem takeInput_sp (s : State) (rest : List HostInput) :
    (takeInput s rest).sp = s.sp := rfl
@[simp] theorem takeInput_params (s : State) (rest : List HostInput) :
    (takeInput s rest).params = s.params := rfl
@[simp] theorem takeInput_out (s : State) (rest : List HostInput) :
    (takeInput s rest).out = s.out := rfl
@[simp] theorem takeInput_readData (s : State) (rest : List HostInput) :
    (takeInput s rest).readData = s.readData := rfl
@[simp] theorem takeInput_inputs (s : State) (rest : List HostInput) :
    (takeInput s rest).inputs = rest := rfl
@[simp] theorem takeInput_epoch (s : State) (rest : List HostInput) :
    (takeInput s rest).epoch = s.epoch := rfl

/-! commandReset -/

@[simp] theorem commandReset_err (s : State) :
    (commandReset s).err = 0#8 := rfl
@[simp] theorem commandReset_mode (s : State) :
    (commandReset s).mode = .idle := rfl
@[simp] theorem commandReset_errCmd (s : State) :
    (commandReset s).errCmd = 0#64 := rfl
@[simp] theorem commandReset_hdrPad (s : State) :
    (commandReset s).hdrPad = 0#3 := rfl
@[simp] theorem commandReset_hdrTbc (s : State) :
    (commandReset s).hdrTbc = 0#13 := rfl
@[simp] theorem commandReset_root (s : State) :
    (commandReset s).root = Config.nil := rfl
@[simp] theorem commandReset_nodes (s : State) :
    (commandReset s).nodes = tblMap (fun n => { n with valid := false }) s.nodes := rfl
@[simp] theorem commandReset_nextNode (s : State) :
    (commandReset s).nextNode = 0#10 := rfl
@[simp] theorem commandReset_codeLen (s : State) :
    (commandReset s).codeLen = [] := rfl
@[simp] theorem commandReset_codeBits (s : State) :
    (commandReset s).codeBits = s.codeBits := rfl
@[simp] theorem commandReset_acc (s : State) :
    (commandReset s).acc = 0#8 := rfl
@[simp] theorem commandReset_accCnt (s : State) :
    (commandReset s).accCnt = 0#3 := rfl
@[simp] theorem commandReset_cursor (s : State) :
    (commandReset s).cursor = Config.nil := rfl
@[simp] theorem commandReset_bitsLeft (s : State) :
    (commandReset s).bitsLeft = 0#51 := rfl
@[simp] theorem commandReset_budget (s : State) :
    (commandReset s).budget = 0#13 := rfl
@[simp] theorem commandReset_escPending (s : State) :
    (commandReset s).escPending = false := rfl
@[simp] theorem commandReset_stack (s : State) :
    (commandReset s).stack = s.stack := rfl
@[simp] theorem commandReset_sp (s : State) :
    (commandReset s).sp = 0#10 := rfl
@[simp] theorem commandReset_params (s : State) :
    (commandReset s).params = s.params := rfl
@[simp] theorem commandReset_out (s : State) :
    (commandReset s).out = s.out := rfl
@[simp] theorem commandReset_readData (s : State) :
    (commandReset s).readData = s.readData := rfl
@[simp] theorem commandReset_inputs (s : State) :
    (commandReset s).inputs = s.inputs := rfl
@[simp] theorem commandReset_epoch (s : State) :
    (commandReset s).epoch = s.epoch := rfl

end Sys2Proof.Machine
end

