-- ==== Sys2Proof/Laws/Ops.lean ====
section
/-! SUPPORT. One lemma per shared operation: what it can do, said once, to be cited rather than
unfolded; and that each operation over the memories keeps their canonical form. -/

namespace Sys2Proof.Machine

/-! Memory reads through the accessors. -/

theorem nodeAt_nil (s : State) : nodeAt s Config.nil = none := rfl

theorem nodeAt_of_ne (s : State) {i : NodeIx} (h : i ≠ Config.nil) :
    nodeAt s i = some (nodeEntry s i.toNat) := by simp only [nodeAt, if_neg h]

/-- An index other than NIL names one of the 511 entries. -/
theorem toNat_lt_treeCap {i : NodeIx} (h : i ≠ Config.nil) : i.toNat < Config.treeCap := by
  have h1 : i.toNat < 512 := i.isLt
  have h2 : i.toNat ≠ 511 := fun e => h (BitVec.eq_of_toNat_eq e)
  show i.toNat < 511
  omega

theorem toNat_ne_of_ne {i j : NodeIx} (h : j ≠ i) : j.toNat ≠ i.toNat :=
  fun e => h (BitVec.eq_of_toNat_eq e)

/-- Reading a node entry after NODE[i] <- n. -/
theorem nodeEntry_setNode (s : State) (i : NodeIx) (n : Node) (k : Nat) :
    nodeEntry (setNode s i n) k = if k = i.toNat then n else nodeEntry s k := by
  unfold nodeEntry
  rw [setNode_nodes, setNode_epoch, tblGet_tblSet]
  by_cases h : k = i.toNat <;> simp only [h, if_true, if_false]

theorem nodeAt_setNode_self (s : State) {i : NodeIx} (h : i ≠ Config.nil) (n : Node) :
    nodeAt (setNode s i n) i = some n := by
  rw [nodeAt_of_ne _ h, nodeEntry_setNode, if_pos rfl]

theorem nodeAt_setNode_ne (s : State) {i j : NodeIx} (h : j ≠ i) (n : Node) :
    nodeAt (setNode s i n) j = nodeAt s j := by
  unfold nodeAt
  rw [nodeEntry_setNode, if_neg (toNat_ne_of_ne h)]

/-- Reading a node entry once every VALID is 0: the payload is as it was. -/
theorem nodeEntry_of_nodes_cleared {s t : State} (h : t.nodes = (clearValid s).nodes)
    (he : t.epoch = s.epoch) (k : Nat) :
    nodeEntry t k = { nodeEntry s k with valid := false } := by
  unfold nodeEntry
  rw [h, he, clearValid_nodes, tblGet_tblMap]
  cases tblGet s.nodes k <;> rfl

theorem nodeEntry_clearTree (s : State) (k : Nat) :
    nodeEntry (clearTree s) k = { nodeEntry s k with valid := false } :=
  nodeEntry_of_nodes_cleared rfl rfl k

/-- Node reads depend on the node memory and the free values only. -/
theorem nodeEntry_congr {s t : State} (h : t.nodes = s.nodes) (he : t.epoch = s.epoch) (k : Nat) :
    nodeEntry t k = nodeEntry s k := by unfold nodeEntry; rw [h, he]

theorem nodeAt_congr {s t : State} (h : t.nodes = s.nodes) (he : t.epoch = s.epoch) (i : NodeIx) :
    nodeAt t i = nodeAt s i := by unfold nodeAt; rw [nodeEntry_congr h he]

theorem slotAt_setSlot (s : State) (k m : Nat) (x : Slot) :
    slotAt (setSlot s k x) m = if m = k then x else slotAt s m := by
  unfold slotAt
  rw [setSlot_stack, setSlot_epoch, tblGet_tblSet]
  by_cases h : m = k <;> simp only [h, if_true, if_false]

/-- The tree check depends on ROOT, the node memory and the free values only. -/
theorem wfWalk_congr {s t : State} (h : t.nodes = s.nodes) (he : t.epoch = s.epoch) :
    ∀ (fuel : Nat) (todo seen : List NodeIx), wfWalk t fuel todo seen = wfWalk s fuel todo seen
  | _, [], _ => by simp [wfWalk]
  | 0, _ :: _, _ => rfl
  | fuel + 1, i :: todo, seen => by
    unfold wfWalk
    rw [nodeAt_congr h he]
    simp only [wfWalk_congr h he fuel]

theorem wfTree_congr {s t : State} (hr : t.root = s.root) (h : t.nodes = s.nodes)
    (he : t.epoch = s.epoch) : wfTree t = wfTree s := by
  unfold wfTree; rw [hr, wfWalk_congr h he]

/-! Error entry. -/

/-- What error entry writes in every mode (60_exceptions.md R312). -/
@[simp] theorem errorEntry_err (e : Err) (cw : Word) (d : Bool) (s : State) :
    (errorEntry e cw d s).err = errCode e := rfl

@[simp] theorem errorEntry_errCmd (e : Err) (cw : Word) (d : Bool) (s : State) :
    (errorEntry e cw d s).errCmd = cw := rfl

@[simp] theorem errorEntry_mode (e : Err) (cw : Word) (d : Bool) (s : State) :
    (errorEntry e cw d s).mode = .idle := rfl

/-- Error entry outside a deserialize session writes ERR, ERR_CMD and MODE only (R312, R314). -/
theorem errorEntry_of_not_deser {e : Err} {cw : Word} {d : Bool} {s : State}
    (hm : s.mode ≠ .deser) (hd : d = false) :
    errorEntry e cw d s = { s with err := errCode e, errCmd := cw, mode := .idle } := by
  simp [errorEntry, hm, hd]

/-- Error entry that ends a deserialize session clears the tree and the session too (R313). -/
theorem errorEntry_of_deser {e : Err} {cw : Word} {d : Bool} {s : State}
    (h : s.mode = .deser ∨ d = true) :
    errorEntry e cw d s =
      { deserErrorEntry s with err := errCode e, errCmd := cw, mode := .idle } := by
  simp only [errorEntry, if_pos h]

theorem errCode_ne_zero (e : Err) : errCode e ≠ 0#8 := by cases e <;> decide

theorem errCode_le (e : Err) : (errCode e).toNat ≤ 0x10 := by cases e <;> decide

theorem errCode_injective {a b : Err} (h : errCode a = errCode b) : a = b := by
  cases a <;> cases b <;> first | rfl | exact absurd h (by decide)

/-! Dispatch. -/

/-- Everything dispatch of a decoded command can do (R310). -/
theorem perform_cases {i : Instr} {body : State → Ending} {s t : State}
    (h : perform i body s = .next t) :
    (s.err ≠ 0#8 ∧ t = s) ∨
    (s.err = 0#8 ∧ accepts i s.mode = true ∧ body s = .done t) ∨
    (s.err = 0#8 ∧ accepts i s.mode = true ∧ ∃ e, body s = .raise e ∧ t = raiseIn i e s) ∨
    (s.err = 0#8 ∧ accepts i s.mode = false ∧ t = raiseIn i .sequence s) := by
  unfold perform at h
  split at h
  · next he => exact .inl ⟨he, by cases h; rfl⟩
  · next he =>
    replace he : s.err = 0#8 := not_not.1 he
    split at h
    · next ha =>
      split at h
      · next hb => cases h; exact .inr (.inl ⟨he, ha, hb⟩)
      · next e hb => cases h; exact .inr (.inr (.inl ⟨he, ha, e, hb, rfl⟩))
      · cases h
    · next ha => cases h; exact .inr (.inr (.inr ⟨he, by simpa using ha, rfl⟩))

theorem perform_discard {i : Instr} {body : State → Ending} {s : State} (h : s.err ≠ 0#8) :
    perform i body s = .next s := by simp only [perform, if_pos h]

theorem perform_done {i : Instr} {body : State → Ending} {s t : State} (he : s.err = 0#8)
    (ha : accepts i s.mode = true) (hb : body s = .done t) : perform i body s = .next t := by
  simp [perform, he, ha, hb]

theorem perform_raise {i : Instr} {body : State → Ending} {s : State} {e : Err} (he : s.err = 0#8)
    (ha : accepts i s.mode = true) (hb : body s = .raise e) :
    perform i body s = .next (raiseIn i e s) := by
  simp [perform, he, ha, hb]

theorem perform_sequence {i : Instr} {body : State → Ending} {s : State} (he : s.err = 0#8)
    (ha : accepts i s.mode = false) : perform i body s = .next (raiseIn i .sequence s) := by
  simp [perform, he, ha]

/-- No dispatch is refused. -/
theorem perform_ne_refused (i : Instr) (body : State → Ending) (s : State) (r : Refusal) :
    perform i body s ≠ .refused r := by
  unfold perform
  split
  · simp
  · split
    · split <;> simp
    · simp

/-- A fault of dispatch is a fault of the command's own rule. -/
theorem body_of_perform_fault {i : Instr} {body : State → Ending} {s : State} {f : Fault}
    (h : perform i body s = .fault f) :
    s.err = 0#8 ∧ accepts i s.mode = true ∧ body s = .stuck f := by
  unfold perform at h
  split at h
  · cases h
  · next he =>
    replace he : s.err = 0#8 := not_not.1 he
    split at h
    · next ha =>
      split at h
      · cases h
      · cases h
      · next f' hb => cases h; exact ⟨he, ha, hb⟩
    · cases h

/-! The canonical form of the memories. -/

theorem memoryWf_iff (s : State) : memoryWf s = true ↔
    tblWf Config.treeCap s.nodes = true ∧ tblWf Config.alphabet s.codeLen = true ∧
    noZeroEntry s.codeLen = true ∧ tblWf Config.alphabet s.codeBits = true ∧
    tblWf Config.stackCap s.stack = true := by
  simp only [memoryWf, Bool.and_eq_true, and_assoc]

theorem memoryWf_reset : memoryWf State.reset = true := by decide

theorem memoryWf_setNode {s : State} (h : memoryWf s = true) {i : NodeIx} (hi : i ≠ Config.nil)
    (n : Node) : memoryWf (setNode s i n) = true := by
  rw [memoryWf_iff] at h ⊢
  exact ⟨tblWf_tblSet h.1 (toNat_lt_treeCap hi) n, h.2⟩

theorem memoryWf_clearTree {s : State} (h : memoryWf s = true) : memoryWf (clearTree s) = true := by
  rw [memoryWf_iff] at h ⊢
  exact ⟨(tblWf_tblMap _ _ _).trans h.1, h.2⟩

theorem memoryWf_setSlot {s : State} (h : memoryWf s = true) {k : Nat} (hk : k < Config.stackCap)
    (x : Slot) : memoryWf (setSlot s k x) = true := by
  rw [memoryWf_iff] at h ⊢
  exact ⟨h.1, h.2.1, h.2.2.1, h.2.2.2.1, tblWf_tblSet h.2.2.2.2 hk x⟩

theorem memoryWf_errorEntry {s : State} (h : memoryWf s = true) (e : Err) (cw : Word) (d : Bool) :
    memoryWf (errorEntry e cw d s) = true := by
  by_cases hd : s.mode = .deser ∨ d = true
  · rw [errorEntry_of_deser hd]; exact memoryWf_clearTree h
  · rw [not_or] at hd
    rw [errorEntry_of_not_deser hd.1 (by simpa using hd.2)]; exact h

theorem memoryWf_commandReset {s : State} (h : memoryWf s = true) :
    memoryWf (commandReset s) = true := by
  rw [memoryWf_iff] at h ⊢
  exact ⟨(tblWf_tblMap _ _ _).trans h.1, rfl, rfl, h.2.2.2⟩

theorem memoryWf_hardwareReset (s : State) : memoryWf (hardwareReset s) = true := rfl

end Sys2Proof.Machine
end

