-- ==== Sys2Proof/Laws/CodeTable.lean ====
section
/-! SUPPORT. The laws of code-table generation (40_tree_memory.md R125): the tables made from a list of
codes keep the canonical form, and every CODE_BITS entry of the result is written. -/

namespace Sys2Proof.Machine

theorem foldl_setLen_wf (codes : List (Byte × List Bool)) :
    ∀ t : Table (BitVec 8), tblWf Config.alphabet t = true → noZeroEntry t = true →
      tblWf Config.alphabet
          (codes.foldl (fun t c => setLen t c.1 (BitVec.ofNat 8 c.2.length)) t) = true ∧
        noZeroEntry (codes.foldl (fun t c => setLen t c.1 (BitVec.ofNat 8 c.2.length)) t) = true := by
  induction codes with
  | nil => exact fun t h1 h2 => ⟨h1, h2⟩
  | cons c cs ih => exact fun t h1 h2 => ih _ (tblWf_setLen h1 _ _) (noZeroEntry_setLen h2 _ _)

theorem lengthsOf_wf (codes : List (Byte × List Bool)) :
    tblWf Config.alphabet (lengthsOf codes) = true ∧ noZeroEntry (lengthsOf codes) = true :=
  foldl_setLen_wf codes [] rfl rfl

theorem foldl_tblSet_wf (codes : List (Byte × List Bool)) :
    ∀ t : Table (BitVec 256), tblWf Config.alphabet t = true →
      tblWf Config.alphabet (codes.foldl (fun t c => tblSet t c.1.toNat (pathBits c.2)) t) = true := by
  induction codes with
  | nil => exact fun t h => h
  | cons c cs ih => exact fun t h => ih _ (tblWf_tblSet h c.1.isLt _)

theorem zeroBits_wf : tblWf Config.alphabet zeroBits = true := by decide +kernel

theorem bitsOf_wf (codes : List (Byte × List Bool)) :
    tblWf Config.alphabet (bitsOf codes) = true := foldl_tblSet_wf codes _ zeroBits_wf

theorem memoryWf_codegen {s : State} (h : memoryWf s = true) (codes : List (Byte × List Bool)) :
    memoryWf { s with codeLen := lengthsOf codes, codeBits := bitsOf codes } = true := by
  rw [memoryWf_iff] at h ⊢
  exact ⟨h.1, (lengthsOf_wf codes).1, (lengthsOf_wf codes).2, bitsOf_wf codes, h.2.2.2.2⟩

/-- CODEGEN does not depend on the code table it replaces (R130, R131). -/
theorem leafCodes_congr {s t : State} (h : t.nodes = s.nodes) (he : t.epoch = s.epoch) :
    ∀ (fuel : Nat) (todo : List (NodeIx × List Bool)), leafCodes t fuel todo = leafCodes s fuel todo
  | _, [] => by simp [leafCodes]
  | 0, _ :: _ => rfl
  | fuel + 1, (i, path) :: todo => by
    unfold leafCodes
    simp only [nodeEntry_congr h he, leafCodes_congr h he fuel]

end Sys2Proof.Machine
end

