-- ==== Sys2Proof/Laws/HostRules.lean ====
section
/-! SUPPORT. The laws of a run's end (45_header_and_framing.md R276): bytes are kept exactly where the
STATUS word read at the end has ERR = 0, so nothing of a failed run is kept. -/

namespace Sys2Proof.Machine

/-- Everything `keptBytes` can answer. -/
theorem keptBytes_eq_some {status : Word} {bytes kept : List Byte} :
    keptBytes status bytes = some kept ↔ runSucceeded status = true ∧ kept = bytes := by
  unfold keptBytes
  split
  · next h => simp [h, eq_comm]
  · next h => simp [h]

/-- A failed compression run leaves no file. -/
theorem compressedFile_of_failed {s t : State} {status hdr : Word}
    (hr : runReads s t = [status, hdr]) (h : runSucceeded status = false) :
    compressedFile s t = none := by
  simp [compressedFile, keptBytes, hr, h]

/-- A compression run that succeeded leaves the file of HDR and of the bytes OUT received. -/
theorem compressedFile_of_succeeded {s t : State} {status hdr : Word}
    (hr : runReads s t = [status, hdr]) (h : runSucceeded status = true) :
    compressedFile s t = some (fileOf (hdr.extractLsb 15 0) (runBytes s t)) := by
  simp [compressedFile, keptBytes, hr, h]

/-- A failed decompression run leaves no bytes. -/
theorem decompressedBytes_of_failed {s t : State} {status : Word}
    (hr : runReads s t = [status]) (h : runSucceeded status = false) :
    decompressedBytes s t = none := by
  simp [decompressedBytes, keptBytes, hr, h]

/-- A decompression run that succeeded leaves the bytes OUT received. -/
theorem decompressedBytes_of_succeeded {s t : State} {status : Word}
    (hr : runReads s t = [status]) (h : runSucceeded status = true) :
    decompressedBytes s t = some (runBytes s t) := by
  simp [decompressedBytes, keptBytes, hr, h]

end Sys2Proof.Machine
end

