-- ==== Sys2Proof/Laws/PerInstr.lean ====
section
/-! SUPPORT. Statements made per command: the command word of each command matches its row of the opcode
map (30_encoding.md R98). -/

namespace Sys2Proof.Laws.MatchesRow

/-- The row of the opcode map that stands for the command: its place in the map. -/
def rowIndex : Instr → Nat
  | .nop => 0
  | .reset => 1
  | .errClr => 2
  | .treeClear => 3
  | .nodeWr _ _ _ _ _ => 4
  | .rootWr _ => 5
  | .codegen => 6
  | .ser => 7
  | .deserInit => 8
  | .deserByte _ => 9
  | .packInit => 10
  | .packByte _ => 11
  | .packFlush => 12
  | .hdrLoad _ _ => 13
  | .unpackInit _ => 14
  | .unpackByte _ => 15
  | .unpackEnd => 16

/-- The command's own row selects its word. -/
def Statement (i : Instr) : Prop :=
  ∃ r, rows[rowIndex i]? = some r ∧ r.selects (encode i) = true

theorem masked_wordB (opc b : Byte) :
    wordB opc b &&& 0xFFFFFFFFFFFFFF00#64 = wordB opc 0#8 := by
  apply BitVec.eq_of_getLsbD_eq
  intro i hi
  unfold wordB
  simp only [BitVec.getLsbD_and, BitVec.getLsbD_append]
  interval_cases i <;> simp

theorem masked_wordR (opc : Byte) (idx : NodeIx) :
    wordR opc idx &&& 0xFFFFFFFFFFFFFE00#64 = wordR opc 0#9 := by
  apply BitVec.eq_of_getLsbD_eq
  intro i hi
  unfold wordR
  simp only [BitVec.getLsbD_and, BitVec.getLsbD_append]
  interval_cases i <;> simp

theorem masked_wordH (opc x y : Byte) :
    wordH opc x y &&& 0xFFFFFFFFFFFF0000#64 = wordH opc 0#8 0#8 := by
  apply BitVec.eq_of_getLsbD_eq
  intro i hi
  unfold wordH
  simp only [BitVec.getLsbD_and, BitVec.getLsbD_append]
  interval_cases i <;> simp

theorem masked_wordL (opc : Byte) (n : BitVec 48) :
    wordL opc n &&& 0xFFFF000000000000#64 = wordL opc 0#48 := by
  apply BitVec.eq_of_getLsbD_eq
  intro i hi
  unfold wordL
  simp only [BitVec.getLsbD_and, BitVec.getLsbD_append]
  interval_cases i <;> simp

theorem masked_wordW (opc : Byte) (idx : NodeIx) (k : BitVec 1) (v : Byte) (l r : NodeIx) :
    wordW opc idx k v l r &&& 0xFFFFFFF000000000#64 = wordW opc 0#9 0#1 0#8 0#9 0#9 := by
  apply BitVec.eq_of_getLsbD_eq
  intro i hi
  unfold wordW
  simp only [BitVec.getLsbD_and, BitVec.getLsbD_append]
  interval_cases i <;> simp

theorem nop : Statement .nop := ⟨_, rfl, by decide⟩
theorem reset : Statement .reset := ⟨_, rfl, by decide⟩
theorem errClr : Statement .errClr := ⟨_, rfl, by decide⟩
theorem treeClear : Statement .treeClear := ⟨_, rfl, by decide⟩

theorem nodeWr (idx : NodeIx) (k : Kind) (v : Byte) (l r : NodeIx) :
    Statement (.nodeWr idx k v l r) :=
  ⟨_, rfl, by simp only [Row.selects, encode, masked_wordW]; decide⟩

theorem rootWr (idx : NodeIx) : Statement (.rootWr idx) :=
  ⟨_, rfl, by simp only [Row.selects, encode, masked_wordR]; decide⟩

theorem codegen : Statement .codegen := ⟨_, rfl, by decide⟩
theorem ser : Statement .ser := ⟨_, rfl, by decide⟩
theorem deserInit : Statement .deserInit := ⟨_, rfl, by decide⟩

theorem deserByte (b : Byte) : Statement (.deserByte b) :=
  ⟨_, rfl, by simp only [Row.selects, encode, masked_wordB]; decide⟩

theorem packInit : Statement .packInit := ⟨_, rfl, by decide⟩

theorem packByte (b : Byte) : Statement (.packByte b) :=
  ⟨_, rfl, by simp only [Row.selects, encode, masked_wordB]; decide⟩

theorem packFlush : Statement .packFlush := ⟨_, rfl, by decide⟩

theorem hdrLoad (hb0 hb1 : Byte) : Statement (.hdrLoad hb0 hb1) :=
  ⟨_, rfl, by simp only [Row.selects, encode, masked_wordH]; decide⟩

theorem unpackInit (len : BitVec 48) : Statement (.unpackInit len) :=
  ⟨_, rfl, by simp only [Row.selects, encode, masked_wordL]; decide⟩

theorem unpackByte (b : Byte) : Statement (.unpackByte b) :=
  ⟨_, rfl, by simp only [Row.selects, encode, masked_wordB]; decide⟩

theorem unpackEnd : Statement .unpackEnd := ⟨_, rfl, by decide⟩

end Sys2Proof.Laws.MatchesRow
end

