-- ==== Sys2Proof/Laws/Step.lean ====
section
/-! SUPPORT. What one step can do, said once (60_exceptions.md R310, 70_reset_and_hazards.md R340, R350). -/

namespace Sys2Proof.Machine

/-- Everything a step can do. -/
theorem step_cases {s t : State} (h : step s = .next t) :
    (s.inputs = [] ∧ t = s) ∨
    (∃ cw rest i, s.inputs = .command cw :: rest ∧ decode cw = .ok i ∧
      exec i (takeInput s rest) = .next t) ∨
    (∃ cw rest e, s.inputs = .command cw :: rest ∧ decode cw = .error e ∧
      performIllegal cw (takeInput s rest) = .next t) ∨
    (∃ a rest, s.inputs = .read a :: rest ∧ t = performRead a (takeInput s rest)) ∨
    (∃ ab rest, s.inputs = .hardwareReset ab :: rest ∧ t = hardwareReset (takeInput s rest)) := by
  unfold step serve at h
  split at h
  · next hi => exact .inl ⟨hi, by cases h; rfl⟩
  · next a rest hi =>
    cases a with
    | command cw =>
      change performWord cw (takeInput s rest) = .next t at h
      unfold performWord at h
      split at h
      · next i hd => exact .inr (.inl ⟨cw, rest, i, hi, hd, h⟩)
      · next e hd => exact .inr (.inr (.inl ⟨cw, rest, e, hi, hd, h⟩))
    | read a => cases h; exact .inr (.inr (.inr (.inl ⟨a, rest, hi, rfl⟩)))
    | hardwareReset ab => cases h; exact .inr (.inr (.inr (.inr ⟨ab, rest, hi, rfl⟩)))

/-- What dispatch of an illegal word can do (R310, R316, R321). -/
theorem performIllegal_cases {cw : Word} {s t : State} (h : performIllegal cw s = .next t) :
    (s.err ≠ 0#8 ∧ t = s) ∨ (s.err = 0#8 ∧ t = errorEntry .illegalCmd cw false s) := by
  unfold performIllegal at h
  split at h
  · next he => exact .inl ⟨he, by cases h; rfl⟩
  · next he => exact .inr ⟨not_not.1 he, by cases h; rfl⟩

/-- The step that withFetchWord prepares performs that word. -/
theorem step_withFetchWord (s : State) (nbits w : Nat) :
    step (s.withFetchWord nbits w) = performWord (BitVec.ofNat 64 w) s := rfl

end Sys2Proof.Machine
end

