-- ==== Sys2Proof/Tests/Slice0.lean ====
section
/-! SUPPORT. The model's own tests: ill-formed assembler lines, a word per command written out from the
encoding tables, single steps with the results that the rules' examples and 95_test_vectors.md give,
and for every obligation with hypotheses a state and operands that meet them. -/

namespace Sys2Proof.Tests

open Sys2Proof.Machine

/-! ### Helpers -/

/-- The state after a command; `none` where the command stops. -/
def after (i : Instr) (s : State) : Option State :=
  match exec i s with
  | .next t => some t
  | .fault _ => none
  | .refused _ => none

/-- The state after one step; `none` where the step stops. -/
def stepped (s : State) : Option State :=
  match step s with
  | .next t => some t
  | .fault _ => none
  | .refused _ => none

/-- A leaf as NODE_WR writes one with its children omitted. -/
def leaf (v : Byte) : Node := ⟨true, .leaf, v, Config.nil, Config.nil⟩

/-- An Internal node. -/
def int (l r : NodeIx) : Node := ⟨true, .internal, 0#8, l, r⟩

/-- The reset state with the "aaab" tree of 95_test_vectors.md: Internal(1, 2), Leaf 0x62, Leaf 0x61. -/
def aaab : State :=
  { State.reset with
    nodes := [(0, int 1#9 2#9), (1, leaf 0x62#8), (2, leaf 0x61#8)]
    root := 0#9 }

/-- The "aaab" tree with its code table: b is "0", a is "1". -/
def coded : State :=
  { aaab with codeLen := [(0x61, 1#8), (0x62, 1#8)], codeBits := [(0x61, 1#256), (0x62, 0#256)] }

/-- A pack session on `coded`. -/
def packing : State := { coded with mode := .pack }

/-- An unpack session on the "aaab" tree with 4 meaningful bits left. -/
def unpacking : State := { aaab with mode := .unpack, cursor := 0#9, bitsLeft := 4#51 }

/-- The reset state with a tree of one Leaf, 0x41, at node 510. -/
def single : State := { State.reset with nodes := [(510, leaf 0x41#8)], root := 510#9 }

/-- An unpack session on `single` with 8 meaningful bits left. -/
def unpackingSingle : State := { single with mode := .unpack, cursor := 510#9, bitsLeft := 8#51 }

/-- A deserialize session of `n` bytes, none of them given yet. -/
def deser (n : BitVec 13) : State :=
  { State.reset with
    hdrTbc := n, budget := n, mode := .deser, stack := [(0, ⟨Config.nil, 0#1⟩)], sp := 1#10 }

/-- A tree that is not well formed: an Internal root with no right child. -/
def broken : State :=
  { State.reset with nodes := [(0, int 1#9 Config.nil), (1, leaf 0x41#8)], root := 0#9 }

/-- `s` with this interaction waiting. -/
def facing (a : HostInput) (s : State) : State := { s with inputs := [a] }

/-! ### Well-formedness: one ill-formed line for each check -/

theorem test_line_without_operand_refused : assemble ⟨.packByte, []⟩ = none := by decide
theorem test_line_with_extra_operand_refused : assemble ⟨.ser, [0]⟩ = none := by decide
theorem test_line_byte_256_refused : assemble ⟨.deserByte, [256]⟩ = none := by decide
theorem test_line_header_byte_256_refused : assemble ⟨.hdrLoad, [0, 256]⟩ = none := by decide
theorem test_line_index_512_refused : assemble ⟨.rootWr, [512]⟩ = none := by decide
theorem test_line_node_index_512_refused : assemble ⟨.nodeWr, [512, 0, 0, 0, 0]⟩ = none := by decide
theorem test_line_kind_2_refused : assemble ⟨.nodeWr, [0, 2, 0, 0, 0]⟩ = none := by decide
theorem test_line_value_256_refused : assemble ⟨.nodeWr, [0, 0, 256, 0, 0]⟩ = none := by decide
theorem test_line_child_512_refused : assemble ⟨.nodeWr, [0, 1, 0, 0, 512]⟩ = none := by decide
theorem test_line_length_too_wide_refused : assemble ⟨.unpackInit, [2 ^ 48]⟩ = none := by decide
theorem test_line_short_internal_refused : assemble ⟨.nodeWr, [1, 1, 0x62]⟩ = none := by decide
theorem test_line_widest_operands_taken :
    (AsmLine.mk .nodeWr [511, 1, 255, 511, 511]).wellFormed = true ∧
      (AsmLine.mk .unpackInit [2 ^ 48 - 1]).wellFormed = true := by decide

/-- R104, R120: the leaf written with its children omitted. -/
theorem test_line_short_leaf :
    assembleWord ⟨.nodeWr, [1, 0, 0x62]⟩ = some 0x11000000098BFFFF#64 := by decide

/-! ### Decoding: each word from its format's table (R91 to R98) -/

theorem test_decode_nop : decode 0x0000000000000000#64 = .ok .nop := by decide
theorem test_decode_reset : decode 0x0100000000000000#64 = .ok .reset := by decide
theorem test_decode_errClr : decode 0x0200000000000000#64 = .ok .errClr := by decide
theorem test_decode_treeClear : decode 0x1000000000000000#64 = .ok .treeClear := by decide

/-- R94: OPC 0x11, IDX in 35:27, K in 26, VALUE in 25:18, LEFT in 17:9, RIGHT in 8:0. -/
theorem test_decode_nodeWr :
    decode 0b0001000100000000000000000000101010101110011001000000011100000101#64 =
      .ok (.nodeWr 0b101010101#9 .internal 0b10011001#8 0b000000011#9 0b100000101#9) := by decide

/-- R93: OPC 0x12, IDX_R in 8:0. -/
theorem test_decode_rootWr :
    decode 0b0001001000000000000000000000000000000000000000000000000110000001#64 =
      .ok (.rootWr 0b110000001#9) := by decide

theorem test_decode_codegen : decode 0x1300000000000000#64 = .ok .codegen := by decide
theorem test_decode_ser : decode 0x2000000000000000#64 = .ok .ser := by decide
theorem test_decode_deserInit : decode 0x2800000000000000#64 = .ok .deserInit := by decide

/-- R92: OPC 0x29, BYTE in 7:0. -/
theorem test_decode_deserByte :
    decode 0b0010100100000000000000000000000000000000000000000000000010110001#64 =
      .ok (.deserByte 0b10110001#8) := by decide

theorem test_decode_packInit : decode 0x3000000000000000#64 = .ok .packInit := by decide
theorem test_decode_packByte : decode 0x3100000000000061#64 = .ok (.packByte 0x61#8) := by decide
theorem test_decode_packFlush : decode 0x3200000000000000#64 = .ok .packFlush := by decide

/-- R95: OPC 0x38, HB0 in 15:8, HB1 in 7:0. -/
theorem test_decode_hdrLoad :
    decode 0b0011100000000000000000000000000000000000000000001000000000000011#64 =
      .ok (.hdrLoad 0b10000000#8 0b00000011#8) := by decide

/-- R96: OPC 0x40, LEN in 47:0. -/
theorem test_decode_unpackInit :
    decode 0x4000800000000006#64 = .ok (.unpackInit 0x800000000006#48) := by decide

theorem test_decode_unpackByte : decode 0x41000000000000E0#64 = .ok (.unpackByte 0xE0#8) := by decide
theorem test_decode_unpackEnd : decode 0x4200000000000000#64 = .ok .unpackEnd := by decide

/-- R100: an opcode the map does not have. -/
theorem test_decode_opcode_03 : decode 0x0300000000000000#64 = .error .unassignedOpcode := by decide

/-- R100: NODE_WR with reserved bit 36 set. -/
theorem test_decode_reserved_bit : decode 0x1100001000000000#64 = .error .reservedBit := by decide

/-- R70: the bytes of a command word on a byte-wide channel. -/
theorem test_wordBytes :
    wordBytes 0x3800000000008003#64 =
      [0x38#8, 0x00#8, 0x00#8, 0x00#8, 0x00#8, 0x00#8, 0x80#8, 0x03#8] := by decide

theorem test_decodeBytes_short : decodeBytes [0x00#8, 0x00#8] = .error .tooShort := by decide

/-- The host's question: a table row's word, decoded and fetched as the first command. -/
theorem test_table_word :
    decodeTableWord 64 0x3000000000000000 = some .packInit ∧
      (stepped (State.reset.withFetchWord 64 0x3000000000000000)).map (·.mode) = some .pack := by
  decide

/-! ### Single steps -/

/-- R290, in a session. -/
theorem test_nop : after .nop packing = some packing := by decide

/-- R291: the pending bits of a pack session are lost; OUT stays. -/
theorem test_reset :
    (after .reset { packing with accCnt := 3#3, acc := 7#8, out := [0x2A#8] }).map
      (fun t => (t.mode, t.accCnt, t.root, t.out)) =
    some (.idle, 0#3, Config.nil, [0x2A#8]) := by decide

/-- R291: accepted while an error is pending. -/
theorem test_reset_in_error :
    (after .reset { State.reset with err := 0x08#8 }).map (·.err) = some 0#8 := by decide

/-- R292's example. -/
theorem test_errClr :
    (after .errClr { State.reset with err := 0x05#8, errCmd := 0x3100000000000041#64 }).map
      (fun t => (t.err, t.errCmd)) = some (0#8, 0#64) := by decide

/-- R122: the payload of an entry stays. -/
theorem test_treeClear :
    (after .treeClear aaab).map (fun t => (t.root, nodeEntry t 1)) =
      some (Config.nil, { leaf 0x62#8 with valid := false }) := by decide

/-- R120's example, through the read port. -/
theorem test_nodeWr :
    (after (.nodeWr 1#9 .leaf 0x62#8 Config.nil Config.nil) State.reset).map
      (fun t => readPort t 0x0101#16) = some 0x00000000098BFFFF#64 := by decide

/-- R120: index NIL. -/
theorem test_nodeWr_nil :
    (after (.nodeWr 0x1FF#9 .leaf 0#8 0#9 0#9) State.reset).map (·.err) = some 0x03#8 := by decide

/-- R121's example. -/
theorem test_rootWr : (after (.rootWr 0#9) State.reset).map (·.root) = some 0#9 := by decide

/-- R125's example. -/
theorem test_codegen :
    (after .codegen aaab).map (fun t => (codeOf t 0x62#8, codeOf t 0x61#8, codeOf t 0x63#8)) =
      some ([false], [true], []) := by decide +kernel

/-- R324: a missing child. -/
theorem test_codegen_bad_tree : (after .codegen broken).map (·.err) = some 0x04#8 := by decide

/-- R152's example. -/
theorem test_ser :
    (after .ser aaab).map (fun t => (t.out, t.hdrTbc)) =
      some ([0x2A#8, 0x62#8, 0x61#8], 3#13) := by decide

/-- R150: a leaf holding the escape byte. -/
theorem test_ser_escape :
    (after .ser { State.reset with nodes := [(0, leaf 0x5C#8)], root := 0#9 }).map (·.out) =
      some [0x5C#8, 0x5C#8] := by decide

/-- R173's example. -/
theorem test_deserInit :
    (after .deserInit { State.reset with hdrTbc := 3#13 }).map
      (fun t => (t.mode, t.budget, t.sp, slotAt t 0, t.root)) =
    some (.deser, 3#13, 1#10, ⟨Config.nil, 0#1⟩, Config.nil) := by decide

/-- R175's example, the sentinel. -/
theorem test_deserByte_internal :
    (after (.deserByte 0x2A#8) (deser 3#13)).map (fun t => (t.root, t.sp, nodeAt t 0#9)) =
      some (0#9, 2#10, some (int Config.nil Config.nil)) := by decide

/-- R175: the literal after an escape completes a one-node tree, though it is the sentinel byte. -/
theorem test_deserByte_literal :
    (after (.deserByte 0x2A#8) { deser 1#13 with escPending := true }).map
      (fun t => (t.mode, t.root, nodeAt t 0#9)) =
    some (.idle, 0#9, some (leaf 0x2A#8)) := by decide

/-- R201's example. -/
theorem test_packInit :
    (after .packInit { State.reset with acc := 1#8, accCnt := 1#3 }).map
      (fun t => (t.mode, t.acc, t.accCnt)) = some (.pack, 0#8, 0#3) := by decide

/-- R203's example, its third byte. -/
theorem test_packByte :
    (after (.packByte 0x61#8) { packing with acc := 3#8, accCnt := 2#3 }).map
      (fun t => (t.acc, t.accCnt, t.out)) = some (0x07#8, 3#3, []) := by decide

/-- R203: a 255-bit code with 7 bits pending emits 32 bytes and leaves 6 bits. -/
theorem test_packByte_longest :
    (after (.packByte 0x61#8)
        { packing with codeLen := [(0x61, 255#8)], accCnt := 7#3, acc := 0x7F#8 }).map
      (fun t => (t.out.length, t.accCnt, t.out.head?)) = some (32, 6#3, some 0xFF#8) := by
  decide +kernel

/-- R207's example. -/
theorem test_packFlush :
    (after .packFlush { packing with acc := 0x0E#8, accCnt := 4#3 }).map
      (fun t => (t.out, t.hdrPad, t.accCnt, t.mode)) = some ([0xE0#8], 4#3, 0#3, .idle) := by decide

/-- R262's example. -/
theorem test_hdrLoad :
    (after (.hdrLoad 0x80#8 0x03#8) State.reset).map (fun t => (t.hdrPad, t.hdrTbc)) =
      some (4#3, 3#13) := by decide

/-- R232's example. -/
theorem test_unpackInit :
    (after (.unpackInit 6#48) { aaab with hdrTbc := 3#13, hdrPad := 4#3 }).map
      (fun t => (t.bitsLeft, t.cursor, t.mode)) = some (4#51, 0#9, .unpack) := by decide

/-- R236's example. -/
theorem test_unpackByte :
    (after (.unpackByte 0xE0#8) unpacking).map (fun t => (t.out, t.cursor, t.bitsLeft)) =
      some ([0x61#8, 0x61#8, 0x61#8, 0x62#8], 0#9, 0#51) := by decide

/-- R235: a meaningful 1 bit with a single-leaf tree; nothing is emitted. -/
theorem test_unpackByte_bad_path :
    (after (.unpackByte 0x01#8) unpackingSingle).map (fun t => (t.err, t.out)) =
      some (0x10#8, []) := by decide

/-- R240's example. -/
theorem test_unpackEnd :
    (after .unpackEnd { unpacking with bitsLeft := 0#51 }).map (·.mode) = some .idle := by decide

/-- R321, R313: an illegal word in a deserialize session leaves no tree. -/
theorem test_illegal_in_deser :
    (stepped (facing (.command 0x00000000000000FF#64) (deser 3#13))).map
      (fun t => (t.err, t.errCmd, t.mode, t.budget, t.sp)) =
    some (0x01#8, 0x00000000000000FF#64, .idle, 0#13, 0#10) := by decide

/-- R62: CONFIG of the default build. -/
theorem test_read_config :
    (stepped (facing (.read 0x0008#16) State.reset)).map (·.readData) =
      some [0x0000000001FF5C2A#64] := by decide

/-- R340: reset leaves OUT; an abandoned command leaves nothing. -/
theorem test_hardware_reset :
    (stepped (facing (.hardwareReset (some (encode .ser))) { aaab with out := [1#8] })).map
      (fun t => (t.out, t.root, nodeAt t 0#9 |>.map (·.valid))) =
    some ([1#8], Config.nil, some false) := by decide

/-- R62, R63 where the ranges meet: entry 510, then the address entry NIL would have; the last code
bits word and the one after it; the last stack entry and the one after it. -/
theorem test_read_boundaries :
    readPort single 0x02FE#16 = 0x000000000907FFFF#64 ∧ readPort single 0x02FF#16 = 0#64 ∧
      readPort { coded with codeBits := [(255, 1#256 <<< 192)] } 0x0BFF#16 = 1#64 ∧
      readPort coded 0x0C00#16 = 0#64 ∧
      readPort { coded with stack := [(511, ⟨3#9, 1#1⟩)] } 0x21FF#16 = 0x203#64 ∧
      readPort coded 0x2200#16 = 0#64 ∧ readPort coded 0x0009#16 = 0#64 := by decide

/-! ### Host rules -/

/-- L1.1: the frequencies a 5, b 2, c 2, d 9. -/
theorem test_queue_tie_break :
    ([HTree.leaf 0x61#8 5, .leaf 0x62#8 2, .leaf 0x63#8 2, .leaf 0x64#8 9].foldl queueInsert []) =
      [.leaf 0x63#8 2, .leaf 0x62#8 2, .leaf 0x61#8 5, .leaf 0x64#8 9] := by decide

/-- 90_conflicts.md C1: b is the left child of the "aaab" tree. -/
theorem test_tree_of_aaab :
    buildTree [0x61#8, 0x61#8, 0x61#8, 0x62#8] =
      some (.internal 4 (.leaf 0x62#8 1) (.leaf 0x61#8 3)) := by decide +kernel

/-- L1.7: the file of "aaab" from its header and OUT. -/
theorem test_file_of_aaab :
    fileOf 0x8003#16 [0x2A#8, 0x62#8, 0x61#8, 0xE0#8] =
      [0x80#8, 0x03#8, 0x2A#8, 0x62#8, 0x61#8, 0xE0#8] := by decide

/-- R276: the file of a run that ended with STATUS = 0, over an OUT that held an older byte. -/
theorem test_run_kept :
    compressedFile { State.reset with out := [0xFF#8] }
        { State.reset with
          out := [0xFF#8, 0x2A#8, 0x62#8, 0x61#8, 0xE0#8], readData := [0#64, 0x8003#64] } =
      some [0x80#8, 0x03#8, 0x2A#8, 0x62#8, 0x61#8, 0xE0#8] := by decide

/-- R276: a run that ended with ERR = NO_CODE leaves no file, though SER's bytes are on OUT. -/
theorem test_run_discarded :
    compressedFile State.reset
        { State.reset with
          out := [0x2A#8, 0x62#8, 0x61#8], readData := [0x05#64, 0x0003#64] } = none ∧
      decompressedBytes State.reset
        { State.reset with out := [0x61#8], readData := [0x10#64] } = none := by decide

/-- R272, V4: a file with no header starts no sequence. -/
theorem test_file_too_short : decompressCommands [0x80#8] = none := by decide

/-! ### Witnesses: for each obligation with hypotheses, states and operands that meet them -/

theorem witness_DecodeOfEncode :
    (Instr.nodeWr 511#9 .internal 255#8 511#9 511#9).wellFormed = true := rfl

theorem witness_EncodeOfDecode :
    decode 0x1100000FFFFFFFFF#64 = .ok (.nodeWr 511#9 .internal 255#8 511#9 511#9) := by decide

theorem witness_WordBytesBigEndian : decode 0x40000000000000FF#64 = .ok (.unpackInit 255#48) := by
  decide

theorem witness_StepPerformsDecodedCommand :
    (facing (.command 0x2000000000000000#64) aaab).inputs = [.command 0x2000000000000000#64] ∧
      decode 0x2000000000000000#64 = .ok .ser ∧ Instr.ser.wellFormed = true := by decide

theorem witness_ReadsHaveNoSideEffect :
    (facing (.read 0xFFFF#16) aaab).inputs = [.read 0xFFFF#16] ∧ State.reset.inputs = [] := by decide

theorem witness_HardwareResetResult :
    (facing (.hardwareReset none) (deser 1#13)).inputs = [.hardwareReset none] := rfl

theorem witness_PendingErrorDiscards :
    ({ State.reset with err := 0x10#8, inputs := [.command 0x0300000000000000#64] } : State).err ≠ 0#8 ∧
      decode 0x0300000000000000#64 ≠ .ok .errClr ∧ decode 0x0300000000000000#64 ≠ .ok .reset := by
  decide

theorem witness_IllegalWordRaises :
    (facing (.command 0x0000000000000001#64) (deser 1#13)).err = 0#8 ∧
      decode 0x0000000000000001#64 = .error .reservedBit ∧ (deser 1#13).mode = .deser := by decide

theorem witness_IllegalWordRaises_no_session :
    (facing (.command 0xFF00000000000000#64) packing).err = 0#8 ∧
      decode 0xFF00000000000000#64 = .error .unassignedOpcode ∧ packing.mode ≠ .deser := by decide

theorem witness_WrongModeRaisesSequence :
    (deser 1#13).err = 0#8 ∧ accepts (.unpackInit 2#48) (deser 1#13).mode = false := by decide

theorem witness_WrongModeRaisesSequence_stray_byte :
    aaab.err = 0#8 ∧ accepts (.deserByte 0#8) aaab.mode = false := by decide

theorem witness_WrongModeRaisesSequence_no_deser :
    packing.err = 0#8 ∧ accepts .ser packing.mode = false ∧ opcode .ser ≠ 0x29#8 ∧
      packing.mode ≠ .deser := by decide

theorem witness_SequenceExactlyOutsideTheModes :
    State.reset.err = 0#8 ∧ (after .unpackEnd State.reset).map (·.err) = some 0x02#8 ∧
      (after .treeClear State.reset).map (·.err) = some 0#8 := by decide

theorem witness_ErrorsArePrecise :
    ∃ t, (facing (.command 0x3100000000000041#64) packing).err = 0#8 ∧
      step (facing (.command 0x3100000000000041#64) packing) = .next t ∧ t.err ≠ 0#8 ∧
      ¬ (packing.mode = .deser ∨ ∃ b, decode 0x3100000000000041#64 = .ok (.deserByte b)) :=
  ⟨_, rfl, rfl, by decide, by decide +kernel⟩

theorem witness_ErrorsArePrecise_session :
    ∃ t, (facing (.command 0x0300000000000000#64) (deser 3#13)).err = 0#8 ∧
      step (facing (.command 0x0300000000000000#64) (deser 3#13)) = .next t ∧ t.err ≠ 0#8 ∧
      (deser 3#13).mode = .deser := ⟨_, rfl, rfl, by decide, rfl⟩

theorem witness_TreeClearResult : aaab.err = 0#8 ∧ aaab.mode = .idle := by decide

theorem witness_NodeWrResult :
    State.reset.err = 0#8 ∧ State.reset.mode = .idle ∧ 510#9 ≠ Config.nil ∧ 511#9 = Config.nil := by
  decide

theorem witness_RootWrCompletes : State.reset.err = 0#8 ∧ State.reset.mode = .idle := by decide

theorem witness_TreeBounds : wfTree aaab = true ∧ aaab.root ≠ Config.nil := by decide

theorem witness_CodegenResult_internal :
    aaab.err = 0#8 ∧ aaab.mode = .idle ∧ wfTree aaab = true ∧
      nodeAt aaab aaab.root = some (int 1#9 2#9) ∧ leafPath aaab [true] 0x61#8 :=
  ⟨rfl, rfl, by decide, by decide, 2#9, leaf 0x61#8, by decide, by decide, rfl, rfl⟩

theorem aaab_leafPath {p : List Bool} {v : Byte} (h : leafPath aaab p v) : v = 0x62#8 ∨ v = 0x61#8 := by
  obtain ⟨i, n, hf, hn, hk, rfl⟩ := h
  match p, hf with
  | [], hf => cases hf; cases hn; cases hk
  | false :: [], hf => cases hf; cases hn; exact .inl rfl
  | true :: [], hf => cases hf; cases hn; exact .inr rfl
  | false :: _ :: _, hf => cases hf
  | true :: _ :: _, hf => cases hf

theorem witness_CodegenResult_no_leaf : ¬ ∃ p, leafPath aaab p 0x00#8 :=
  fun ⟨_, h⟩ => (aaab_leafPath h).elim (by decide) (by decide)

theorem witness_CodegenResult_single :
    single.err = 0#8 ∧ single.mode = .idle ∧ wfTree single = true ∧
      nodeAt single single.root = some (leaf 0x41#8) := by decide

theorem witness_CodegenResult_empty :
    State.reset.err = 0#8 ∧ State.reset.mode = .idle ∧ wfTree State.reset = true ∧
      State.reset.root = Config.nil := by decide

theorem witness_BadTreeRaised :
    broken.err = 0#8 ∧ broken.mode = .idle ∧ wfTree broken = false ∧
      ∀ i ∈ [Instr.codegen, .ser, .unpackInit 0#48], opcode i ∈ [0x13#8, 0x20#8, 0x40#8] := by decide

theorem codegen_single : ∃ t, exec .codegen single = .next t ∧ t.err = 0#8 ∧ t.root = 510#9 ∧
    codeLenAt t 0x41#8 ≠ 0#8 := ⟨_, rfl, rfl, rfl, by decide +kernel⟩

theorem codegen_aaab : ∃ t, exec .codegen aaab = .next t ∧ t.err = 0#8 ∧
    codeLenAt t 0x61#8 ≠ 0#8 ∧ codeLenAt t 0x62#8 ≠ 0#8 :=
  ⟨_, rfl, rfl, by decide +kernel, by decide +kernel⟩

theorem witness_CodegenIdempotent :
    ∃ t t', exec .codegen aaab = .next t ∧ t.err = 0#8 ∧
      exec .codegen { aaab with hdrPad := 7#3 } = .next t' ∧ t'.err = 0#8 ∧
      ∀ i, nodeAt { aaab with hdrPad := 7#3 } i = nodeAt aaab i :=
  ⟨_, _, rfl, rfl, rfl, rfl, fun _ => rfl⟩

theorem witness_CodesPrefixFree :
    ∃ t, exec .codegen aaab = .next t ∧ t.err = 0#8 ∧ codeLenAt t 0x61#8 ≠ 0#8 ∧
      0x61#8 ≠ 0x62#8 ∧ codeLenAt t 0x62#8 ≠ 0#8 :=
  have ⟨t, h, he, ha, hb⟩ := codegen_aaab
  ⟨t, h, he, ha, by decide, hb⟩

theorem witness_SerResult :
    aaab.err = 0#8 ∧ aaab.mode = .idle ∧ wfTree aaab = true ∧ (serBytes aaab).length = 3 := by decide

theorem witness_SerialFormPreorder :
    wfTree aaab = true ∧ aaab.root ≠ Config.nil ∧ wfTree State.reset = true ∧
      State.reset.root = Config.nil := by decide

theorem witness_DeserInitResult :
    State.reset.err = 0#8 ∧ State.reset.mode = .idle ∧ State.reset.hdrTbc = 0#13 ∧
      ({ aaab with hdrTbc := 8191#13 } : State).mode = .idle ∧
      ({ aaab with hdrTbc := 8191#13 } : State).hdrTbc ≠ 0#13 := by decide

theorem witness_DeserByteEscape :
    (deser 2#13).err = 0#8 ∧ (deser 2#13).mode = .deser ∧ (deser 2#13).escPending = false ∧
      2 ≤ (deser 2#13).budget.toNat := by decide

/-- The last byte of a session, a literal. -/
theorem witness_DeserByteLeaf_last :
    let s : State := { deser 1#13 with escPending := true }
    s.err = 0#8 ∧ s.mode = .deser ∧ s.escPending = true ∧ s.nextNode.toNat < 511 ∧
      (slotAt s (s.sp.toNat - 1)).parent ≠ s.nextNode.setWidth 9 ∧
      s.sp.toNat = 1 ∧ s.budget.toNat = 1 := by decide

/-- The last node there is room for, with the stack full. -/
theorem witness_DeserByteLeaf_more :
    let s : State := { deser 2#13 with
      nextNode := 510#10, sp := 512#10, stack := [(511, ⟨0#9, 0#1⟩)] }
    s.err = 0#8 ∧ s.mode = .deser ∧ (0x41#8 ≠ s.params.escapeByte ∧ 0x41#8 ≠ s.params.sentinelByte) ∧
      s.nextNode.toNat < 511 ∧ s.sp.toNat ≤ 512 ∧
      (slotAt s (s.sp.toNat - 1)).parent ≠ s.nextNode.setWidth 9 ∧
      2 ≤ s.sp.toNat ∧ 2 ≤ s.budget.toNat := by decide

theorem witness_DeserByteInternal :
    let s : State := { deser 2#13 with
      nextNode := 510#10, sp := 511#10, stack := [(510, ⟨0#9, 1#1⟩)] }
    s.err = 0#8 ∧ s.mode = .deser ∧ s.escPending = false ∧ s.nextNode.toNat < 511 ∧
      1 ≤ s.sp.toNat ∧ s.sp.toNat ≤ 511 ∧ 2 ≤ s.budget.toNat ∧
      (slotAt s (s.sp.toNat - 1)).parent ≠ s.nextNode.setWidth 9 := by decide

theorem witness_DeserByteErrors_escape :
    (deser 1#13).err = 0#8 ∧ (deser 1#13).mode = .deser ∧ (deser 1#13).escPending = false ∧
      0x5C#8 = (deser 1#13).params.escapeByte ∧ (deser 1#13).budget = 1#13 := by decide

theorem witness_DeserByteErrors_capacity :
    let s : State := { deser 1#13 with nextNode := 511#10 }
    s.err = 0#8 ∧ s.mode = .deser ∧ s.budget ≠ 0#13 ∧ 0x41#8 ≠ s.params.escapeByte ∧
      s.nextNode = 511#10 := by decide

theorem witness_DeserByteErrors_overrun :
    let s : State := { deser 2#13 with nextNode := 510#10 }
    s.err = 0#8 ∧ s.mode = .deser ∧ s.budget ≠ 0#13 ∧ 0x41#8 ≠ s.params.escapeByte ∧
      s.nextNode.toNat < 511 ∧ 0x41#8 ≠ s.params.sentinelByte ∧ s.sp = 1#10 ∧ s.budget ≠ 1#13 := by
  decide

theorem witness_DeserByteErrors_truncated :
    let s : State := { deser 1#13 with sp := 512#10 }
    s.err = 0#8 ∧ s.mode = .deser ∧ s.budget ≠ 0#13 ∧ 0x41#8 ≠ s.params.escapeByte ∧
      0x41#8 ≠ s.params.sentinelByte ∧ s.nextNode.toNat < 511 ∧ s.sp.toNat ≤ 512 ∧ s.sp ≠ 1#10 ∧
      s.budget = 1#13 := by decide

theorem witness_DeserByteErrors_truncated_internal :
    let s : State := { deser 1#13 with sp := 511#10 }
    s.err = 0#8 ∧ s.mode = .deser ∧ s.budget ≠ 0#13 ∧ s.escPending = false ∧
      0x2A#8 = s.params.sentinelByte ∧ 0x2A#8 ≠ s.params.escapeByte ∧ s.nextNode.toNat < 511 ∧
      1 ≤ s.sp.toNat ∧ s.sp.toNat ≤ 511 ∧ s.budget = 1#13 := by decide

/-- One tree byte with a NOP and a read before it, over an older tree. -/
theorem witness_DeserializedTreeWellFormed :
    let s : State := { aaab with hdrTbc := 1#13 }
    let ins := [issue .nop, .read 0#16, issue (.deserByte 0x41#8)]
    ∃ t : State, s.err = 0#8 ∧ s.mode = .idle ∧
      (∀ a ∈ ins, (∃ addr, a = .read addr) ∨ a = issue .nop ∨ ∃ b, a = issue (.deserByte b)) ∧
      Host.Core.run core (ins.length + 1) { s with inputs := issue .deserInit :: ins } = .next t ∧
      t.err = 0#8 ∧ t.mode = .idle ∧ s.hdrTbc ≠ 0#13 :=
  ⟨_, rfl, rfl, by
    intro a ha
    simp only [List.mem_cons, List.not_mem_nil, or_false] at ha
    obtain rfl | rfl | rfl := ha
    · exact .inr (.inl rfl)
    · exact .inl ⟨_, rfl⟩
    · exact .inr (.inr ⟨_, rfl⟩), rfl, rfl, rfl, by decide⟩

theorem witness_DeserializedTreeWellFormed_empty :
    ∃ t : State, Host.Core.run core 1 { aaab with inputs := [issue .deserInit] } = .next t ∧
      t.err = 0#8 ∧ t.mode = .idle ∧ aaab.hdrTbc = 0#13 := ⟨_, rfl, rfl, rfl, rfl⟩

theorem witness_SerDeserRoundTrip :
    ∃ s', exec .ser aaab = .next s' ∧ s'.err = 0#8 ∧
      s'.out = aaab.out ++ [0x2A#8, 0x62#8, 0x61#8] ∧ aaab.root ≠ Config.nil :=
  ⟨_, rfl, rfl, rfl, by decide⟩

theorem witness_PackInitCompletes : coded.err = 0#8 ∧ coded.mode = .idle := by decide

theorem witness_PackByteAppendsCode :
    packing.err = 0#8 ∧ packing.mode = .pack ∧ codeLenAt packing 0x61#8 ≠ 0#8 ∧
      codeLenAt packing 0x63#8 = 0#8 := by decide

theorem witness_PackFlushResult :
    ({ packing with accCnt := 7#3 } : State).err = 0#8 ∧ packing.mode = .pack := by decide

theorem witness_HdrLoadResult : State.reset.err = 0#8 ∧ State.reset.mode = .idle := by decide

/-- BAD_SIZE in its two cases: one byte short of the header and tree, and padding with no payload. -/
theorem witness_UnpackInitResult_bad_size :
    let s : State := { aaab with hdrTbc := 3#13, hdrPad := 1#3 }
    s.err = 0#8 ∧ s.mode = .idle ∧ wfTree s = true ∧ (4#48).toNat < s.hdrTbc.toNat + 2 ∧
      ((5#48).toNat - s.hdrTbc.toNat - 2) * 8 < s.hdrPad.toNat := by decide

theorem witness_UnpackInitResult_no_tree :
    let s : State := State.reset
    s.err = 0#8 ∧ s.mode = .idle ∧ wfTree s = true ∧ s.hdrTbc.toNat + 2 ≤ (3#48).toNat ∧
      s.root = Config.nil ∧ s.hdrPad.toNat < ((3#48).toNat - s.hdrTbc.toNat - 2) * 8 := by decide

theorem witness_UnpackInitResult_opens :
    let s : State := { aaab with hdrTbc := 8191#13, hdrPad := 7#3 }
    s.err = 0#8 ∧ s.mode = .idle ∧ wfTree s = true ∧
      s.hdrTbc.toNat + 2 ≤ (0xFFFFFFFFFFFF#48).toNat ∧
      s.hdrPad.toNat ≤ ((0xFFFFFFFFFFFF#48).toNat - s.hdrTbc.toNat - 2) * 8 ∧
      s.root ≠ Config.nil := by decide

theorem witness_UnpackInitResult_empty :
    let s : State := State.reset
    s.err = 0#8 ∧ s.mode = .idle ∧ wfTree s = true ∧ s.hdrTbc.toNat + 2 ≤ (2#48).toNat ∧
      s.hdrPad.toNat = ((2#48).toNat - s.hdrTbc.toNat - 2) * 8 := by decide

theorem witness_UnpackByteDecodes :
    unpacking.err = 0#8 ∧ unpacking.mode = .unpack ∧ unpacking.bitsLeft ≠ 0#51 ∧
      wfTree unpacking = true ∧ nodeAt unpacking unpacking.root = some (int 1#9 2#9) ∧
      CursorOk unpacking :=
  ⟨rfl, rfl, by decide, by decide, by decide, .inl rfl⟩

theorem witness_UnpackByteSingleLeaf :
    unpackingSingle.err = 0#8 ∧ unpackingSingle.mode = .unpack ∧ unpackingSingle.bitsLeft ≠ 0#51 ∧
      nodeAt unpackingSingle unpackingSingle.root = some (leaf 0x41#8) ∧
      (∀ j < min 8 unpackingSingle.bitsLeft.toNat, (0#8).getLsbD (7 - j) = false) ∧
      ∃ j < min 8 unpackingSingle.bitsLeft.toNat, (1#8).getLsbD (7 - j) = true := by decide

theorem witness_PaddingIgnored_overrun :
    ({ unpacking with bitsLeft := 0#51 } : State).err = 0#8 ∧ unpacking.mode = .unpack := by decide

theorem witness_PaddingIgnored :
    ∃ t, unpacking.err = 0#8 ∧ unpacking.mode = .unpack ∧ unpacking.bitsLeft ≠ 0#51 ∧
      (∀ j < min 8 unpacking.bitsLeft.toNat, (0xE0#8).getLsbD (7 - j) = (0xEF#8).getLsbD (7 - j)) ∧
      exec (.unpackByte 0xE0#8) unpacking = .next t ∧ t.err = 0#8 :=
  ⟨_, rfl, rfl, by decide, by decide, rfl, rfl⟩

theorem witness_UnpackEndResult :
    unpacking.err = 0#8 ∧ unpacking.mode = .unpack ∧ unpacking.bitsLeft ≠ 0#51 ∧
      ({ unpacking with bitsLeft := 0#51 } : State).cursor = unpacking.root ∧
      ({ unpacking with bitsLeft := 0#51, cursor := 1#9 } : State).cursor ≠ unpacking.root := by decide

theorem witness_CodesUnpackToSource :
    ∃ t, exec .codegen single = .next t ∧ t.err = 0#8 ∧
      ∀ v ∈ [0x41#8, 0x41#8], codeLenAt t v ≠ 0#8 :=
  have ⟨t, h, he, _, hl⟩ := codegen_single
  ⟨t, h, he, by intro v hv; simp only [List.mem_cons, List.not_mem_nil, or_false, or_self] at hv
                exact hv ▸ hl⟩

theorem witness_EmissionBounds : ∃ t, exec .ser aaab = .next t ∧ t.err = 0#8 := ⟨_, rfl, rfl⟩

theorem witness_EmissionBounds_error : ∃ t, exec .ser broken = .next t ∧ t.err ≠ 0#8 :=
  ⟨_, rfl, by decide⟩

theorem witness_EmissionBounds_step : ∃ t, step (facing (.command (encode .ser)) aaab) = .next t :=
  ⟨_, rfl⟩

theorem witness_CommandWrites :
    ∃ t, exec .packFlush packing = .next t ∧ opcode .packFlush ≠ 0x01#8 ∧ t.mode ≠ packing.mode :=
  ⟨_, rfl, by decide, by decide⟩

theorem witness_OpenSessionIsolated :
    ∃ t, exec (.packByte 0x61#8) packing = .next t ∧ packing.mode ≠ .idle ∧ t.mode = packing.mode :=
  ⟨_, rfl, by decide, rfl⟩

theorem witness_OpenSessionIsolated_closed :
    ∃ t, exec .packFlush packing = .next t ∧ packing.mode ≠ .idle ∧ t.mode ≠ packing.mode :=
  ⟨_, rfl, by decide, by decide⟩

theorem witness_StepKeepsMemoryForm :
    ∃ t, memoryWf coded = true ∧ step (facing (.command (encode .treeClear)) coded) = .next t :=
  ⟨_, by decide, rfl⟩

theorem witness_StepKeepsStatusAndPacker :
    ∃ t, step (facing (.command (encode (.packByte 0x61#8))) packing) = .next t ∧
      StatusOk (facing (.command (encode (.packByte 0x61#8))) packing) ∧
      PackOk (facing (.command (encode (.packByte 0x61#8))) packing) :=
  ⟨_, rfl, ⟨by decide, fun h => absurd rfl h, fun _ => rfl⟩, by unfold PackOk; decide⟩

theorem deser_ok : DeserOk (deser 3#13) :=
  ⟨by decide, fun _ => ⟨by decide, by decide, by decide, by decide⟩, fun h => absurd rfl h⟩

theorem witness_StepKeepsDeserializer :
    ∃ t, DeserOk (facing (.command (encode (.deserByte 0x2A#8))) (deser 3#13)) ∧
      step (facing (.command (encode (.deserByte 0x2A#8))) (deser 3#13)) = .next t :=
  ⟨_, deser_ok, rfl⟩

theorem codeOk_of_no_codes {s : State} (h : s.codeLen = []) : CodeOk s :=
  fun v hv => absurd (by unfold codeLenAt; rw [h]; rfl) hv

theorem witness_StepKeepsCodeTable :
    ∃ t, CodeOk (facing (.command (encode .codegen)) aaab) ∧
      step (facing (.command (encode .codegen)) aaab) = .next t :=
  ⟨_, codeOk_of_no_codes rfl, rfl⟩

theorem witness_StepKeepsUnpacker :
    ∃ t, UnpackOk (facing (.command (encode (.unpackByte 0xE0#8))) unpacking) ∧
      step (facing (.command (encode (.unpackByte 0xE0#8))) unpacking) = .next t :=
  ⟨_, fun _ => ⟨by decide, fun _ => by decide, .inl rfl⟩, rfl⟩

/-- A state in a deserialize session that meets every invariant, whatever the host does next. -/
theorem deser_consistent (ins : List HostInput) : Consistent { deser 3#13 with inputs := ins } :=
  ⟨rfl, ⟨by show 0 ≤ 0x10; decide, fun h => absurd rfl h, fun _ => rfl⟩, by show 0 < 2 ^ 0; decide,
    deser_ok, codeOk_of_no_codes rfl, fun h => nomatch h⟩

theorem witness_StepNeverStops :
    Consistent (facing (.command (encode (.deserByte 0x2A#8))) (deser 3#13)) := deser_consistent _

theorem witness_FreeValuesUnread :
    ∃ t, Consistent (deser 3#13) ∧ exec (.deserByte 0x2A#8) (deser 3#13) = .next t :=
  ⟨_, deser_consistent [], rfl⟩

theorem witness_NodeReadWritesBack :
    nodeAt single 510#9 = some (leaf 0x41#8) ∧ nodeAt aaab 0#9 = some (int 1#9 2#9) := by decide

end Sys2Proof.Tests
end

section
/-! PROOFS. What a command that completes can do, said once as a relation, and the rule by which a
predicate is shown to be kept by every step. -/

namespace Sys2Proof.Machine

/-! ### What a completed command does -/

/-- The command's own rule (00_scope.md R11). RESET and ERR_CLR have no check of their own. -/
def ownRule : Instr → State → Ending
  | .nop, s => .done s
  | .reset, s => .done (commandReset s)
  | .errClr, s => .done (errorReturn s)
  | .treeClear, s => .done (clearTree s)
  | .nodeWr idx k v l r, s => nodeWrBody idx k v l r s
  | .rootWr idx, s => .done { s with root := idx }
  | .codegen, s => codegenBody s
  | .ser, s => serBody s
  | .deserInit, s => deserInitBody s
  | .deserByte b, s => deserByteBody b s
  | .packInit, s => .done { s with acc := 0#8, accCnt := 0#3, mode := .pack }
  | .packByte b, s => packByteBody b s
  | .packFlush, s => packFlushBody s
  | .hdrLoad hb0 hb1, s => .done { s with hdrPad := padOfHeader hb0, hdrTbc := tbcOfHeader hb0 hb1 }
  | .unpackInit len, s => unpackInitBody len s
  | .unpackByte b, s => unpackByteBody b s
  | .unpackEnd, s => unpackEndBody s

/-- Every command but RESET and ERR_CLR goes through dispatch to its own rule (60_exceptions.md R310). -/
theorem exec_eq_perform {i : Instr} (hr : i ≠ .reset) (hc : i ≠ .errClr) (s : State) :
    exec i s = perform i (ownRule i) s := by
  cases i with
  | reset => exact absurd rfl hr
  | errClr => exact absurd rfl hc
  | _ => rfl

/-- `attach` writes ROOT and the node memory only. -/
theorem attach_eq (slot : Slot) (n : NodeIx) (s : State) :
    attach slot n s =
      { s with root := (attach slot n s).root, nodes := (attach slot n s).nodes } := by
  unfold attach
  split
  · rfl
  · dsimp only; split <;> rfl

/-- The state in which DESER_BYTE has placed `node` in the position on top of the stack and taken the
token's byte from the budget; the stack itself is still as it was (42_tree_deserializer.md R175). -/
def afterToken (node : Node) (s : State) : State :=
  let n : NodeIx := s.nextNode.setWidth 9
  let t := attach (slotAt s (s.sp.toNat - 1)) n (setNode s n node)
  { s with
    root := t.root
    nodes := t.nodes
    nextNode := s.nextNode + 1#10
    budget := s.budget - 1#13
    escPending := false }

/-- `Completes s i t`: the command `i` can complete in state `s`, and then leaves state `t`. -/
inductive Completes (s : State) : Instr → State → Prop
  | nop : Completes s .nop s
  | reset : Completes s .reset (commandReset s)
  | errClr : Completes s .errClr (errorReturn s)
  | treeClear : Completes s .treeClear (clearTree s)
  | nodeWr {idx : NodeIx} {k : Kind} {v : Byte} {l r : NodeIx} (hidx : idx ≠ Config.nil) :
      Completes s (.nodeWr idx k v l r)
        (setNode s idx { valid := true, kind := k, value := v, left := l, right := r })
  | rootWr {idx : NodeIx} : Completes s (.rootWr idx) { s with root := idx }
  | codegen (hwf : wfTree s = true) : Completes s .codegen
      { s with codeLen := lengthsOf (treeCodes s), codeBits := bitsOf (treeCodes s) }
  | ser (hwf : wfTree s = true) (hlen : (serBytes s).length ≤ Config.maxTreeBytes) :
      Completes s .ser
        { emit s (serBytes s) with hdrTbc := BitVec.ofNat 13 (serBytes s).length }
  | deserInitEmpty (htbc : s.hdrTbc = 0#13) : Completes s .deserInit
      { clearTree s with escPending := false, budget := s.hdrTbc, sp := 0#10 }
  | deserInit (htbc : s.hdrTbc ≠ 0#13) : Completes s .deserInit
      { setSlot (clearTree s) 0 { parent := Config.nil, side := 0#1 } with
        escPending := false, budget := s.hdrTbc, sp := 1#10, mode := .deser }
  | deserEscape {b : Byte} (hbudget : s.budget ≠ 0#13) (hleft : s.budget - 1#13 ≠ 0#13)
      (htok : tokenOf s.params s.escPending b = .escape) :
      Completes s (.deserByte b) { s with budget := s.budget - 1#13, escPending := true }
  | deserLeaf {b v : Byte} {m : Mode} (hbudget : s.budget ≠ 0#13)
      (htok : tokenOf s.params s.escPending b = .leaf v)
      (hnode : s.nextNode.toNat < Config.treeCap) (hsp : s.sp ≠ 0#10)
      (hcap : s.sp.toNat ≤ Config.stackCap)
      (hmode : m = s.mode ∨ m = .idle) :
      Completes s (.deserByte b)
        { afterToken (newLeaf v) s with sp := BitVec.ofNat 10 (s.sp.toNat - 1), mode := m }
  | deserInternal {b : Byte} {m : Mode} (hbudget : s.budget ≠ 0#13)
      (htok : tokenOf s.params s.escPending b = .internal)
      (hnode : s.nextNode.toNat < Config.treeCap) (hsp : s.sp ≠ 0#10)
      (hcap : s.sp.toNat < Config.stackCap)
      (hmode : m = s.mode ∨ m = .idle) :
      Completes s (.deserByte b)
        { openChildren (s.nextNode.setWidth 9) (s.sp.toNat - 1) (afterToken newInternal s) with
          sp := BitVec.ofNat 10 (s.sp.toNat - 1 + 2), mode := m }
  | packInit : Completes s .packInit { s with acc := 0#8, accCnt := 0#3, mode := .pack }
  | packByte {b : Byte} {r : Packed} (hlen : codeLenAt s b ≠ 0#8)
      (hr : r = packBits (codeOf s b) s.acc s.accCnt.toNat) :
      Completes s (.packByte b)
        { emit s r.emitted with acc := r.acc, accCnt := BitVec.ofNat 3 r.cnt }
  | packFlushNone (hcnt : s.accCnt = 0#3) : Completes s .packFlush
      { s with hdrPad := 0#3, acc := 0#8, accCnt := 0#3, mode := .idle }
  | packFlush (hcnt : s.accCnt ≠ 0#3) : Completes s .packFlush
      { emit s [flushByte s.acc s.accCnt.toNat] with
        hdrPad := BitVec.ofNat 3 (8 - s.accCnt.toNat), acc := 0#8, accCnt := 0#3, mode := .idle }
  | hdrLoad {hb0 hb1 : Byte} : Completes s (.hdrLoad hb0 hb1)
      { s with hdrPad := padOfHeader hb0, hdrTbc := tbcOfHeader hb0 hb1 }
  | unpackInit {len : BitVec 48} {n : Nat} (hwf : wfTree s = true)
      (hn : dataBits len.toNat s.hdrTbc.toNat s.hdrPad.toNat = some n)
      (hroot : 0 < n → s.root ≠ Config.nil) :
      Completes s (.unpackInit len)
        { s with bitsLeft := BitVec.ofNat 51 n, cursor := s.root, mode := .unpack }
  | unpackByte {b : Byte} {cur : NodeIx} {bs : List Byte} (hbits : s.bitsLeft ≠ 0#51)
      (hwalk : unpackBits s (payloadBits b (bitsTaken s)) s.cursor = .ok cur bs) :
      Completes s (.unpackByte b)
        { emit s bs with
          cursor := cur, bitsLeft := BitVec.ofNat 51 (s.bitsLeft.toNat - bitsTaken s) }
  | unpackEnd (hbits : s.bitsLeft = 0#51) (hcur : s.cursor = s.root) :
      Completes s .unpackEnd { s with mode := .idle }

/-- The end of DESER_BYTE changes MODE at most, and only to IDLE. -/
theorem finishToken_done {budget : BitVec 13} {s t : State} (h : finishToken budget s = .done t) :
    ∃ m, (m = s.mode ∨ m = .idle) ∧ t = { s with mode := m } := by
  unfold finishToken at h
  split_ifs at h
  · cases h; exact ⟨.idle, .inr rfl, rfl⟩
  · cases h; exact ⟨s.mode, .inl rfl, rfl⟩

/-- What placing a token takes, and what it leaves for the end of DESER_BYTE. -/
theorem placeToken_done {node : Node} {opens : Bool} {budget : BitVec 13} {s t : State}
    (h : placeToken node opens budget s = .done t) (hb : budget = s.budget - 1#13) :
    s.nextNode.toNat < Config.treeCap ∧ s.sp ≠ 0#10 ∧ s.sp.toNat ≤ Config.stackCap ∧
    ∃ m, (m = s.mode ∨ m = .idle) ∧
      ((opens = false ∧
          t = { afterToken node s with sp := BitVec.ofNat 10 (s.sp.toNat - 1), mode := m }) ∨
        (opens = true ∧ s.sp.toNat < Config.stackCap ∧
          t = { openChildren (s.nextNode.setWidth 9) (s.sp.toNat - 1) (afterToken node s) with
            sp := BitVec.ofNat 10 (s.sp.toNat - 1 + 2), mode := m })) := by
  subst hb
  unfold placeToken at h
  split at h
  · cases h
  next hn511 =>
  split at h
  · cases h
  next hncap =>
  split at h
  · cases h
  next hsp =>
  obtain ⟨hsp0, hspcap⟩ := not_or.1 hsp
  have hlt : s.nextNode.toNat < Config.treeCap :=
    lt_of_le_of_ne (not_lt.1 hncap) fun e => hn511 (BitVec.eq_of_toNat_eq e)
  have hpos : s.sp.toNat ≠ 0 := fun e => hsp0 (BitVec.eq_of_toNat_eq e)
  refine ⟨hlt, hsp0, not_lt.1 hspcap, ?_⟩
  dsimp only at h
  rw [attach_eq] at h
  split at h
  · next ho =>
    split at h
    · next hk =>
      obtain ⟨m, hm, rfl⟩ := finishToken_done h
      exact ⟨m, hm, .inr ⟨ho, by omega, rfl⟩⟩
    · cases h
  · next ho =>
    obtain ⟨m, hm, rfl⟩ := finishToken_done h
    exact ⟨m, hm, .inl ⟨by simpa using ho, rfl⟩⟩

theorem deserInitBody_done {s t : State} (h : deserInitBody s = .done t) :
    Completes s .deserInit t := by
  unfold deserInitBody at h
  dsimp only at h
  split at h
  · next htbc => cases h; exact .deserInitEmpty htbc
  · next htbc => cases h; exact .deserInit htbc

theorem deserByteBody_done {b : Byte} {s t : State} (h : deserByteBody b s = .done t) :
    Completes s (.deserByte b) t := by
  unfold deserByteBody at h
  split at h
  · cases h
  next hbudget =>
  dsimp only at h
  split at h
  · next htok =>
    split at h
    · cases h
    · next hleft => cases h; exact .deserEscape hbudget hleft htok
  · next v htok =>
    obtain ⟨hnode, hsp, hcap, m, hm, ⟨-, rfl⟩ | ⟨ho, -⟩⟩ := placeToken_done h rfl
    · exact .deserLeaf hbudget htok hnode hsp hcap hm
    · cases ho
  · next htok =>
    obtain ⟨hnode, hsp, -, m, hm, ⟨ho, -⟩ | ⟨-, hcap, rfl⟩⟩ := placeToken_done h rfl
    · cases ho
    · exact .deserInternal hbudget htok hnode hsp hcap hm

theorem packFlushBody_done {s t : State} (h : packFlushBody s = .done t) :
    Completes s .packFlush t := by
  unfold packFlushBody at h
  dsimp only at h
  split at h
  · next hcnt => cases h; exact .packFlushNone hcnt
  · next hcnt => cases h; exact .packFlush hcnt

theorem unpackInitBody_done {len : BitVec 48} {s t : State} (h : unpackInitBody len s = .done t) :
    Completes s (.unpackInit len) t := by
  unfold unpackInitBody at h
  split at h
  · next hwf =>
    split at h
    · cases h
    · next n hn =>
      split at h
      · cases h
      · next hroot => cases h; exact .unpackInit hwf hn fun hpos he => hroot ⟨hpos, he⟩
  · cases h

theorem unpackByteBody_done {b : Byte} {s t : State} (h : unpackByteBody b s = .done t) :
    Completes s (.unpackByte b) t := by
  unfold unpackByteBody at h
  split at h
  · cases h
  next hbits =>
  split at h
  · next hwalk => cases h; exact .unpackByte hbits hwalk
  · cases h
  · cases h

/-- Every command whose own rule ends without an error completes as `Completes` says. -/
theorem completes_of_ownRule {i : Instr} {s t : State} (h : ownRule i s = .done t) :
    Completes s i t := by
  cases i with
  | nop => cases h; exact .nop
  | reset => cases h; exact .reset
  | errClr => cases h; exact .errClr
  | treeClear => cases h; exact .treeClear
  | nodeWr idx k v l r =>
    simp only [ownRule, nodeWrBody] at h
    split at h
    · cases h
    · next hidx => cases h; exact .nodeWr hidx
  | rootWr idx => cases h; exact .rootWr
  | codegen =>
    simp only [ownRule, codegenBody] at h
    split at h
    · next hwf => cases h; exact .codegen hwf
    · cases h
  | ser =>
    simp only [ownRule, serBody] at h
    split at h
    · next hwf =>
      split at h
      · cases h
      · next hlen => cases h; exact .ser hwf (not_lt.1 hlen)
    · cases h
  | deserInit => exact deserInitBody_done h
  | deserByte b => exact deserByteBody_done h
  | packInit => cases h; exact .packInit
  | packByte b =>
    simp only [ownRule, packByteBody] at h
    split at h
    · cases h
    · next hlen => cases h; exact .packByte hlen rfl
  | packFlush => exact packFlushBody_done h
  | hdrLoad hb0 hb1 => cases h; exact .hdrLoad
  | unpackInit len => exact unpackInitBody_done h
  | unpackByte b => exact unpackByteBody_done h
  | unpackEnd =>
    simp only [ownRule, unpackEndBody] at h
    split at h
    · cases h
    next hbits =>
    split at h
    · cases h
    · next hcur => cases h; exact .unpackEnd (not_not.1 hbits) (not_not.1 hcur)

/-- Everything a command can do: it is discarded, it raises an error, or it completes (R310). Only
RESET and ERR_CLR complete while an error is pending (R316). -/
theorem exec_cases {i : Instr} {s t : State} (h : exec i s = .next t) :
    (s.err ≠ 0#8 ∧ t = s) ∨ (∃ e, t = raiseIn i e s) ∨
    ((s.err = 0#8 ∨ i = .reset ∨ i = .errClr) ∧ accepts i s.mode = true ∧ Completes s i t) := by
  by_cases hr : i = .reset
  · subst hr; cases h; exact .inr (.inr ⟨.inr (.inl rfl), rfl, .reset⟩)
  by_cases hc : i = .errClr
  · subst hc; cases h; exact .inr (.inr ⟨.inr (.inr rfl), rfl, .errClr⟩)
  rw [exec_eq_perform hr hc] at h
  obtain hdisc | ⟨he, ha, hdone⟩ | ⟨-, -, e, -, ht⟩ | ⟨-, -, ht⟩ := perform_cases h
  · exact .inl hdisc
  · exact .inr (.inr ⟨.inl he, ha, completes_of_ownRule hdone⟩)
  · exact .inr (.inl ⟨e, ht⟩)
  · exact .inr (.inl ⟨_, ht⟩)

/-- Error entry writes the status registers, the tree and the deserialize session's registers only
(R312 to R314). -/
theorem errorEntry_eq (e : Err) (cw : Word) (d : Bool) (s : State) :
    errorEntry e cw d s =
      { s with
        err := errCode e
        errCmd := cw
        mode := .idle
        root := (errorEntry e cw d s).root
        nodes := (errorEntry e cw d s).nodes
        nextNode := (errorEntry e cw d s).nextNode
        sp := (errorEntry e cw d s).sp
        budget := (errorEntry e cw d s).budget
        escPending := (errorEntry e cw d s).escPending } := by
  unfold errorEntry
  dsimp only
  split <;> rfl

/-! ### Predicates that every step keeps -/

/-- `P` is kept by each thing a step can do: the host's list and the read words are no part of it, a
hardware reset meets it anew, and errors and completed commands keep it. -/
structure KeptByParts (P : State → Prop) : Prop where
  takeInput : ∀ s rest, P s → P (takeInput s rest)
  performRead : ∀ s a, P s → P (performRead a s)
  hardwareReset : ∀ s, P (hardwareReset s)
  errorEntry : ∀ s e cw d, P s → P (errorEntry e cw d s)
  completes : ∀ s i t, P s → (s.err = 0#8 ∨ i = .reset ∨ i = .errClr) →
    accepts i s.mode = true → Completes s i t → P t

theorem KeptByParts.exec {P : State → Prop} (hP : KeptByParts P) {i : Instr} {s t : State}
    (hs : P s) (h : exec i s = .next t) : P t := by
  obtain ⟨-, rfl⟩ | ⟨e, rfl⟩ | ⟨hd, ha, hc⟩ := exec_cases h
  · exact hs
  · exact hP.errorEntry s e _ _ hs
  · exact hP.completes s i t hs hd ha hc

/-- A predicate that each part of a step keeps is kept by every step. -/
theorem KeptByParts.step {P : State → Prop} (hP : KeptByParts P) {s t : State}
    (hs : P s) (h : step s = .next t) : P t := by
  obtain ⟨-, rfl⟩ | ⟨cw, rest, i, -, -, hx⟩ | ⟨cw, rest, e, -, -, hx⟩ | ⟨a, rest, -, rfl⟩ |
    ⟨ab, rest, -, rfl⟩ := step_cases h
  · exact hs
  · exact hP.exec (hP.takeInput s rest hs) hx
  · obtain ⟨-, rfl⟩ | ⟨-, rfl⟩ := performIllegal_cases hx
    · exact hP.takeInput s rest hs
    · exact hP.errorEntry _ _ _ _ (hP.takeInput s rest hs)
  · exact hP.performRead _ a (hP.takeInput s rest hs)
  · exact hP.hardwareReset _

end Sys2Proof.Machine
end

section
/-! PROOFS. 10_state.md: the reset state, and the canonical form of the memories, the status registers
and the packer's accumulator under every step. -/

namespace Sys2Proof.Machine

/-! ### The reset state -/

theorem codeOk_of_codeLen_nil {s : State} (h : s.codeLen = []) : CodeOk s := by
  intro v hv
  exact absurd (by rw [codeLenAt, h]; rfl) hv

/-- The reset values meet every invariant, whatever OUT, the build parameters, the host's lists and the
count of resets are. -/
theorem consistent_resetValues (p : Config.Params) (out : List Byte) (words : List Word)
    (ins : List HostInput) (ep : Nat) :
    Consistent { State.reset with
      params := p, out := out, readData := words, inputs := ins, epoch := ep } := by
  refine ⟨rfl, ⟨Nat.zero_le _, fun h => absurd rfl h, fun _ => rfl⟩, Nat.zero_lt_one,
    ⟨Nat.zero_le _, fun h => ?_, fun _ => ⟨rfl, rfl, rfl⟩⟩, codeOk_of_codeLen_nil rfl, fun h => ?_⟩
  · cases h
  · cases h

theorem consistent_hardwareReset (s : State) : Consistent (hardwareReset s) :=
  consistent_resetValues s.params s.out s.readData s.inputs (s.epoch + 1)

/-- Settles O55: State.reset holds the reset values. -/
theorem resetMeetsInvariant : Obligations.ResetMeetsInvariant :=
  consistent_resetValues Config.defaultParams [] [] [] 0

/-- Settles O10: the step is the hardware reset of the state with the interaction taken. -/
theorem hardwareResetResult : Obligations.HardwareResetResult := by
  intro s ab rest hin
  have hhdr : packHeader 0#3 0#13 = 0x0000#16 := by decide
  exact ⟨hardwareReset (takeInput s rest), by rw [step, serve, hin]; rfl,
    rfl, rfl, rfl, rfl, rfl, rfl, rfl, rfl, rfl, rfl, rfl, rfl, rfl, rfl, fun _ => rfl,
    fun _ => rfl, hhdr, rfl, rfl, rfl, rfl, consistent_hardwareReset _⟩

/-! ### The canonical form of the memories -/

theorem memoryWf_attach {s : State} (h : memoryWf s = true) (slot : Slot) (n : NodeIx) :
    memoryWf (attach slot n s) = true := by
  unfold attach
  split
  · exact h
  · next hp =>
    dsimp only
    split
    · exact memoryWf_setNode h hp _
    · exact memoryWf_setNode h hp _

/-- NEXT_NODE below 511 is an index other than NIL. -/
theorem setWidth_ne_nil {n : BitVec 10} (h : n.toNat < Config.treeCap) :
    (n.setWidth 9 : NodeIx) ≠ Config.nil := by
  intro e
  have he := congrArg BitVec.toNat e
  rw [BitVec.toNat_setWidth, Nat.mod_eq_of_lt (Nat.lt_succ_of_lt h)] at he
  exact absurd he (Nat.ne_of_lt h)

theorem memoryWf_afterToken {s : State} (h : memoryWf s = true)
    (hn : s.nextNode.toNat < Config.treeCap) (node : Node) : memoryWf (afterToken node s) = true := by
  have ha := memoryWf_attach (memoryWf_setNode h (setWidth_ne_nil hn) node)
    (slotAt s (s.sp.toNat - 1)) (s.nextNode.setWidth 9)
  rw [attach_eq] at ha
  exact ha

theorem memoryWf_openChildren {s : State} (h : memoryWf s = true) (n : NodeIx) {k : Nat}
    (hk : k + 1 < Config.stackCap) : memoryWf (openChildren n k s) = true :=
  memoryWf_setSlot (memoryWf_setSlot h (Nat.lt_of_succ_lt hk) _) hk _

theorem memoryWf_completes {s t : State} {i : Instr} (h : memoryWf s = true)
    (hc : Completes s i t) : memoryWf t = true := by
  cases hc with
  | reset => exact memoryWf_commandReset h
  | treeClear => exact memoryWf_clearTree h
  | nodeWr hidx => exact memoryWf_setNode h hidx _
  | codegen => exact memoryWf_codegen h _
  | deserInitEmpty => exact memoryWf_clearTree h
  | deserInit => exact memoryWf_setSlot (memoryWf_clearTree h) (by decide) _
  | deserLeaf _ _ hnode => exact memoryWf_afterToken h hnode _
  | deserInternal _ _ hnode hsp hcap =>
    have hpos : s.sp.toNat ≠ 0 := fun e => hsp (BitVec.eq_of_toNat_eq e)
    have hk : s.sp.toNat - 1 + 1 < Config.stackCap := by
      rwa [Nat.sub_add_cancel (Nat.one_le_iff_ne_zero.2 hpos)]
    exact memoryWf_openChildren (memoryWf_afterToken h hnode _) _ hk
  | _ => exact h

theorem memoryWf_keptByParts : KeptByParts (memoryWf · = true) where
  takeInput _ _ h := h
  performRead _ _ h := h
  hardwareReset := memoryWf_hardwareReset
  errorEntry _ e cw d h := memoryWf_errorEntry h e cw d
  completes _ _ _ h _ _ hc := memoryWf_completes h hc

/-- Settles O50: each part of a step keeps the canonical form. -/
theorem stepKeepsMemoryForm : Obligations.StepKeepsMemoryForm :=
  fun _ _ hs h => memoryWf_keptByParts.step hs h

/-! ### The status registers -/

/-- A completed command leaves ERR and ERR_CMD as they are, but RESET and ERR_CLR put both at 0. -/
theorem Completes.status {s t : State} {i : Instr} (hc : Completes s i t) :
    (t.err = s.err ∧ t.errCmd = s.errCmd ∧ i ≠ .reset ∧ i ≠ .errClr) ∨
      (t.err = 0#8 ∧ t.errCmd = 0#64) := by
  cases hc with
  | reset => exact .inr ⟨rfl, rfl⟩
  | errClr => exact .inr ⟨rfl, rfl⟩
  | _ => exact .inl ⟨rfl, rfl, nofun, nofun⟩

theorem statusOk_of_no_error {s : State} (he : s.err = 0#8) (hcmd : s.errCmd = 0#64) :
    StatusOk s := ⟨by simp [he], fun h => absurd he h, fun _ => hcmd⟩

theorem statusOk_errorEntry (s : State) (e : Err) (cw : Word) (d : Bool) :
    StatusOk (errorEntry e cw d s) :=
  ⟨errCode_le e, fun _ => rfl, fun h => absurd h (errCode_ne_zero e)⟩

theorem statusOk_completes {s t : State} {i : Instr} (h : StatusOk s)
    (hd : s.err = 0#8 ∨ i = .reset ∨ i = .errClr) (hc : Completes s i t) : StatusOk t := by
  obtain ⟨he, hcmd, hr, hclr⟩ | ⟨he, hcmd⟩ := hc.status
  · obtain h0 | hi | hi := hd
    · exact statusOk_of_no_error (he.trans h0) (hcmd.trans (h.2.2 h0))
    · exact absurd hi hr
    · exact absurd hi hclr
  · exact statusOk_of_no_error he hcmd

theorem statusOk_keptByParts : KeptByParts StatusOk where
  takeInput _ _ h := h
  performRead _ _ h := h
  hardwareReset s := (consistent_hardwareReset s).2.1
  errorEntry s e cw d _ := statusOk_errorEntry s e cw d
  completes _ _ _ h hd _ hc := statusOk_completes h hd hc

/-! ### The packer's accumulator -/

/-- One more bit in an accumulator of `n` bits makes one of `n + 1`. -/
theorem pushBit_toNat_lt {acc : Byte} {n : Nat} (h : acc.toNat < 2 ^ n) (b : Bool) :
    (pushBit acc b).toNat < 2 ^ (n + 1) := by
  have hshift : (acc <<< 1).toNat < 2 ^ (n + 1) := by
    rw [BitVec.toNat_shiftLeft, Nat.shiftLeft_eq]
    exact lt_of_le_of_lt (Nat.mod_le _ _) (by rw [Nat.pow_succ]; omega)
  rw [pushBit, BitVec.toNat_or]
  refine Nat.or_lt_two_pow hshift ?_
  cases b
  · exact Nat.two_pow_pos _
  · exact Nat.one_lt_two_pow (Nat.succ_ne_zero n)

/-- The loop of PACK_BYTE leaves fewer than 8 bits pending and 0 above them. -/
theorem packBits_pending (bs : List Bool) : ∀ (acc : Byte) (n : Nat), n < 8 → acc.toNat < 2 ^ n →
    (packBits bs acc n).cnt < 8 ∧
      (packBits bs acc n).acc.toNat < 2 ^ (packBits bs acc n).cnt := by
  induction bs with
  | nil => exact fun acc n hn h => ⟨hn, h⟩
  | cons b bs ih =>
    intro acc n hn h
    rw [packBits]
    split
    · exact ih 0#8 0 (by decide) (by decide)
    · exact ih _ _ (by omega) (pushBit_toNat_lt h b)

theorem packOk_errorEntry {s : State} (h : PackOk s) (e : Err) (cw : Word) (d : Bool) :
    PackOk (errorEntry e cw d s) := by
  rw [errorEntry_eq]
  exact h

theorem packOk_completes {s t : State} {i : Instr} (h : PackOk s) (hc : Completes s i t) :
    PackOk t := by
  cases hc with
  | reset => exact Nat.zero_lt_one
  | packInit => exact Nat.zero_lt_one
  | packFlushNone => exact Nat.zero_lt_one
  | packFlush => exact Nat.zero_lt_one
  | packByte _ hr =>
    subst hr
    obtain ⟨hcnt, hacc⟩ := packBits_pending (codeOf s _) s.acc s.accCnt.toNat s.accCnt.isLt h
    rw [PackOk, BitVec.toNat_ofNat, Nat.mod_eq_of_lt hcnt]
    exact hacc
  | _ => exact h

theorem packOk_keptByParts : KeptByParts PackOk where
  takeInput _ _ h := h
  performRead _ _ h := h
  hardwareReset s := (consistent_hardwareReset s).2.2.1
  errorEntry _ e cw d h := packOk_errorEntry h e cw d
  completes _ _ _ h _ _ hc := packOk_completes h hc

/-- Settles O51: the two invariants, each kept by every part of a step. -/
theorem stepKeepsStatusAndPacker : Obligations.StepKeepsStatusAndPacker :=
  fun _ _ h => ⟨fun hs => statusOk_keptByParts.step hs h, fun hp => packOk_keptByParts.step hp h⟩

end Sys2Proof.Machine
end

section
/-! PROOFS. 10_state.md R35, R43: the bits of every code written, under every step. A code is at most
255 bits long, because the tree check and the walk that makes the codes use one unit of the same
fuel for every node. -/

namespace Sys2Proof.Machine

/-! ### The tree check, round by round -/

/-- What a round of the tree check that passes found: a valid entry, and then a leaf, or an Internal
node whose children are checked next. -/
theorem wfWalk_cases {s : State} {fuel : Nat} {i : NodeIx} {todo seen : List NodeIx}
    (h : wfWalk s fuel (i :: todo) seen = true) :
    ∃ f n, fuel = f + 1 ∧ nodeAt s i = some n ∧ n.valid = true ∧
      ((n.kind = .leaf ∧ wfWalk s f todo (i :: seen) = true) ∨
        (n.kind = .internal ∧ wfWalk s f (n.left :: n.right :: todo) (i :: seen) = true)) := by
  cases fuel with
  | zero => cases h
  | succ f =>
    rw [wfWalk] at h
    split at h
    · cases h
    next n hn =>
    split at h
    next hv =>
      split at h
      · cases h
      split at h
      · next hk => exact ⟨f, n, rfl, hn, hv, .inr ⟨hk, h⟩⟩
      · next hk => exact ⟨f, n, rfl, hn, hv, .inl ⟨hk, h⟩⟩
    · cases h

/-- The tree check of a tree that is not empty is the walk from ROOT. -/
theorem wfWalk_of_wfTree {s : State} (h : wfTree s = true) (hr : s.root ≠ Config.nil) :
    wfWalk s Config.treeCap [s.root] [] = true := by
  simpa [wfTree, hr] using h

theorem nodeEntry_of_nodeAt {s : State} {i : NodeIx} {n : Node} (h : nodeAt s i = some n) :
    nodeEntry s i.toNat = n := by
  unfold nodeAt at h
  split at h
  · cases h
  · exact Option.some.inj h

/-- A passing walk has a unit of fuel for each index it still holds. -/
theorem length_le_of_wfWalk {s : State} (fuel : Nat) : ∀ {todo seen : List NodeIx},
    wfWalk s fuel todo seen = true → todo.length ≤ fuel := by
  induction fuel with
  | zero =>
    intro todo seen h
    cases todo with
    | nil => exact Nat.le_refl 0
    | cons i todo => cases h
  | succ fuel ih =>
    intro todo seen h
    cases todo with
    | nil => exact Nat.zero_le _
    | cons i todo =>
      obtain ⟨f, n, hf, -, -, ⟨-, hw⟩ | ⟨-, hw⟩⟩ := wfWalk_cases h
      · cases hf
        exact Nat.succ_le_succ (ih hw)
      · cases hf
        have := ih hw
        simp only [List.length_cons] at this ⊢
        omega

/-! ### The length of a code -/

/-- Every code of the walk has a length within the bound. Each round keeps `2 * length + fuel - todo`
at most 510 for every path held: a leaf takes one unit of fuel and one index, an Internal node takes
one unit and adds one index and one step. -/
theorem leafCodes_length_le {s : State} (fuel : Nat) :
    ∀ {todo : List (NodeIx × List Bool)} {seen : List NodeIx},
      wfWalk s fuel (todo.map Prod.fst) seen = true →
      (∀ x ∈ todo, 2 * x.2.length + fuel ≤ 510 + todo.length) →
      ∀ c ∈ leafCodes s fuel todo, c.2.length ≤ 255 := by
  induction fuel with
  | zero =>
    intro todo seen _ _ c hc
    cases todo <;> cases hc
  | succ fuel ih =>
    intro todo seen h hb c hc
    cases todo with
    | nil => cases hc
    | cons x todo =>
      have hb' : ∀ y ∈ todo, 2 * y.2.length + fuel ≤ 510 + todo.length := fun y hy => by
        have := hb y (List.mem_cons_of_mem _ hy)
        simp only [List.length_cons] at this
        omega
      obtain ⟨i, path⟩ := x
      have hpath := hb _ List.mem_cons_self
      simp only [List.length_cons] at hpath
      rw [leafCodes] at hc
      obtain ⟨f, n, hf, hn, -, ⟨hk, hw⟩ | ⟨hk, hw⟩⟩ := wfWalk_cases h
      · cases hf
        have hlen : todo.length ≤ fuel := by simpa using length_le_of_wfWalk fuel hw
        simp only [nodeEntry_of_nodeAt hn, hk, List.mem_cons] at hc
        obtain rfl | hc := hc
        · dsimp only; omega
        · exact ih hw hb' c hc
      · cases hf
        simp only [nodeEntry_of_nodeAt hn, hk] at hc
        refine ih (todo := (n.left, path ++ [false]) :: (n.right, path ++ [true]) :: todo) hw ?_ c hc
        simp only [List.forall_mem_cons, List.length_cons, List.length_append, List.length_nil]
        exact ⟨by omega, by omega, fun y hy => (hb' y hy).trans (by omega)⟩

/-- 40_tree_memory.md R124: no code of a tree that passes the check is longer than 255 bits. -/
theorem treeCodes_length_le {s : State} (h : wfTree s = true) :
    ∀ c ∈ treeCodes s, c.2.length ≤ 255 := by
  intro c hc
  unfold treeCodes at hc
  split at hc
  · cases hc
  next hr =>
  dsimp only at hc
  split at hc
  · rw [List.mem_singleton] at hc
    subst hc
    simp
  · refine leafCodes_length_le Config.treeCap (seen := []) (wfWalk_of_wfTree h hr) ?_ c hc
    simp [Config.treeCap]

/-! ### The tables made from the codes -/

/-- The word of a path holds no bit beyond the path. -/
theorem getLsbD_pathBits {p : List Bool} {k : Nat} (h : p.length ≤ k) :
    (pathBits p).getLsbD k = false := by
  induction p generalizing k with
  | nil => exact BitVec.getLsbD_zero
  | cons b p ih =>
    obtain ⟨k, rfl⟩ : ∃ m, k = m + 1 := ⟨k - 1, by simp only [List.length_cons] at h; omega⟩
    have hp : (pathBits p).getLsbD k = false := ih (Nat.le_of_succ_le_succ h)
    cases b <;> simp [pathBits, hp]

/-- A value's length in a list of lengths; an unlisted one is 0. -/
def lengthIn (lens : Table (BitVec 8)) (v : Byte) : BitVec 8 := (tblGet lens v.toNat).getD 0#8

theorem codeLenAt_eq (s : State) (v : Byte) : codeLenAt s v = lengthIn s.codeLen v := by
  unfold codeLenAt lengthIn
  cases tblGet s.codeLen v.toNat <;> rfl

theorem lengthIn_setLen {lens : Table (BitVec 8)} (h : tblWf Config.alphabet lens = true)
    (v w : Byte) (n : BitVec 8) :
    lengthIn (setLen lens v n) w = if w = v then n else lengthIn lens w := by
  unfold lengthIn setLen
  by_cases hw : w = v
  · subst hw
    by_cases hn : n = 0#8
    · simp [hn, tblGet_tblErase_self h]
    · simp [hn]
  · have hne : w.toNat ≠ v.toNat := fun e => hw (BitVec.eq_of_toNat_eq e)
    by_cases hn : n = 0#8
    · simp [hn, hw, tblGet_tblErase_ne _ hne]
    · simp [hn, hw, tblGet_tblSet_ne _ _ hne]

/-- In the two tables every value with a code has its bits written, 0 from its length up. -/
def CodesWritten (lens : Table (BitVec 8)) (words : Table (BitVec 256)) : Prop :=
  ∀ v : Byte, lengthIn lens v ≠ 0#8 →
    ∃ b, tblGet words v.toNat = some b ∧ ∀ k, (lengthIn lens v).toNat ≤ k → b.getLsbD k = false

theorem codeOk_iff (s : State) : CodeOk s ↔ CodesWritten s.codeLen s.codeBits := by
  simp only [CodeOk, CodesWritten, codeLenAt_eq]

/-- Writing one code of at most 255 bits keeps the tables so. -/
theorem codesWritten_set {lens : Table (BitVec 8)} {words : Table (BitVec 256)}
    (h : CodesWritten lens words) (hwf : tblWf Config.alphabet lens = true) (v : Byte)
    {p : List Bool} (hp : p.length ≤ 255) :
    CodesWritten (setLen lens v (BitVec.ofNat 8 p.length)) (tblSet words v.toNat (pathBits p)) := by
  intro w hlen
  rw [lengthIn_setLen hwf] at hlen ⊢
  by_cases hw : w = v
  · subst hw
    refine ⟨pathBits p, tblGet_tblSet_self _ _ _, fun k hk => getLsbD_pathBits ?_⟩
    rwa [if_pos rfl, BitVec.toNat_ofNat, Nat.mod_eq_of_lt (Nat.lt_succ_of_le hp)] at hk
  · rw [if_neg hw] at hlen ⊢
    rw [tblGet_tblSet_ne _ _ fun e => hw (BitVec.eq_of_toNat_eq e)]
    exact h w hlen

theorem codesWritten_foldl {codes : List (Byte × List Bool)}
    (hlen : ∀ c ∈ codes, c.2.length ≤ 255) :
    ∀ {lens : Table (BitVec 8)} {words : Table (BitVec 256)},
      CodesWritten lens words → tblWf Config.alphabet lens = true →
      CodesWritten (codes.foldl (fun t c => setLen t c.1 (BitVec.ofNat 8 c.2.length)) lens)
        (codes.foldl (fun t c => tblSet t c.1.toNat (pathBits c.2)) words) := by
  induction codes with
  | nil => exact fun h _ => h
  | cons c cs ih =>
    obtain ⟨hc, hcs⟩ := List.forall_mem_cons.1 hlen
    exact fun h hwf => ih hcs (codesWritten_set h hwf c.1 hc) (tblWf_setLen hwf _ _)

/-- The tables CODEGEN makes from the codes of a tree that passes the check. -/
theorem codesWritten_codegen {s : State} (h : wfTree s = true) :
    CodesWritten (lengthsOf (treeCodes s)) (bitsOf (treeCodes s)) :=
  codesWritten_foldl (treeCodes_length_le h) (fun _ hv => absurd rfl hv) rfl

/-! ### The step -/

theorem codeOk_errorEntry {s : State} (h : CodeOk s) (e : Err) (cw : Word) (d : Bool) :
    CodeOk (errorEntry e cw d s) := by
  rw [errorEntry_eq]
  exact h

theorem codeOk_completes {s t : State} {i : Instr} (h : CodeOk s) (hc : Completes s i t) :
    CodeOk t := by
  cases hc with
  | reset => exact codeOk_of_codeLen_nil rfl
  | codegen hwf => exact (codeOk_iff _).2 (codesWritten_codegen hwf)
  | _ => exact h

theorem codeOk_keptByParts : KeptByParts CodeOk where
  takeInput _ _ h := h
  performRead _ _ h := h
  hardwareReset _ := codeOk_of_codeLen_nil rfl
  errorEntry _ e cw d h := codeOk_errorEntry h e cw d
  completes _ _ _ h _ _ hc := codeOk_completes h hc

/-- Settles O53: CODEGEN writes both tables from codes of at most 255 bits; nothing else writes
CODE_BITS. -/
theorem stepKeepsCodeTable : Obligations.StepKeepsCodeTable :=
  fun _ _ hs h => codeOk_keptByParts.step hs h

end Sys2Proof.Machine
end

section
/-! PROOFS. 10_state.md R37, 70_reset_and_hazards.md R353: an open unpack session under every step. -/

namespace Sys2Proof.Machine

/-! ### Paths -/

theorem follow_cons_of_internal {s : State} {i : NodeIx} {n : Node} (hn : nodeAt s i = some n)
    (hk : n.kind = .internal) (b : Bool) (p : List Bool) :
    follow s i (b :: p) = follow s (if b then n.right else n.left) p := by
  rw [follow]
  simp only [hn, hk]

/-- A path with steps leaves an Internal node. -/
theorem follow_cons_some {s : State} {i j : NodeIx} {b : Bool} {p : List Bool}
    (h : follow s i (b :: p) = some j) :
    ∃ n, nodeAt s i = some n ∧ n.kind = .internal ∧
      follow s (if b then n.right else n.left) p = some j := by
  rw [follow] at h
  split at h
  · cases h
  next n hn =>
  split at h
  · cases h
  · next hk => exact ⟨n, hn, hk, h⟩

/-- One step more: a path to an Internal node goes on to its children. -/
theorem follow_concat {s : State} {j : NodeIx} {n : Node} (hn : nodeAt s j = some n)
    (hk : n.kind = .internal) (b : Bool) {p : List Bool} : ∀ {i : NodeIx},
    follow s i p = some j → follow s i (p ++ [b]) = some (if b then n.right else n.left) := by
  induction p with
  | nil =>
    intro i h
    cases h
    rw [List.nil_append, follow_cons_of_internal hn hk]
    rfl
  | cons a p ih =>
    intro i h
    obtain ⟨m, hm, hmk, hp⟩ := follow_cons_some h
    rw [List.cons_append, follow_cons_of_internal hm hmk]
    exact ih hp

theorem follow_congr {s t : State} (h : t.nodes = s.nodes) (he : t.epoch = s.epoch)
    (p : List Bool) : ∀ i : NodeIx, follow t i p = follow s i p := by
  induction p with
  | nil => exact fun _ => rfl
  | cons b p ih =>
    intro i
    simp only [follow, nodeAt_congr h he, ih]

/-! ### The cursor -/

/-- `cur` is a place a cursor can have: ROOT or an Internal node of the tree (R37). -/
def CursorAt (s : State) (cur : NodeIx) : Prop :=
  cur = s.root ∨
    ∃ p n, follow s s.root p = some cur ∧ nodeAt s cur = some n ∧ n.kind = .internal

theorem cursorOk_iff (s : State) : CursorOk s ↔ CursorAt s s.cursor := Iff.rfl

theorem CursorAt.congr {s t : State} {cur : NodeIx} (h : CursorAt s cur) (hr : t.root = s.root)
    (hn : t.nodes = s.nodes) (he : t.epoch = s.epoch) : CursorAt t cur := by
  unfold CursorAt
  rw [hr]
  simp only [follow_congr hn he, nodeAt_congr hn he]
  exact h

/-- A cursor's node in a tree with an Internal root is Internal, and a path leads from ROOT to it. -/
theorem CursorAt.path {s : State} {cur : NodeIx} {r c : Node} (h : CursorAt s cur)
    (hr : nodeAt s s.root = some r) (hk : r.kind = .internal) (hc : nodeAt s cur = some c) :
    c.kind = .internal ∧ ∃ p, follow s s.root p = some cur := by
  obtain rfl | ⟨p, n, hp, hn, hnk⟩ := h
  · cases hr.symm.trans hc
    exact ⟨hk, [], rfl⟩
  · cases hn.symm.trans hc
    exact ⟨hnk, p, hp⟩

/-- A path leads on from a cursor to either child. -/
theorem CursorAt.path_child {s : State} {cur : NodeIx} {r c : Node} (h : CursorAt s cur)
    (hr : nodeAt s s.root = some r) (hk : r.kind = .internal) (hc : nodeAt s cur = some c)
    (b : Bool) : ∃ p, follow s s.root p = some (if b then c.right else c.left) := by
  obtain ⟨hck, p, hp⟩ := h.path hr hk hc
  exact ⟨p ++ [b], follow_concat hc hck b hp⟩

theorem emitFirst_eq_ok {v : Byte} {w : Walked} {cur : NodeIx} {bs : List Byte}
    (h : emitFirst v w = .ok cur bs) : ∃ rest, w = .ok cur rest := by
  cases w with
  | ok c rest => cases h; exact ⟨rest, rfl⟩
  | badPath => cases h
  | noEntry => cases h

/-- The loop of UNPACK_BYTE leaves the cursor at ROOT or an Internal node. -/
theorem cursorAt_of_unpackBits {s : State} (bits : List Bool) :
    ∀ {cur last : NodeIx} {out : List Byte}, CursorAt s cur →
      unpackBits s bits cur = .ok last out → CursorAt s last := by
  induction bits with
  | nil => intro cur last out h hu; cases hu; exact h
  | cons b bits ih =>
    intro cur last out h hu
    rw [unpackBits] at hu
    split at hu
    · cases hu
    next r hr =>
    split at hu
    · split at hu
      · cases hu
      · obtain ⟨_, hrest⟩ := emitFirst_eq_ok hu
        exact ih h hrest
    next hk =>
    split at hu
    · cases hu
    next c hc =>
    dsimp only at hu
    split at hu
    · cases hu
    next n hn =>
    split at hu
    · obtain ⟨_, hrest⟩ := emitFirst_eq_ok hu
      exact ih (.inl rfl) hrest
    · next hnk =>
      obtain ⟨p, hp⟩ := h.path_child hr hk hc b
      exact ih (.inr ⟨p, n, hp, hn, hnk⟩) hu

/-! ### The step -/

theorem unpackOk_of_mode {s : State} (h : s.mode ≠ .unpack) : UnpackOk s :=
  fun hm => absurd hm h

/-- The invariant speaks of MODE, the tree, BITS_LEFT and CURSOR only. -/
theorem UnpackOk.congr {s t : State} (h : UnpackOk s) (hm : t.mode = s.mode)
    (hr : t.root = s.root) (hn : t.nodes = s.nodes) (he : t.epoch = s.epoch)
    (hb : t.bitsLeft = s.bitsLeft) (hc : t.cursor = s.cursor) : UnpackOk t := by
  intro hmode
  obtain ⟨hwf, hroot, hcur⟩ := h (hm ▸ hmode)
  refine ⟨(wfTree_congr hr hn he).trans hwf, by rwa [hb, hr], ?_⟩
  rw [cursorOk_iff, hc]
  exact CursorAt.congr hcur hr hn he

/-- In an open session a completed command goes on with it or closes it. -/
theorem unpackOk_completes_open {s t : State} {i : Instr} (h : UnpackOk s)
    (hm : s.mode = .unpack) (ha : accepts i s.mode = true) (hc : Completes s i t) :
    UnpackOk t := by
  cases hc with
  | nop => exact h
  | reset => exact unpackOk_of_mode nofun
  | errClr => exact h.congr rfl rfl rfl rfl rfl rfl
  | unpackByte hbits hwalk =>
    obtain ⟨hwf, hroot, hcur⟩ := h hm
    refine fun _ => ⟨?_, fun _ => hroot hbits, ?_⟩
    · rw [← hwf]; exact wfTree_congr rfl rfl rfl
    · exact (cursorAt_of_unpackBits _ hcur hwalk).congr rfl rfl rfl
  | unpackEnd => exact unpackOk_of_mode nofun
  | _ => rw [hm] at ha; cases ha

/-- The mode DESER_BYTE leaves is no open unpack session. -/
theorem kept_or_idle_ne_unpack {m m' : Mode} (hm : m ≠ .unpack) (h : m' = m ∨ m' = .idle) :
    m' ≠ .unpack := by
  obtain rfl | rfl := h
  · exact hm
  · nofun

/-- With no session open only UNPACK_INIT opens one, after its own tree check. -/
theorem unpackOk_completes_closed {s t : State} {i : Instr} (hm : s.mode ≠ .unpack)
    (hc : Completes s i t) : UnpackOk t := by
  cases hc with
  | unpackInit hwf hn hroot =>
    refine fun _ => ⟨?_, fun hb => hroot ?_, .inl rfl⟩
    · rw [← hwf]; exact wfTree_congr rfl rfl rfl
    · exact Nat.pos_of_ne_zero fun e => hb (congrArg (BitVec.ofNat 51) e)
  | reset => exact unpackOk_of_mode nofun
  | deserInit => exact unpackOk_of_mode nofun
  | packInit => exact unpackOk_of_mode nofun
  | packFlushNone => exact unpackOk_of_mode nofun
  | packFlush => exact unpackOk_of_mode nofun
  | unpackEnd => exact unpackOk_of_mode nofun
  | deserLeaf _ _ _ _ _ hmode => exact unpackOk_of_mode (kept_or_idle_ne_unpack hm hmode)
  | deserInternal _ _ _ _ _ hmode => exact unpackOk_of_mode (kept_or_idle_ne_unpack hm hmode)
  | _ => exact unpackOk_of_mode hm

theorem unpackOk_completes {s t : State} {i : Instr} (h : UnpackOk s)
    (ha : accepts i s.mode = true) (hc : Completes s i t) : UnpackOk t := by
  by_cases hm : s.mode = .unpack
  · exact unpackOk_completes_open h hm ha hc
  · exact unpackOk_completes_closed hm hc

theorem unpackOk_keptByParts : KeptByParts UnpackOk where
  takeInput _ _ h := h.congr rfl rfl rfl rfl rfl rfl
  performRead _ _ h := h.congr rfl rfl rfl rfl rfl rfl
  hardwareReset _ := unpackOk_of_mode nofun
  errorEntry _ _ _ _ _ := unpackOk_of_mode nofun
  completes _ _ _ h _ ha hc := unpackOk_completes h ha hc

/-- Settles O54: UNPACK_INIT opens a session on a checked tree, UNPACK_BYTE moves its cursor along the
tree, and no other command accepted in UNPACK touches either. -/
theorem stepKeepsUnpacker : Obligations.StepKeepsUnpacker :=
  fun _ _ hs h => unpackOk_keptByParts.step hs h

end Sys2Proof.Machine
end

section
/-! PROOFS. 10_state.md R44: which commands write which element. -/

namespace Sys2Proof.Machine

theorem opcode_of_isDeserByte {i : Instr} (h : isDeserByte i = true) : opcode i = 0x29#8 := by
  cases i with
  | deserByte b => rfl
  | _ => cases h

/-- Settles O48. An error writes what error entry names; a command that completes writes the elements
that its case of `Completes` names. -/
theorem commandWrites : Obligations.CommandWrites := by
  intro i s t h hreset
  obtain ⟨-, rfl⟩ | ⟨e, rfl⟩ | ⟨-, -, hc⟩ := exec_cases h
  · simp
  · rw [raiseIn]
    by_cases hd : s.mode = .deser ∨ isDeserByte i = true
    · rw [errorEntry_of_deser hd]
      have hcause : opcode i = 0x29#8 ∨ s.mode = .deser := hd.symm.imp_left opcode_of_isDeserByte
      obtain hop | hm := hcause
      · simp [errCode_ne_zero, hop]
      · simp [errCode_ne_zero, hm]
    · obtain ⟨hm, hi⟩ := not_or.1 hd
      rw [errorEntry_of_not_deser hm (by simpa using hi)]
      simp [errCode_ne_zero]
  · cases hc with
    | reset => exact absurd rfl hreset
    | deserLeaf => simp [opcode, afterToken]
    | deserInternal => simp [opcode, afterToken, openChildren]
    | _ => simp [opcode]

end Sys2Proof.Machine
end

section
/-! PROOFS. 10_state.md R43: no command reads an unspecified element. The free values are those that
the counter `epoch` selects, so each rule is shown to commute with putting another counter in the
state: every entry a rule uses has been written, because it is valid (the tree), below SP (the stack)
or a code's (the code table). -/

namespace Sys2Proof.Machine

variable {s : State} {e : Nat}

/-! ### Node reads -/

theorem nodeEntry_of_listed {k : Nat} {n : Node} (h : tblGet s.nodes k = some n) :
    nodeEntry s k = n := by
  unfold nodeEntry
  rw [h]

/-- A valid entry has been written. -/
theorem listed_of_valid {k : Nat} (h : (nodeEntry s k).valid = true) :
    tblGet s.nodes k = some (nodeEntry s k) := by
  unfold nodeEntry at h ⊢
  split
  · assumption
  · next hnone => rw [hnone] at h; cases h

/-- A valid entry holds no free value. -/
theorem nodeEntry_epoch_of_valid {k : Nat} (h : (nodeEntry s k).valid = true) :
    nodeEntry { s with epoch := e } k = nodeEntry s k :=
  nodeEntry_of_listed (listed_of_valid h)

theorem nodeEntry_epoch_valid (s : State) (e k : Nat) :
    (nodeEntry { s with epoch := e } k).valid = (nodeEntry s k).valid := by
  unfold nodeEntry
  dsimp only
  split <;> rfl

theorem nodeAt_epoch_of_valid {i : NodeIx} {n : Node} (h : nodeAt s i = some n)
    (hv : n.valid = true) : nodeAt { s with epoch := e } i = some n := by
  unfold nodeAt at h ⊢
  split at h
  · cases h
  · next hi =>
    cases h
    rw [if_neg hi, nodeEntry_epoch_of_valid hv]

/-! ### The tree check and the walks it guards -/

/-- The tree check goes no further at an entry never written: its VALID is 0. -/
theorem wfWalk_epoch (s : State) (e fuel : Nat) : ∀ todo seen : List NodeIx,
    wfWalk { s with epoch := e } fuel todo seen = wfWalk s fuel todo seen := by
  induction fuel with
  | zero => intro todo seen; cases todo <;> rfl
  | succ fuel ih =>
    intro todo seen
    cases todo with
    | nil => rfl
    | cons i todo =>
      rw [wfWalk, wfWalk]
      by_cases hi : i = Config.nil
      · simp only [hi, nodeAt_nil]
      rw [nodeAt_of_ne _ hi, nodeAt_of_ne _ hi]
      dsimp only
      rw [nodeEntry_epoch_valid]
      by_cases hv : (nodeEntry s i.toNat).valid = true
      · simp only [nodeEntry_epoch_of_valid hv, ih]
      · simp only [hv, Bool.false_eq_true, if_false]

theorem wfTree_epoch (s : State) (e : Nat) : wfTree { s with epoch := e } = wfTree s := by
  unfold wfTree
  rw [wfWalk_epoch]

/-- Every node of the tree at ROOT is valid, as the walk of the tree check finds. -/
theorem valid_of_follow {fuel : Nat} : ∀ {todo seen : List NodeIx} {i j : NodeIx} {p : List Bool},
    wfWalk s fuel todo seen = true → i ∈ todo → follow s i p = some j →
      ∃ n, nodeAt s j = some n ∧ n.valid = true := by
  induction fuel with
  | zero =>
    intro todo seen i j p h hi
    cases todo with
    | nil => cases hi
    | cons _ _ => cases h
  | succ fuel ih =>
    intro todo seen i j p h hi hp
    cases todo with
    | nil => cases hi
    | cons i₀ todo =>
      obtain ⟨f, n, hf, hn, hv, hrest⟩ := wfWalk_cases h
      cases hf
      obtain rfl | hi := List.mem_cons.1 hi
      · cases p with
        | nil => cases hp; exact ⟨n, hn, hv⟩
        | cons b p =>
          obtain ⟨m, hm, hmk, hp⟩ := follow_cons_some hp
          cases hn.symm.trans hm
          obtain ⟨hk, -⟩ | ⟨-, hw⟩ := hrest
          · cases hk.symm.trans hmk
          · exact ih hw (by cases b <;> simp) hp
      · obtain ⟨-, hw⟩ | ⟨-, hw⟩ := hrest
        · exact ih hw hi hp
        · exact ih hw (List.mem_cons_of_mem _ (List.mem_cons_of_mem _ hi)) hp

/-- The nodes of a tree that passes the check read the same with other free values. -/
theorem nodeAt_epoch_of_follow (hwf : wfTree s = true) (hr : s.root ≠ Config.nil)
    {p : List Bool} {j : NodeIx} (hp : follow s s.root p = some j) :
    nodeAt { s with epoch := e } j = nodeAt s j := by
  obtain ⟨n, hn, hv⟩ := valid_of_follow (wfWalk_of_wfTree hwf hr) List.mem_cons_self hp
  rw [hn, nodeAt_epoch_of_valid hn hv]

theorem serWalk_epoch {fuel : Nat} : ∀ {todo seen : List NodeIx},
    wfWalk s fuel todo seen = true →
      serWalk { s with epoch := e } fuel todo = serWalk s fuel todo := by
  induction fuel with
  | zero => intro todo seen _; cases todo <;> rfl
  | succ fuel ih =>
    intro todo seen h
    cases todo with
    | nil => rfl
    | cons i todo =>
      obtain ⟨f, n, hf, hn, hv, hrest⟩ := wfWalk_cases h
      cases hf
      have hn' := nodeAt_epoch_of_valid (e := e) hn hv
      rw [serWalk, serWalk]
      simp only [nodeEntry_of_nodeAt hn, nodeEntry_of_nodeAt hn']
      obtain ⟨hk, hw⟩ | ⟨hk, hw⟩ := hrest
      · simp only [hk, ih hw]
      · simp only [hk, ih hw]

theorem leafCodes_epoch {fuel : Nat} : ∀ {todo : List (NodeIx × List Bool)} {seen : List NodeIx},
    wfWalk s fuel (todo.map Prod.fst) seen = true →
      leafCodes { s with epoch := e } fuel todo = leafCodes s fuel todo := by
  induction fuel with
  | zero => intro todo seen _; cases todo <;> rfl
  | succ fuel ih =>
    intro todo seen h
    cases todo with
    | nil => rfl
    | cons x todo =>
      obtain ⟨i, path⟩ := x
      obtain ⟨f, n, hf, hn, hv, hrest⟩ := wfWalk_cases h
      cases hf
      have hn' := nodeAt_epoch_of_valid (e := e) hn hv
      rw [leafCodes, leafCodes]
      simp only [nodeEntry_of_nodeAt hn, nodeEntry_of_nodeAt hn']
      obtain ⟨hk, hw⟩ | ⟨hk, hw⟩ := hrest
      · simp only [hk, ih hw]
      · simp only [hk]
        exact ih (todo := (n.left, path ++ [false]) :: (n.right, path ++ [true]) :: todo) hw

theorem serBytes_epoch (hwf : wfTree s = true) :
    serBytes { s with epoch := e } = serBytes s := by
  unfold serBytes
  by_cases hr : s.root = Config.nil
  · simp only [hr, if_true]
  · simp only [hr, if_false, serWalk_epoch (wfWalk_of_wfTree hwf hr)]

theorem treeCodes_epoch (hwf : wfTree s = true) :
    treeCodes { s with epoch := e } = treeCodes s := by
  unfold treeCodes
  by_cases hr : s.root = Config.nil
  · simp only [hr, if_true]
  have hw := wfWalk_of_wfTree hwf hr
  obtain ⟨f, n, -, hn, hv, -⟩ := wfWalk_cases hw
  have hn' := nodeAt_epoch_of_valid (e := e) hn hv
  simp only [hr, if_false, nodeEntry_of_nodeAt hn, nodeEntry_of_nodeAt hn',
    leafCodes_epoch (todo := [(s.root, [])]) hw]

/-! ### The unpacker -/

/-- The loop of UNPACK_BYTE stays on the nodes of the tree. -/
theorem unpackBits_epoch (hwf : wfTree s = true) (hroot : s.root ≠ Config.nil)
    (bits : List Bool) : ∀ {cur : NodeIx}, CursorAt s cur →
      unpackBits { s with epoch := e } bits cur = unpackBits s bits cur := by
  induction bits with
  | nil => exact fun _ => rfl
  | cons b bits ih =>
    intro cur h
    rw [unpackBits, unpackBits]
    have hrootRead := nodeAt_epoch_of_follow (e := e) hwf hroot (p := []) rfl
    rw [show ({ s with epoch := e } : State).root = s.root from rfl, hrootRead,
      nodeAt_of_ne s hroot]
    dsimp only
    cases hk : (nodeEntry s s.root.toNat).kind with
    | leaf => simp only [ih h]
    | internal =>
      have hr := nodeAt_of_ne s hroot
      dsimp only
      have hcur : nodeAt { s with epoch := e } cur = nodeAt s cur := by
        obtain rfl | ⟨p, -, hp, -⟩ := h
        · exact hrootRead
        · exact nodeAt_epoch_of_follow hwf hroot hp
      rw [hcur]
      cases hc : nodeAt s cur with
      | none => rfl
      | some c =>
        obtain ⟨p, hp⟩ := h.path_child hr hk hc b
        dsimp only
        rw [nodeAt_epoch_of_follow hwf hroot hp]
        cases hn : nodeAt s (if b = true then c.right else c.left) with
        | none => rfl
        | some n =>
          dsimp only
          cases hnk : n.kind with
          | leaf => simp only [ih (.inl rfl)]
          | internal => exact ih (.inr ⟨p, n, hp, hn, hnk⟩)

/-! ### How each rule ends -/

/-- The same end with another counter in the state it leaves. -/
def Ending.withEpoch (e : Nat) : Ending → Ending
  | .done t => .done { t with epoch := e }
  | .raise x => .raise x
  | .stuck f => .stuck f

theorem serBody_epoch (s : State) (e : Nat) :
    serBody { s with epoch := e } = (serBody s).withEpoch e := by
  unfold serBody
  rw [wfTree_epoch]
  by_cases hwf : wfTree s = true
  · simp only [hwf, if_true, serBytes_epoch hwf]
    split <;> rfl
  · simp only [hwf, Bool.false_eq_true, if_false]
    rfl

theorem codegenBody_epoch (s : State) (e : Nat) :
    codegenBody { s with epoch := e } = (codegenBody s).withEpoch e := by
  unfold codegenBody
  rw [wfTree_epoch]
  by_cases hwf : wfTree s = true
  · simp only [hwf, if_true, treeCodes_epoch hwf]
    rfl
  · simp only [hwf, Bool.false_eq_true, if_false]
    rfl

theorem unpackInitBody_epoch (len : BitVec 48) (s : State) (e : Nat) :
    unpackInitBody len { s with epoch := e } = (unpackInitBody len s).withEpoch e := by
  unfold unpackInitBody
  rw [wfTree_epoch]
  dsimp only
  split
  · split
    · rfl
    · split <;> rfl
  · rfl

theorem unpackByteBody_epoch (h : UnpackOk s) (hm : s.mode = .unpack) (b : Byte) :
    unpackByteBody b { s with epoch := e } = (unpackByteBody b s).withEpoch e := by
  obtain ⟨hwf, hroot, hcur⟩ := h hm
  unfold unpackByteBody
  dsimp only
  split
  · rfl
  next hbits =>
  rw [show bitsTaken { s with epoch := e } = bitsTaken s from rfl,
    unpackBits_epoch hwf (hroot hbits) _ hcur]
  split <;> rfl

theorem unpackEndBody_epoch (s : State) (e : Nat) :
    unpackEndBody { s with epoch := e } = (unpackEndBody s).withEpoch e := by
  unfold unpackEndBody
  dsimp only
  split
  · rfl
  · split <;> rfl

/-- A value with a code has its bits written. -/
theorem packByteBody_epoch (h : CodeOk s) (b : Byte) :
    packByteBody b { s with epoch := e } = (packByteBody b s).withEpoch e := by
  unfold packByteBody
  rw [show codeLenAt { s with epoch := e } b = codeLenAt s b from rfl]
  split
  · rfl
  next hlen =>
  obtain ⟨w, hw, -⟩ := h b hlen
  have hbits : codeBitsAt { s with epoch := e } b = codeBitsAt s b := by
    unfold codeBitsAt
    simp only [hw]
  have hcode : codeOf { s with epoch := e } b = codeOf s b := by
    unfold codeOf
    rw [hbits]
    rfl
  rw [hcode]
  rfl

theorem packFlushBody_epoch (s : State) (e : Nat) :
    packFlushBody { s with epoch := e } = (packFlushBody s).withEpoch e := by
  unfold packFlushBody
  dsimp only
  split <;> rfl

theorem nodeWrBody_epoch (idx : NodeIx) (k : Kind) (v : Byte) (l r : NodeIx) (s : State) (e : Nat) :
    nodeWrBody idx k v l r { s with epoch := e } = (nodeWrBody idx k v l r s).withEpoch e := by
  unfold nodeWrBody
  split <;> rfl

/-! ### The deserializer -/

theorem deserInitBody_epoch (s : State) (e : Nat) :
    deserInitBody { s with epoch := e } = (deserInitBody s).withEpoch e := by
  unfold deserInitBody
  dsimp only
  split <;> rfl

theorem finishToken_epoch (budget : BitVec 13) {s t : State} (h : t = { s with epoch := e }) :
    finishToken budget t = (finishToken budget s).withEpoch e := by
  subst h
  unfold finishToken
  dsimp only
  split
  · split <;> rfl
  · split <;> rfl

/-- A live stack entry has been written, and so has the parent it names. -/
theorem slotOk_cases {k : Nat} (h : slotOk s k = true) :
    ∃ x, tblGet s.stack k = some x ∧
      (x.parent = Config.nil ∨ (nodeEntry s x.parent.toNat).valid = true) := by
  unfold slotOk at h
  split at h
  · cases h
  next x hx =>
  refine ⟨x, hx, ?_⟩
  rw [Bool.or_eq_true, Bool.and_eq_true] at h
  obtain hnil | ⟨-, hv⟩ := h
  · exact .inl (by simpa using hnil)
  · split at hv
    · cases hv
    · next n hn => exact .inr (by rw [nodeEntry_of_listed hn]; exact hv)

theorem slotAt_epoch {k : Nat} (h : slotOk s k = true) :
    slotAt { s with epoch := e } k = slotAt s k := by
  obtain ⟨x, hx, -⟩ := slotOk_cases h
  unfold slotAt
  simp only [hx]

/-- Filling a live position reads the parent it names, which is valid, also with the new node in. -/
theorem attach_setNode_epoch {k : Nat} (h : slotOk s k = true) (n : NodeIx) {node : Node}
    (hv : node.valid = true) :
    attach (slotAt s k) n (setNode { s with epoch := e } n node) =
      { attach (slotAt s k) n (setNode s n node) with epoch := e } := by
  obtain ⟨x, hx, hparent⟩ := slotOk_cases h
  have hslot : slotAt s k = x := by unfold slotAt; simp only [hx]
  rw [hslot]
  unfold attach
  split
  · rfl
  next hnil =>
  have hpv : (nodeEntry (setNode s n node) x.parent.toNat).valid = true := by
    rw [nodeEntry_setNode]
    split
    · exact hv
    · exact hparent.resolve_left hnil
  have hread := nodeEntry_epoch_of_valid (e := e) hpv
  dsimp only
  rw [show setNode { s with epoch := e } n node = { setNode s n node with epoch := e } from rfl,
    hread]
  split <;> rfl

theorem placeToken_epoch {node : Node} (hv : node.valid = true) (opens : Bool)
    (budget : BitVec 13) (hslot : s.sp ≠ 0#10 → slotOk s (s.sp.toNat - 1) = true) :
    placeToken node opens budget { s with epoch := e } =
      (placeToken node opens budget s).withEpoch e := by
  unfold placeToken
  dsimp only
  split
  · rfl
  split
  · rfl
  split
  · rfl
  next hsp =>
  have hlive := hslot (not_or.1 hsp).1
  rw [slotAt_epoch hlive, attach_setNode_epoch hlive _ hv]
  split
  · split
    · exact finishToken_epoch budget rfl
    · rfl
  · exact finishToken_epoch budget rfl

theorem deserByteBody_epoch (h : DeserOk s) (hm : s.mode = .deser) (b : Byte) :
    deserByteBody b { s with epoch := e } = (deserByteBody b s).withEpoch e := by
  obtain ⟨-, hopen, -⟩ := h
  obtain ⟨-, -, -, hlive⟩ := hopen hm
  have hslot : s.sp ≠ 0#10 → slotOk s (s.sp.toNat - 1) = true := fun hsp =>
    hlive _ (Nat.sub_one_lt fun e => hsp (BitVec.eq_of_toNat_eq e))
  unfold deserByteBody
  dsimp only
  split
  · rfl
  split
  · split <;> rfl
  · exact placeToken_epoch rfl _ _ hslot
  · exact placeToken_epoch rfl _ _ hslot

/-! ### The commands -/

theorem ownRule_epoch {i : Instr} (h : Consistent s) (ha : accepts i s.mode = true) :
    ownRule i { s with epoch := e } = (ownRule i s).withEpoch e := by
  obtain ⟨-, -, -, hdeser, hcode, hunpack⟩ := h
  cases i with
  | nodeWr idx k v l r => exact nodeWrBody_epoch idx k v l r s e
  | codegen => exact codegenBody_epoch s e
  | ser => exact serBody_epoch s e
  | deserInit => exact deserInitBody_epoch s e
  | deserByte b => exact deserByteBody_epoch hdeser (eq_of_beq ha) b
  | packByte b => exact packByteBody_epoch hcode b
  | packFlush => exact packFlushBody_epoch s e
  | unpackInit len => exact unpackInitBody_epoch len s e
  | unpackByte b => exact unpackByteBody_epoch hunpack (eq_of_beq ha) b
  | unpackEnd => exact unpackEndBody_epoch s e
  | _ => rfl

theorem raiseIn_epoch (i : Instr) (x : Err) (s : State) (e : Nat) :
    raiseIn i x { s with epoch := e } = { raiseIn i x s with epoch := e } := by
  unfold raiseIn errorEntry
  dsimp only
  split <;> rfl

theorem perform_epoch {i : Instr} {body : State → Ending} {t : State}
    (hb : accepts i s.mode = true → body { s with epoch := e } = (body s).withEpoch e)
    (h : perform i body s = .next t) :
    perform i body { s with epoch := e } = .next { t with epoch := e } := by
  obtain ⟨he, rfl⟩ | ⟨he, ha, hd⟩ | ⟨he, ha, x, hr, rfl⟩ | ⟨he, ha, rfl⟩ := perform_cases h
  · exact perform_discard he
  · exact perform_done he ha (by rw [hb ha, hd]; rfl)
  · rw [← raiseIn_epoch]
    exact perform_raise he ha (by rw [hb ha, hr]; rfl)
  · rw [← raiseIn_epoch]
    exact perform_sequence he ha

/-- Settles O57: dispatch and every command's own rule commute with exchanging the counter. -/
theorem freeValuesUnread : Obligations.FreeValuesUnread := by
  intro i s t e hs h
  by_cases hr : i = .reset
  · subst hr; cases h; rfl
  by_cases hc : i = .errClr
  · subst hc; cases h; rfl
  rw [exec_eq_perform hr hc] at h ⊢
  exact perform_epoch (ownRule_epoch hs) h

end Sys2Proof.Machine
end

section
/-! PROOFS. 20_memory.md R70: words as numbers, and the byte form of a word. -/

namespace Sys2Proof

/-! ### Words as numbers -/

/-- A field above `n` lower bits counts with weight `2 ^ n`. -/
theorem toNat_append_eq_add {m n : Nat} (x : BitVec m) (y : BitVec n) :
    (x ++ y).toNat = x.toNat * 2 ^ n + y.toNat := by
  rw [BitVec.toNat_append, ← Nat.shiftLeft_add_eq_or_of_lt y.isLt, Nat.shiftLeft_eq]

theorem toNat_bits (w : Word) (hi lo : Nat) :
    (bits w hi lo).toNat = w.toNat / 2 ^ lo % 2 ^ (hi - lo + 1) := by
  rw [bits, BitVec.extractLsb_toNat, Nat.shiftRight_eq_div_pow]

/-! ### The byte form of a word -/

theorem bits_eq_ofNat (w : Word) (hi lo : Nat) :
    bits w hi lo = BitVec.ofNat (hi - lo + 1) (w.toNat / 2 ^ lo) :=
  BitVec.eq_of_toNat_eq (by rw [toNat_bits, BitVec.toNat_ofNat])

/-- Each byte of the word by its weight, the most significant first. -/
theorem wordBytes_eq (w : Word) :
    wordBytes w = (List.range 8).map fun k => BitVec.ofNat 8 (w.toNat / 2 ^ (8 * (7 - k))) := by
  simp only [wordBytes, bits_eq_ofNat]
  rfl

theorem takeWord_wordBytes (w : Word) (rest : List Byte) :
    takeWord (wordBytes w ++ rest) = some (w, rest) := by
  rw [wordBytes]
  simp only [List.cons_append, List.nil_append, takeWord, Option.some.injEq, Prod.mk.injEq,
    and_true]
  apply BitVec.eq_of_toNat_eq
  have hw := w.isLt
  simp only [toNat_append_eq_add, toNat_bits]
  omega

theorem decodeBytes_wordBytes {w : Word} {i : Instr} (h : decode w = .ok i) (rest : List Byte) :
    decodeBytes (wordBytes w ++ rest) = .ok (i, rest) := by
  rw [decodeBytes, takeWord_wordBytes]
  simp only [h]

/-- Settles O6: each of the 8 bytes by its weight, and the word is the sum of them. -/
theorem wordBytesBigEndian : Obligations.WordBytesBigEndian := by
  intro w rest
  refine ⟨fun k hk => ?_, takeWord_wordBytes w rest, fun i h => decodeBytes_wordBytes h rest⟩
  rw [wordBytes_eq, List.getElem?_map, List.getElem?_range hk, Option.map_some]

end Sys2Proof
end

section
/-! PROOFS. 30_encoding.md R94, R98, R106: a row that selects a word decodes it, and the operands of
a NODE_WR word. -/

namespace Sys2Proof

/-- A row selects only words of its own opcode: every mask holds all of CW[63:56] (R98). -/
theorem opcode_of_selects {r : Row} (hr : r ∈ rows) {w : Word} (h : r.selects w = true) :
    bits w 63 56 = bits r.pattern 63 56 := by
  have hmask : ∀ r ∈ rows, bits r.mask 63 56 = BitVec.allOnes 8 := by decide
  rw [← eq_of_beq h, bits, bits, BitVec.extractLsb_and]
  exact ((congrArg _ (hmask r hr)).trans (BitVec.and_allOnes ..)).symm

/-- The opcodes of the map are distinct, so no two rows select one word. -/
theorem row_unique {r r' : Row} (hr : r ∈ rows) (hr' : r' ∈ rows) {w : Word}
    (h : r.selects w = true) (h' : r'.selects w = true) : r = r' := by
  have hnodup : (rows.map fun r => bits r.pattern 63 56).Nodup := by decide
  exact List.inj_on_of_nodup_map hnodup hr hr' ((opcode_of_selects hr h).symm.trans
    (opcode_of_selects hr' h'))

/-- The row that selects a word reads its command (R98, R106). -/
theorem decode_of_selects {r : Row} (hr : r ∈ rows) {w : Word} (h : r.selects w = true) :
    decode w = .ok (r.read w) := by
  unfold decode
  split
  · next r' hfind =>
    have hsel : r'.selects w = true := List.find?_some (p := fun x : Row => x.selects w) hfind
    rw [row_unique (List.mem_of_find?_eq_some hfind) hr hsel h]
  · next hnone => exact absurd h (List.find?_eq_none.1 hnone r hr)

theorem kindOfBit_kindBit (k : Kind) : kindOfBit (kindBit k) = k := by cases k <;> rfl

/-- The fields of a word in format W are the operands put into it (R94). -/
theorem readNodeWr_wordW (opc : Byte) (idx : NodeIx) (k : Kind) (v : Byte) (l r : NodeIx) :
    readNodeWr (wordW opc idx (kindBit k) v l r) = .nodeWr idx k v l r := by
  have hidx := idx.isLt
  have hk := (kindBit k).isLt
  have hv := v.isLt
  have hl := l.isLt
  have hr := r.isLt
  have field {hi lo : Nat} {x : BitVec (hi - lo + 1)}
      (h : (wordW opc idx (kindBit k) v l r).toNat / 2 ^ lo % 2 ^ (hi - lo + 1) = x.toNat) :
      bits (wordW opc idx (kindBit k) v l r) hi lo = x :=
    BitVec.eq_of_toNat_eq ((toNat_bits ..).trans h)
  simp only [wordW, toNat_append_eq_add] at field
  rw [readNodeWr, Instr.nodeWr.injEq]
  exact ⟨field (by omega), (congrArg kindOfBit (field (by omega))).trans (kindOfBit_kindBit k),
    field (by omega), field (by omega), field (by omega)⟩

theorem decode_wordW (idx : NodeIx) (k : Kind) (v : Byte) (l r : NodeIx) :
    decode (wordW 0x11#8 idx (kindBit k) v l r) = .ok (.nodeWr idx k v l r) := by
  obtain ⟨row, hrow, hsel⟩ := Laws.MatchesRow.nodeWr idx k v l r
  have hmem := List.mem_of_getElem? hrow
  cases hrow
  rw [← readNodeWr_wordW 0x11#8 idx k v l r]
  exact decode_of_selects hmem hsel

end Sys2Proof
end

section
/-! PROOFS. 20_memory.md R61 to R65: what the read port answers at each range of addresses, each word
as the sum of its fields, and the read as a step. -/

namespace Sys2Proof.Machine

/-! ### The address map -/

theorem toNat_address {n : Nat} (h : n < 2 ^ 16) : (BitVec.ofNat 16 n).toNat = n :=
  (BitVec.toNat_ofNat n 16).trans (Nat.mod_eq_of_lt h)

section

variable (s : State) {a : BitVec 16}

theorem readPort_register (h : a.toNat < 0x0100) : readPort s a = readRegister s a.toNat := by
  rw [readPort, if_pos h]

theorem readPort_node {k : Nat} (hk : k < Config.treeCap) (ha : a.toNat = 0x0100 + k) :
    readPort s a = nodeWord (nodeEntry s k) := by
  simp only [readPort, ha, Config.treeCap, Config.alphabet, Config.stackCap] at hk ⊢
  rw [if_neg (by omega), if_pos (by omega), Nat.add_sub_cancel_left]

theorem readPort_codeLen (v : Byte) (ha : a.toNat = 0x0400 + v.toNat) :
    readPort s a = (codeLenAt s v).setWidth 64 := by
  have hv := v.isLt
  simp only [readPort, ha, Config.treeCap, Config.alphabet, Config.stackCap]
  rw [if_neg (by omega), if_neg (by omega), if_neg (by omega), if_pos (by omega),
    Nat.add_sub_cancel_left, BitVec.ofNat_toNat, BitVec.setWidth_eq]

theorem readPort_codeBits (v : Byte) {w : Nat} (hw : w < 4)
    (ha : a.toNat = 0x0800 + 4 * v.toNat + w) :
    readPort s a = codeBitsPart s v.toNat w := by
  have hv := v.isLt
  simp only [readPort, ha, Config.treeCap, Config.alphabet, Config.stackCap]
  rw [if_neg (by omega), if_neg (by omega), if_neg (by omega), if_neg (by omega),
    if_neg (by omega), if_pos (by omega),
    show (0x0800 + 4 * v.toNat + w - 0x0800) / 4 = v.toNat by omega,
    show (0x0800 + 4 * v.toNat + w - 0x0800) % 4 = w by omega]

theorem readPort_stack {k : Nat} (hk : k < Config.stackCap) (ha : a.toNat = 0x2000 + k) :
    readPort s a = slotWord (slotAt s k) := by
  simp only [readPort, ha, Config.treeCap, Config.alphabet, Config.stackCap] at hk ⊢
  rw [if_neg (by omega), if_neg (by omega), if_neg (by omega), if_neg (by omega),
    if_neg (by omega), if_neg (by omega), if_neg (by omega), if_pos (by omega),
    Nat.add_sub_cancel_left]

theorem readRegister_of_le {n : Nat} (h : 9 ≤ n) : readRegister s n = 0#64 := by
  obtain ⟨n, rfl⟩ := Nat.exists_eq_add_of_le' h
  rfl

/-- An address in none of the five ranges reads 0 (R63). -/
theorem readPort_unlisted
    (h : 0x0009 ≤ a.toNat ∧ a.toNat < 0x0100 ∨ 0x02FF ≤ a.toNat ∧ a.toNat < 0x0400 ∨
      0x0500 ≤ a.toNat ∧ a.toNat < 0x0800 ∨ 0x0C00 ≤ a.toNat ∧ a.toNat < 0x2000 ∨
      0x2200 ≤ a.toNat) : readPort s a = 0#64 := by
  simp only [readPort, Config.treeCap, Config.alphabet, Config.stackCap]
  split_ifs
  · exact readRegister_of_le s (by omega)
  · omega
  · rfl
  · omega
  · rfl
  · omega
  · rfl
  · omega
  · rfl

/-! ### The words of the map as numbers -/

theorem bitOf_toNat (b : Bool) : (bitOf b).toNat = b.toNat := by cases b <;> rfl

theorem statusWord_toNat :
    (statusWord s).toNat = s.err.toNat + (modeCode s.mode).toNat * 2 ^ 8 := by
  simp only [statusWord, toNat_append_eq_add, BitVec.toNat_zero]
  omega

theorem packHeader_toNat (pad : BitVec 3) (tbc : BitVec 13) :
    (packHeader pad tbc).toNat = tbc.toNat + pad.toNat * 2 ^ 13 := by
  rw [packHeader, toNat_append_eq_add, Nat.add_comm]

theorem packerWord_toNat : (packerWord s).toNat = s.acc.toNat + s.accCnt.toNat * 2 ^ 8 := by
  simp only [packerWord, toNat_append_eq_add, BitVec.toNat_zero]
  omega

theorem deserWord_toNat :
    (deserWord s).toNat = s.budget.toNat + s.escPending.toNat * 2 ^ 13 +
      s.nextNode.toNat * 2 ^ 16 + s.sp.toNat * 2 ^ 32 := by
  simp only [deserWord, toNat_append_eq_add, bitOf_toNat, BitVec.toNat_zero]
  omega

theorem configWord_toNat :
    (configWord s).toNat = s.params.sentinelByte.toNat + s.params.escapeByte.toNat * 2 ^ 8 +
      511 * 2 ^ 16 := by
  simp only [configWord, Config.treeCap, toNat_append_eq_add, BitVec.toNat_ofNat]
  omega

theorem nodeWord_toNat (n : Node) :
    (nodeWord n).toNat = n.right.toNat + n.left.toNat * 2 ^ 9 + n.value.toNat * 2 ^ 18 +
      (kindBit n.kind).toNat * 2 ^ 26 + n.valid.toNat * 2 ^ 27 := by
  simp only [nodeWord, toNat_append_eq_add, bitOf_toNat, BitVec.toNat_zero]
  omega

theorem slotWord_toNat (x : Slot) :
    (slotWord x).toNat = x.parent.toNat + x.side.toNat * 2 ^ 9 := by
  simp only [slotWord, toNat_append_eq_add, BitVec.toNat_zero]
  omega

theorem codeBitsPart_getLsbD (v : Byte) (w : Nat) {j : Nat} (hj : j < 64) :
    (codeBitsPart s v.toNat w).getLsbD j = (codeBitsAt s v).getLsbD (64 * w + j) := by
  rw [codeBitsPart, BitVec.ofNat_toNat, BitVec.setWidth_eq, BitVec.getLsbD_extractLsb',
    decide_eq_true hj, Bool.true_and]

/-- Bits 26:0 of a node's word under an opcode and an index are format W (30_encoding.md R94). -/
theorem wordW_of_nodeWord (idx : NodeIx) (n : Node) :
    0x1100000000000000#64 ||| (idx.setWidth 64 <<< 27) |||
        (nodeWord n &&& 0x0000000007FFFFFF#64) =
      wordW 0x11#8 idx (kindBit n.kind) n.value n.left n.right := by
  apply BitVec.eq_of_getLsbD_eq
  intro i hi
  simp only [nodeWord, wordW, BitVec.getLsbD_or, BitVec.getLsbD_and, BitVec.getLsbD_append]
  interval_cases i <;> simp

/-! ### The read as a step -/

theorem step_read {rest : List HostInput} (h : s.inputs = .read a :: rest) :
    step s = .next (performRead a (takeInput s rest)) := by
  unfold step serve
  rw [h]
  rfl

theorem step_idle (h : s.inputs = []) : step s = .next s := by
  unfold step serve
  rw [h]

end

/-! ### The obligations -/

/-- Settles O58: each register's word is its named word, and that is the sum of its fields. -/
theorem readPortRegisters : Obligations.ReadPortRegisters := by
  intro s
  have register (n : Nat) (h : n < 0x0100) : readPort s (BitVec.ofNat 16 n) = readRegister s n := by
    have hn := toNat_address (n := n) (by omega)
    rw [readPort_register s (hn.symm ▸ h), hn]
  have toNat_field {w : Nat} (x : BitVec w) (h : w ≤ 64) : (x.setWidth 64).toNat = x.toNat :=
    BitVec.toNat_setWidth_of_le h
  simp only [register, Nat.reduceLT, readRegister]
  exact ⟨statusWord_toNat s, trivial, (toNat_field _ (by decide)).trans (packHeader_toNat _ _),
    toNat_field _ (by decide), packerWord_toNat s, toNat_field _ (by decide),
    toNat_field _ (by decide), deserWord_toNat s, configWord_toNat s⟩

/-- Settles O59: the map's ranges are disjoint, and each of the memories' words is the sum of its
fields. -/
theorem readPortMemories : Obligations.ReadPortMemories := by
  intro s
  refine ⟨fun k hk => ?_, fun v => ?_, fun v w hw j hj => ?_, fun k hk => ?_,
    fun a ha => readPort_unlisted s ha⟩
  · rw [readPort_node s hk (toNat_address (by omega)), nodeWord_toNat]
  · rw [readPort_codeLen s v (toNat_address (by omega)), BitVec.toNat_setWidth_of_le (by decide)]
  · rw [readPort_codeBits s v hw (toNat_address (by omega)), codeBitsPart_getLsbD s v w hj]
  · rw [readPort_stack s hk (toNat_address (by omega)), slotWord_toNat]

/-- Settles O60: the word made of the index and the node's word is format W, which decodes to its
operands. -/
theorem nodeReadWritesBack : Obligations.NodeReadWritesBack := by
  intro s idx n h
  have hidx : idx ≠ Config.nil := by rintro rfl; cases h
  rw [readPort_node s (toNat_lt_treeCap hidx) (toNat_address (by omega)), nodeEntry_of_nodeAt h,
    wordW_of_nodeWord, decode_wordW]

/-- Settles O9: the host's lists are no part of what an address reads. -/
theorem readsHaveNoSideEffect : Obligations.ReadsHaveNoSideEffect :=
  ⟨fun s _ _ h => ⟨_, step_read s h, rfl, fun _ => rfl⟩, fun s h => step_idle s h⟩

end Sys2Proof.Machine
end

section
/-! PROOFS. 20_memory.md R66, R73: how many bytes a command appends to OUT. -/

namespace Sys2Proof.Machine

/-! ### The emitting loops -/

theorem leafToken_length_le (p : Config.Params) (v : Byte) : (leafToken p v).length ≤ 2 := by
  unfold leafToken
  split
  · exact Nat.le_refl 2
  · exact Nat.le_succ 1

/-- Each round of the serializer's loop pays three half bytes for the unit of fuel and one for each
index held: a leaf gives back its index for its two bytes, an Internal node holds one index more for
its one byte. -/
theorem serWalk_length_le (s : State) (fuel : Nat) : ∀ todo : List NodeIx,
    2 * (serWalk s fuel todo).length ≤ 3 * fuel + todo.length := by
  induction fuel with
  | zero => intro todo; cases todo <;> simp [serWalk]
  | succ fuel ih =>
    intro todo
    cases todo with
    | nil => simp [serWalk]
    | cons i todo =>
      rw [serWalk]
      split
      · have hrest := ih ((nodeEntry s i.toNat).left :: (nodeEntry s i.toNat).right :: todo)
        simp only [List.length_cons] at hrest ⊢
        omega
      · have hrest := ih todo
        have htoken := leafToken_length_le s.params (nodeEntry s i.toNat).value
        simp only [List.length_cons, List.length_append]
        omega

/-- 41_tree_serializer.md R152: no serial form is longer than 767 bytes. -/
theorem serBytes_length_le (s : State) : (serBytes s).length ≤ 767 := by
  unfold serBytes
  split
  · exact Nat.zero_le _
  · have h := serWalk_length_le s Config.treeCap [s.root]
    simp only [Config.treeCap, List.length_singleton] at h ⊢
    omega

/-- Each byte the packer's loop emits takes 8 of the bits pending and given. -/
theorem packBits_emitted_length_le (bs : List Bool) : ∀ (acc : Byte) (n : Nat),
    8 * (packBits bs acc n).emitted.length ≤ n + bs.length := by
  induction bs with
  | nil => exact fun _ _ => Nat.zero_le _
  | cons b bs ih =>
    intro acc n
    rw [packBits]
    split
    · have hrest := ih 0#8 0
      simp only [List.length_cons]
      omega
    · have hrest := ih (pushBit acc b) (n + 1)
      simp only [List.length_cons]
      omega

theorem codeOf_length (s : State) (v : Byte) : (codeOf s v).length = (codeLenAt s v).toNat := by
  simp only [codeOf, codeString, List.length_map, List.length_range]

theorem emitFirst_ok {v : Byte} {w : Walked} {cur : NodeIx} {bs : List Byte}
    (h : emitFirst v w = .ok cur bs) : ∃ rest, w = .ok cur rest ∧ bs = v :: rest := by
  obtain ⟨rest, rfl⟩ := emitFirst_eq_ok h
  cases h
  exact ⟨rest, rfl, rfl⟩

/-- Each bit of the unpacker's loop emits one byte at most. -/
theorem unpackBits_length_le {s : State} (bits : List Bool) :
    ∀ {cur last : NodeIx} {out : List Byte},
      unpackBits s bits cur = .ok last out → out.length ≤ bits.length := by
  induction bits with
  | nil => intro cur last out h; cases h; exact Nat.le_refl 0
  | cons b bits ih =>
    have emits {v : Byte} {cur last : NodeIx} {out : List Byte}
        (h : emitFirst v (unpackBits s bits cur) = .ok last out) :
        out.length ≤ (b :: bits).length := by
      obtain ⟨rest, hrest, rfl⟩ := emitFirst_ok h
      exact Nat.succ_le_succ (ih hrest)
    intro cur last out h
    rw [unpackBits] at h
    split at h
    · cases h
    split at h
    · split at h
      · cases h
      · exact emits h
    split at h
    · cases h
    dsimp only at h
    split at h
    · cases h
    split at h
    · exact emits h
    · exact (ih h).trans (Nat.le_succ _)

/-! ### The commands -/

/-- A completed command appends to OUT within its bound. -/
theorem Completes.emits {s t : State} {i : Instr} (hc : Completes s i t) :
    ∃ bs, t.out = s.out ++ bs ∧ bs.length ≤ emitBound i := by
  cases hc with
  | ser => exact ⟨_, rfl, serBytes_length_le s⟩
  | @packByte b r _ hr =>
    refine ⟨_, rfl, ?_⟩
    have hbits := packBits_emitted_length_le (codeOf s b) s.acc s.accCnt.toNat
    have hlen := (codeLenAt s b).isLt
    have hcnt := s.accCnt.isLt
    rw [← hr, codeOf_length] at hbits
    show r.emitted.length ≤ 32
    omega
  | packFlush => exact ⟨_, rfl, Nat.le_refl 1⟩
  | @unpackByte b cur bs _ hwalk =>
    have hbits := unpackBits_length_le _ hwalk
    rw [payloadBits, List.length_map, List.length_range] at hbits
    exact ⟨bs, rfl, hbits.trans (Nat.min_le_left _ _)⟩
  | _ => exact ⟨[], (List.append_nil _).symm, Nat.zero_le _⟩

/-- No error is pending after a command completes. -/
theorem Completes.err_eq_zero {s t : State} {i : Instr} (hc : Completes s i t)
    (hd : s.err = 0#8 ∨ i = .reset ∨ i = .errClr) : t.err = 0#8 := by
  obtain ⟨he, -, hr, hclr⟩ | ⟨he, -⟩ := hc.status
  · exact he.trans (hd.resolve_right (not_or.2 ⟨hr, hclr⟩))
  · exact he

theorem errorEntry_out (e : Err) (cw : Word) (d : Bool) (s : State) :
    (errorEntry e cw d s).out = s.out := by rw [errorEntry_eq]

theorem exec_emits {i : Instr} {s t : State} (h : exec i s = .next t) :
    ∃ bs, t.out = s.out ++ bs ∧ bs.length ≤ emitBound i ∧ (t.err ≠ 0#8 → bs = []) := by
  obtain ⟨-, rfl⟩ | ⟨e, rfl⟩ | ⟨hd, -, hc⟩ := exec_cases h
  · exact ⟨[], (List.append_nil _).symm, Nat.zero_le _, fun _ => rfl⟩
  · exact ⟨[], by rw [raiseIn, errorEntry_out, List.append_nil], Nat.zero_le _, fun _ => rfl⟩
  · obtain ⟨bs, hout, hlen⟩ := hc.emits
    exact ⟨bs, hout, hlen, fun he => absurd (hc.err_eq_zero hd) he⟩

/-- OUT is append-only: a step that performs no command leaves it as it is. -/
theorem step_emits {s t : State} (h : step s = .next t) : ∃ bs, t.out = s.out ++ bs := by
  obtain ⟨-, rfl⟩ | ⟨cw, rest, i, -, -, hx⟩ | ⟨cw, rest, e, -, -, hx⟩ | ⟨a, rest, -, rfl⟩ |
    ⟨ab, rest, -, rfl⟩ := step_cases h
  · exact ⟨[], (List.append_nil _).symm⟩
  · obtain ⟨bs, hout, -⟩ := exec_emits hx
    exact ⟨bs, hout⟩
  · obtain ⟨-, rfl⟩ | ⟨-, rfl⟩ := performIllegal_cases hx
    · exact ⟨[], (List.append_nil _).symm⟩
    · exact ⟨[], by rw [errorEntry_out, takeInput_out, List.append_nil]⟩
  · exact ⟨[], (List.append_nil _).symm⟩
  · exact ⟨[], (List.append_nil _).symm⟩

/-- Settles O47. Only the three loops and the packer's last byte append, each within its bound; an
error appends nothing, and a command that completes leaves none pending. -/
theorem emissionBounds : Obligations.EmissionBounds :=
  ⟨fun _ _ _ h => exec_emits h, fun _ _ h => step_emits h⟩

end Sys2Proof.Machine
end

section
/-! PROOFS. 30_encoding.md R90 to R101, R106: the opcode map, and that decode and encode are inverse to
each other. -/

namespace Sys2Proof

/-! ### What decode answers -/

theorem decode_eq_ok_iff {w : Word} {i : Instr} :
    decode w = .ok i ↔ ∃ r ∈ rows, r.selects w = true ∧ r.read w = i := by
  constructor
  · intro h
    unfold decode at h
    split at h
    · next r hfind =>
      exact ⟨r, List.mem_of_find?_eq_some hfind,
        List.find?_some (p := fun x : Row => x.selects w) hfind, Except.ok.inj h⟩
    · cases h
  · rintro ⟨r, hr, hsel, rfl⟩
    exact decode_of_selects hr hsel

theorem decode_of_not_selects {w : Word} (h : ∀ r ∈ rows, ¬ r.selects w = true) :
    decode w =
      .error (if rows.any (·.sameOpcode w) then .reservedBit else .unassignedOpcode) := by
  unfold decode
  rw [List.find?_eq_none.2 h]

theorem any_sameOpcode_iff (w : Word) :
    rows.any (·.sameOpcode w) = true ↔ bits w 63 56 ∈ rows.map fun r => bits r.pattern 63 56 := by
  rw [List.any_eq_true, List.mem_map]
  exact exists_congr fun r => and_congr_right fun _ => beq_iff_eq.trans eq_comm

theorem decode_eq_unassignedOpcode_iff (w : Word) :
    decode w = .error .unassignedOpcode ↔
      bits w 63 56 ∉ rows.map fun r => bits r.pattern 63 56 := by
  rw [← any_sameOpcode_iff]
  by_cases hsel : ∃ r ∈ rows, r.selects w = true
  · obtain ⟨r, hr, hrw⟩ := hsel
    have hany : rows.any (·.sameOpcode w) = true :=
      List.any_eq_true.2 ⟨r, hr, beq_iff_eq.2 (opcode_of_selects hr hrw)⟩
    simp [decode_of_selects hr hrw, hany]
  · rw [decode_of_not_selects fun r hr hrw => hsel ⟨r, hr, hrw⟩]
    cases rows.any (·.sameOpcode w) <;> simp

/-! ### The operands of a command's word -/

theorem bits_eq_of_toNat {w : Word} {hi lo : Nat} {x : BitVec (hi - lo + 1)}
    (h : w.toNat / 2 ^ lo % 2 ^ (hi - lo + 1) = x.toNat) : bits w hi lo = x :=
  BitVec.eq_of_toNat_eq ((toNat_bits w hi lo).trans h)

theorem fieldByte_wordB (opc b : Byte) : fieldByte (wordB opc b) = b :=
  bits_eq_of_toNat (by have := b.isLt; simp only [wordB, toNat_append_eq_add]; omega)

theorem fieldRootIdx_wordR (opc : Byte) (idx : NodeIx) : fieldRootIdx (wordR opc idx) = idx :=
  bits_eq_of_toNat (by have := idx.isLt; simp only [wordR, toNat_append_eq_add]; omega)

theorem fieldHb0_wordH (opc hb0 hb1 : Byte) : fieldHb0 (wordH opc hb0 hb1) = hb0 :=
  bits_eq_of_toNat (by
    have := hb0.isLt; have := hb1.isLt; simp only [wordH, toNat_append_eq_add]; omega)

theorem fieldHb1_wordH (opc hb0 hb1 : Byte) : fieldHb1 (wordH opc hb0 hb1) = hb1 :=
  bits_eq_of_toNat (by have := hb1.isLt; simp only [wordH, toNat_append_eq_add]; omega)

theorem fieldLen_wordL (opc : Byte) (len : BitVec 48) : fieldLen (wordL opc len) = len :=
  bits_eq_of_toNat (by have := len.isLt; simp only [wordL, toNat_append_eq_add]; omega)

theorem matchesRow (i : Instr) : Laws.MatchesRow.Statement i := by
  cases i with
  | nop => exact Laws.MatchesRow.nop
  | reset => exact Laws.MatchesRow.reset
  | errClr => exact Laws.MatchesRow.errClr
  | treeClear => exact Laws.MatchesRow.treeClear
  | nodeWr idx k v l r => exact Laws.MatchesRow.nodeWr idx k v l r
  | rootWr idx => exact Laws.MatchesRow.rootWr idx
  | codegen => exact Laws.MatchesRow.codegen
  | ser => exact Laws.MatchesRow.ser
  | deserInit => exact Laws.MatchesRow.deserInit
  | deserByte b => exact Laws.MatchesRow.deserByte b
  | packInit => exact Laws.MatchesRow.packInit
  | packByte b => exact Laws.MatchesRow.packByte b
  | packFlush => exact Laws.MatchesRow.packFlush
  | hdrLoad hb0 hb1 => exact Laws.MatchesRow.hdrLoad hb0 hb1
  | unpackInit len => exact Laws.MatchesRow.unpackInit len
  | unpackByte b => exact Laws.MatchesRow.unpackByte b
  | unpackEnd => exact Laws.MatchesRow.unpackEnd

/-- The command's own row reads its operands back from its word (R106). -/
theorem read_encode {i : Instr} {r : Row} (h : rows[Laws.MatchesRow.rowIndex i]? = some r) :
    r.read (encode i) = i := by
  cases i with
  | nodeWr idx k v x y => cases h; exact readNodeWr_wordW 0x11#8 idx k v x y
  | rootWr idx => cases h; exact congrArg Instr.rootWr (fieldRootIdx_wordR 0x12#8 idx)
  | deserByte b => cases h; exact congrArg Instr.deserByte (fieldByte_wordB 0x29#8 b)
  | packByte b => cases h; exact congrArg Instr.packByte (fieldByte_wordB 0x31#8 b)
  | hdrLoad hb0 hb1 =>
    cases h
    exact congrArg₂ Instr.hdrLoad (fieldHb0_wordH 0x38#8 hb0 hb1) (fieldHb1_wordH 0x38#8 hb0 hb1)
  | unpackInit len => cases h; exact congrArg Instr.unpackInit (fieldLen_wordL 0x40#8 len)
  | unpackByte b => cases h; exact congrArg Instr.unpackByte (fieldByte_wordB 0x41#8 b)
  | _ => cases h; rfl

theorem decode_encode (i : Instr) : decode (encode i) = .ok i := by
  obtain ⟨r, hrow, hsel⟩ := matchesRow i
  rw [decode_of_selects (List.mem_of_getElem? hrow) hsel, read_encode hrow]

/-! ### The word of a decoded command -/

/-- Every mask of the map holds the bits from some `n` up: a word that agrees with a pattern there is
the pattern and its own bits below `n`. -/
theorem toNat_of_masked {m : Nat} {w p : BitVec m} (n : Nat)
    (h : w &&& (BitVec.allOnes m <<< n) = p) : w.toNat = p.toNat + w.toNat % 2 ^ n := by
  have hw : w.toNat / 2 ^ n * 2 ^ n + w.toNat % 2 ^ n = w.toNat := Nat.div_add_mod' ..
  have hlt : w.toNat / 2 ^ n * 2 ^ n < 2 ^ m := lt_of_le_of_lt (by omega) w.isLt
  rw [← h, ← BitVec.shiftLeft_ushiftRight, BitVec.toNat_shiftLeft, BitVec.toNat_ushiftRight,
    Nat.shiftRight_eq_div_pow, Nat.shiftLeft_eq, Nat.mod_eq_of_lt hlt, hw]

theorem wordB_fieldByte {w : Word} {opc : Byte}
    (h : w &&& 0xFFFFFFFFFFFFFF00#64 = wordB opc 0#8) : wordB opc (fieldByte w) = w := by
  have hw := toNat_of_masked 8 h
  apply BitVec.eq_of_toNat_eq
  simp only [wordB, fieldByte, toNat_append_eq_add, toNat_bits, BitVec.toNat_ofNat] at hw ⊢
  omega

theorem wordR_fieldRootIdx {w : Word} {opc : Byte}
    (h : w &&& 0xFFFFFFFFFFFFFE00#64 = wordR opc 0#9) : wordR opc (fieldRootIdx w) = w := by
  have hw := toNat_of_masked 9 h
  apply BitVec.eq_of_toNat_eq
  simp only [wordR, fieldRootIdx, toNat_append_eq_add, toNat_bits, BitVec.toNat_ofNat] at hw ⊢
  omega

theorem wordH_fields {w : Word} {opc : Byte}
    (h : w &&& 0xFFFFFFFFFFFF0000#64 = wordH opc 0#8 0#8) :
    wordH opc (fieldHb0 w) (fieldHb1 w) = w := by
  have hw := toNat_of_masked 16 h
  apply BitVec.eq_of_toNat_eq
  simp only [wordH, fieldHb0, fieldHb1, toNat_append_eq_add, toNat_bits, BitVec.toNat_ofNat]
    at hw ⊢
  omega

theorem wordL_fieldLen {w : Word} {opc : Byte}
    (h : w &&& 0xFFFF000000000000#64 = wordL opc 0#48) : wordL opc (fieldLen w) = w := by
  have hw := toNat_of_masked 48 h
  apply BitVec.eq_of_toNat_eq
  simp only [wordL, fieldLen, toNat_append_eq_add, toNat_bits, BitVec.toNat_ofNat] at hw ⊢
  omega

theorem kindBit_kindOfBit (b : BitVec 1) : kindBit (kindOfBit b) = b := by
  revert b
  decide

theorem encode_readNodeWr {w : Word}
    (h : w &&& 0xFFFFFFF000000000#64 = wordW 0x11#8 0#9 0#1 0#8 0#9 0#9) :
    encode (readNodeWr w) = w := by
  have hw := toNat_of_masked 36 h
  apply BitVec.eq_of_toNat_eq
  simp only [readNodeWr, encode, wordW, fieldNodeIdx, fieldKind, fieldValue, fieldLeft, fieldRight,
    kindBit_kindOfBit, toNat_append_eq_add, toNat_bits, BitVec.toNat_ofNat] at hw ⊢
  omega

/-- A word that a row selects is the pattern's bits and the operands the row reads, with nothing
besides (R98). -/
theorem encode_read {r : Row} (hr : r ∈ rows) {w : Word} (h : r.selects w = true) :
    encode (r.read w) = w := by
  have hw : w &&& r.mask = r.pattern := eq_of_beq h
  have fixed {p : Word} (hp : w &&& 0xFFFFFFFFFFFFFFFF#64 = p) : p = w :=
    hp.symm.trans BitVec.and_allOnes
  simp only [rows, List.mem_cons, List.not_mem_nil, or_false] at hr
  rcases hr with rfl | rfl | rfl | rfl | rfl | rfl | rfl | rfl | rfl | rfl | rfl | rfl | rfl | rfl |
    rfl | rfl | rfl
  exacts [fixed hw, fixed hw, fixed hw, fixed hw, encode_readNodeWr hw,
    wordR_fieldRootIdx (opc := 0x12#8) hw, fixed hw, fixed hw, fixed hw,
    wordB_fieldByte (opc := 0x29#8) hw, fixed hw, wordB_fieldByte (opc := 0x31#8) hw, fixed hw,
    wordH_fields (opc := 0x38#8) hw, wordL_fieldLen (opc := 0x40#8) hw,
    wordB_fieldByte (opc := 0x41#8) hw, fixed hw]

theorem encode_of_decode {w : Word} {i : Instr} (h : decode w = .ok i) : encode i = w := by
  obtain ⟨r, hr, hsel, rfl⟩ := decode_eq_ok_iff.1 h
  exact encode_read hr hsel

/-! ### The obligations -/

/-- Settles O1: the command's own row selects its word, and reads every operand back. -/
theorem decodeOfEncode : Obligations.DecodeOfEncode := fun i _ => decode_encode i

/-- Settles O2: the row that decodes a word leaves no bit of it free. -/
theorem encodeOfDecode : Obligations.EncodeOfDecode := fun _ _ h => encode_of_decode h

/-- Settles O4: a word has one opcode, and no two rows share one. -/
theorem oneRowPerWord : Obligations.OneRowPerWord := by
  have hnodup : rows.Nodup := List.Nodup.of_map (fun r => bits r.pattern 63 56) (by decide)
  refine List.Pairwise.imp_of_mem (fun ha hb hne w hsel => ?_) hnodup
  exact hne (row_unique ha hb hsel.1 hsel.2)

/-- Settles O5: decode and encode are inverse to each other, and the map's opcodes are the 17. -/
theorem illegalWordsExactly : Obligations.IllegalWordsExactly := by
  intro w
  constructor
  · constructor
    · rintro ⟨e, he⟩ i rfl
      cases he.symm.trans (decode_encode i)
    · intro hno
      cases h : decode w with
      | error e => exact ⟨e, rfl⟩
      | ok i => exact absurd (encode_of_decode h) (hno i)
  · exact decode_eq_unassignedOpcode_iff w

/-- Settles O3: each word is the word of its command. -/
theorem specWordsDecode : Obligations.SpecWordsDecode :=
  ⟨decode_encode .ser, decode_encode (.packByte 0x61#8), decode_encode (.rootWr 0#9),
    decode_encode (.nodeWr 0#9 .internal 0#8 1#9 2#9), decode_encode (.hdrLoad 0x80#8 0x03#8),
    decode_encode (.unpackInit 6#48)⟩

end Sys2Proof
end

section
/-! PROOFS. 30_encoding.md R104: the assembler's lines. -/

namespace Sys2Proof

theorem length_of_operandsFit {ws : List Nat} : ∀ {ns : List Nat}, operandsFit ws ns = true →
    ns.length = ws.length := by
  induction ws with
  | nil =>
    intro ns h
    cases ns with
    | nil => rfl
    | cons n ns => cases h
  | cons w ws ih =>
    intro ns h
    cases ns with
    | nil => cases h
    | cons n ns => exact congrArg (· + 1) (ih (Bool.and_eq_true_iff.1 h).2)

theorem isShortLeaf_eq_true {l : AsmLine} (h : isShortLeaf l = true) :
    ∃ i k v, l = ⟨.nodeWr, [i, k, v]⟩ := by
  unfold isShortLeaf at h
  split at h
  · next i k v hm ho =>
    obtain ⟨m, ops⟩ := l
    cases hm
    cases ho
    exact ⟨i, k, v, rfl⟩
  · cases h

/-- With as many operands as its mnemonic takes, or in the short leaf form, a line names a command. -/
theorem assemble_isSome_of_wellFormed {l : AsmLine} (h : l.wellFormed = true) :
    (assemble l).isSome = true := by
  unfold assemble
  rw [if_pos h]
  obtain hfit | hshort := Bool.or_eq_true_iff.1 h
  · have hlen := length_of_operandsFit hfit
    obtain ⟨m, ops⟩ := l
    cases m with
    | nodeWr =>
      obtain ⟨i, k, v, x, y, rfl⟩ : ∃ i k v x y, ops = [i, k, v, x, y] := by
        match ops, hlen with | [i, k, v, x, y], _ => exact ⟨i, k, v, x, y, rfl⟩
      rfl
    | rootWr | deserByte | packByte | unpackInit | unpackByte =>
      obtain ⟨n, rfl⟩ := List.length_eq_one_iff.1 hlen
      rfl
    | hdrLoad =>
      obtain ⟨x, y, rfl⟩ := List.length_eq_two.1 hlen
      rfl
    | _ =>
      cases List.length_eq_zero_iff.1 hlen
      rfl
  · obtain ⟨i, k, v, rfl⟩ := isShortLeaf_eq_true hshort
    rfl

theorem assemble_of_not_wellFormed {l : AsmLine} (h : ¬ l.wellFormed = true) :
    assemble l = none := if_neg h

theorem assembleWord_isSome (l : AsmLine) : (assembleWord l).isSome = l.wellFormed := by
  rw [assembleWord, Option.isSome_map]
  by_cases h : l.wellFormed = true
  · rw [h, assemble_isSome_of_wellFormed h]
  · rw [assemble_of_not_wellFormed h, Bool.eq_false_of_not_eq_true h, Option.isSome_none]

theorem wellFormed_shortLeaf (i v : Nat) :
    (AsmLine.mk .nodeWr [i, 0, v]).wellFormed =
      (AsmLine.mk .nodeWr [i, 0, v, 511, 511]).wellFormed := by
  simp [AsmLine.wellFormed, Mnemonic.operandWidths, operandsFit, isShortLeaf]

/-- A leaf written with its children left out has NIL for both (R104). -/
theorem assemble_shortLeaf (i v : Nat) :
    assemble ⟨.nodeWr, [i, 0, v]⟩ = assemble ⟨.nodeWr, [i, 0, v, 511, 511]⟩ := by
  unfold assemble
  rw [wellFormed_shortLeaf]
  rfl

/-- Settles O7: every well-formed line names a command, and every command has a word. -/
theorem assemblerRefusesWideOperands : Obligations.AssemblerRefusesWideOperands :=
  ⟨assembleWord_isSome, fun i v => congrArg (Option.map encode) (assemble_shortLeaf i v)⟩

end Sys2Proof
end

section
/-! PROOFS. 40_tree_memory.md R120 to R122, 60_exceptions.md R323: the commands that write the tree
storage. -/

namespace Sys2Proof.Machine

/-! ### A command of IDLE by its own rule -/

section

variable (i : Instr) {s : State} (he : s.err = 0#8) (hm : s.mode = .idle) (hr : i ≠ .reset)
  (hc : i ≠ .errClr) (ha : accepts i .idle = true)

include he hm hr hc ha

/-- With no error pending, a command accepted in IDLE completes there when its own rule does (R310). -/
theorem exec_done_of_idle {t : State} (h : ownRule i s = .done t) : exec i s = .next t := by
  rw [exec_eq_perform hr hc]
  exact perform_done he (hm ▸ ha) h

/-- An error of a command accepted in IDLE writes ERR and ERR_CMD only (R310, R312, R314). -/
theorem exec_raise_of_idle {e : Err} (h : ownRule i s = .raise e) :
    exec i s = .next { s with err := errCode e, errCmd := encode i } := by
  have hd : isDeserByte i = false := by
    cases i with
    | deserByte b => cases ha
    | _ => rfl
  rw [exec_eq_perform hr hc, perform_raise he (hm ▸ ha) h, raiseIn,
    errorEntry_of_not_deser (hm ▸ nofun) hd, ← hm]

end

/-! ### The three commands -/

/-- Settles O19: TREE_CLEAR completes with `clearTree`. -/
theorem treeClearResult : Obligations.TreeClearResult :=
  fun s he hm => ⟨clearTree s, exec_done_of_idle .treeClear he hm nofun nofun rfl rfl,
    rfl, rfl, nodeEntry_clearTree s, rfl⟩

/-- Settles O20: with an index that names an entry the write is `setNode`; NIL is an error in IDLE. -/
theorem nodeWrResult : Obligations.NodeWrResult := by
  intro s idx k v l r he hm
  constructor
  · intro hidx
    exact ⟨_, exec_done_of_idle (.nodeWr idx k v l r) he hm nofun nofun rfl (if_neg hidx),
      nodeAt_setNode_self s hidx _, fun j hj => nodeAt_setNode_ne s hj _, rfl⟩
  · exact fun hidx => exec_raise_of_idle (.nodeWr idx k v l r) he hm nofun nofun rfl (if_pos hidx)

/-- Settles O21: ROOT_WR has no check of its own. -/
theorem rootWrCompletes : Obligations.RootWrCompletes :=
  fun _ idx he hm => exec_done_of_idle (.rootWr idx) he hm nofun nofun rfl rfl

end Sys2Proof.Machine
end

section
/-! PROOFS. 40_tree_memory.md R123, R124: the looping tree check finds exactly the finite trees, and how
large they are. The check holds a list of roots still to visit, so it is compared with the forest at that
list, and a round of the check takes the first root of the forest apart. -/

namespace Sys2Proof.Machine

/-! ### Forests -/

/-- The entries of the second list, in pre-order, form one tree after another, rooted at the entries of
the first. -/
inductive IsForest (s : State) : List NodeIx → List NodeIx → Prop
  | nil : IsForest s [] []
  | cons {i : NodeIx} {todo l m : List NodeIx} (hl : IsTree s i l) (hm : IsForest s todo m) :
      IsForest s (i :: todo) (l ++ m)

theorem isForest_singleton {s : State} {i : NodeIx} {l : List NodeIx} :
    IsForest s [i] l ↔ IsTree s i l := by
  constructor
  · rintro (_ | ⟨hl, _ | _⟩)
    rwa [List.append_nil]
  · intro h
    simpa using IsForest.cons h .nil

/-- The first root of a forest is a valid entry, and the rest of its pre-order is the forest at the other
roots, after its two children when it is Internal. -/
theorem isForest_cons {s : State} {i : NodeIx} {todo l : List NodeIx} :
    IsForest s (i :: todo) l ↔
      ∃ n m, nodeAt s i = some n ∧ n.valid = true ∧ l = i :: m ∧
        ((n.kind = .leaf ∧ IsForest s todo m) ∨
          (n.kind = .internal ∧ IsForest s (n.left :: n.right :: todo) m)) := by
  constructor
  · rintro (_ | ⟨hl, hm⟩)
    cases hl with
    | leaf hn hv hk => exact ⟨_, _, hn, hv, rfl, .inl ⟨hk, hm⟩⟩
    | internal hn hv hk hl hr =>
      exact ⟨_, _, hn, hv, by simp, .inr ⟨hk, .cons hl (.cons hr hm)⟩⟩
  · rintro ⟨n, m, hn, hv, rfl, ⟨hk, hm⟩ | ⟨hk, _ | ⟨hl, _ | ⟨hr, hm⟩⟩⟩⟩
    · exact .cons (.leaf hn hv hk) hm
    · simpa using IsForest.cons (.internal hn hv hk hl hr) hm

/-! ### The check and the forest -/

/-- A round of the check passes exactly when it finds a valid entry not reached before and the rest
passes. -/
theorem wfWalk_succ {s : State} {fuel : Nat} {i : NodeIx} {todo seen : List NodeIx} :
    wfWalk s (fuel + 1) (i :: todo) seen = true ↔
      ∃ n, nodeAt s i = some n ∧ n.valid = true ∧ i ∉ seen ∧
        ((n.kind = .leaf ∧ wfWalk s fuel todo (i :: seen) = true) ∨
          (n.kind = .internal ∧ wfWalk s fuel (n.left :: n.right :: todo) (i :: seen) = true)) := by
  rw [wfWalk]
  cases nodeAt s i with
  | none => simp
  | some n => cases hk : n.kind <;> simp [hk]

/-- A pre-order that starts at `i` repeats nothing and misses `seen` when its rest misses `i` too. -/
theorem nodup_cons_disjoint {i : NodeIx} {m seen : List NodeIx} :
    ((i :: m).Nodup ∧ (i :: m).Disjoint seen) ↔
      i ∉ seen ∧ m.Nodup ∧ m.Disjoint (i :: seen) := by
  rw [List.nodup_cons, List.disjoint_cons_left, List.disjoint_cons_right]
  tauto

/-- The check passes exactly at the forests that repeat no entry, reach none again, and have at most as
many nodes as it has rounds. -/
theorem wfWalk_iff {s : State} {fuel : Nat} : ∀ {todo seen : List NodeIx},
    wfWalk s fuel todo seen = true ↔
      ∃ l, IsForest s todo l ∧ (l.Nodup ∧ l.Disjoint seen) ∧ l.length ≤ fuel := by
  have hnil {fuel : Nat} {seen : List NodeIx} : wfWalk s fuel [] seen = true ↔
      ∃ l, IsForest s [] l ∧ (l.Nodup ∧ l.Disjoint seen) ∧ l.length ≤ fuel :=
    iff_of_true (by cases fuel <;> rfl)
      ⟨[], .nil, ⟨List.nodup_nil, List.disjoint_nil_left seen⟩, Nat.zero_le _⟩
  induction fuel with
  | zero =>
    intro todo seen
    cases todo with
    | nil => exact hnil
    | cons i todo =>
      refine iff_of_false nofun ?_
      rintro ⟨l, hl, -, hlen⟩
      obtain ⟨n, m, -, -, rfl, -⟩ := isForest_cons.1 hl
      cases hlen
  | succ fuel ih =>
    intro todo seen
    cases todo with
    | nil => exact hnil
    | cons i todo =>
      simp only [wfWalk_succ, ih]
      constructor
      · rintro ⟨n, hn, hv, hi, ⟨hk, m, hm, hd, hlen⟩ | ⟨hk, m, hm, hd, hlen⟩⟩
        · exact ⟨i :: m, isForest_cons.2 ⟨n, m, hn, hv, rfl, .inl ⟨hk, hm⟩⟩,
            nodup_cons_disjoint.2 ⟨hi, hd⟩, Nat.succ_le_succ hlen⟩
        · exact ⟨i :: m, isForest_cons.2 ⟨n, m, hn, hv, rfl, .inr ⟨hk, hm⟩⟩,
            nodup_cons_disjoint.2 ⟨hi, hd⟩, Nat.succ_le_succ hlen⟩
      · rintro ⟨_, hl, hd, hlen⟩
        obtain ⟨n, m, hn, hv, rfl, hm⟩ := isForest_cons.1 hl
        obtain ⟨hi, hd⟩ := nodup_cons_disjoint.1 hd
        have hlen := Nat.le_of_succ_le_succ hlen
        exact ⟨n, hn, hv, hi, hm.imp (fun ⟨hk, hm⟩ => ⟨hk, m, hm, hd, hlen⟩)
          fun ⟨hk, hm⟩ => ⟨hk, m, hm, hd, hlen⟩⟩

/-- Distinct entries of the node memory are at most TREE_CAP (R7). -/
theorem length_le_treeCap {l : List NodeIx} (hd : l.Nodup) (hn : ∀ i ∈ l, i ≠ Config.nil) :
    l.length ≤ Config.treeCap := by
  have hsub : l.map BitVec.toNat ⊆ List.range Config.treeCap := by
    intro k hk
    obtain ⟨i, hi, rfl⟩ := List.mem_map.1 hk
    exact List.mem_range.2 (toNat_lt_treeCap (hn i hi))
  have hd' := hd.map (f := BitVec.toNat) fun _ _ h => BitVec.eq_of_toNat_eq h
  simpa using (hd'.subperm hsub).length_le

theorem ne_nil_of_nodeAt {s : State} {i : NodeIx} {n : Node} (hn : nodeAt s i = some n) :
    i ≠ Config.nil := by
  rintro rfl
  cases hn

/-- Every node of a tree is an entry of the node memory. -/
theorem IsTree.ne_nil {s : State} {i : NodeIx} {l : List NodeIx} (h : IsTree s i l) :
    ∀ j ∈ l, j ≠ Config.nil := by
  induction h with
  | leaf hn => simpa using ne_nil_of_nodeAt hn
  | internal hn _ _ _ _ ihl ihr =>
    simp only [List.forall_mem_cons, List.forall_mem_append]
    exact ⟨ne_nil_of_nodeAt hn, ihl, ihr⟩

/-- Settles O22: the check of one root is the walk of a forest of one tree, and no tree without a
repeated node runs out of rounds. -/
theorem wfTreeExactly : Obligations.WfTreeExactly := by
  intro s
  simp only [wfTree, Bool.or_eq_true, beq_iff_eq, wfWalk_iff, isForest_singleton]
  refine or_congr_right (exists_congr fun l => and_congr_right fun hl => ?_)
  exact ⟨fun h => h.1.1,
    fun hd => ⟨⟨hd, List.disjoint_nil_right l⟩, length_le_treeCap hd hl.ne_nil⟩⟩

/-! ### The size of a tree -/

/-- How many entries of `l` have the kind `k`. -/
def countKind (s : State) (k : Kind) (l : List NodeIx) : Nat :=
  l.countP (fun j => (nodeAt s j).any (fun n => n.kind == k))

theorem countKind_nil (s : State) (k : Kind) : countKind s k [] = 0 := rfl

theorem countKind_cons {s : State} {i : NodeIx} {n : Node} (hn : nodeAt s i = some n) (k : Kind)
    (l : List NodeIx) :
    countKind s k (i :: l) = countKind s k l + if n.kind = k then 1 else 0 := by
  simp [countKind, List.countP_cons, hn]

theorem countKind_append (s : State) (k : Kind) (l m : List NodeIx) :
    countKind s k (l ++ m) = countKind s k l + countKind s k m := List.countP_append

/-- A full binary tree has one leaf more than it has Internal nodes, and no other node. -/
theorem IsTree.countKind_eq {s : State} {i : NodeIx} {l : List NodeIx} (h : IsTree s i l) :
    countKind s .leaf l = countKind s .internal l + 1 ∧
      countKind s .leaf l + countKind s .internal l = l.length := by
  induction h with
  | leaf hn _ hk => simp [countKind_cons hn, countKind_nil, hk]
  | internal hn _ hk _ _ ihl ihr =>
    simp only [countKind_cons hn, countKind_append, hk, List.length_cons, List.length_append,
      reduceCtorEq, if_true, if_false]
    omega

/-- A path into a tree passes a node and the root of another subtree at each step. -/
theorem IsTree.path_length {s : State} {i : NodeIx} {l : List NodeIx} (h : IsTree s i l) :
    ∀ {p : List Bool} {j : NodeIx}, follow s i p = some j → 2 * p.length + 1 ≤ l.length := by
  induction h with
  | leaf hn _ hk =>
    intro p j hp
    cases p with
    | nil => simp
    | cons b p =>
      obtain ⟨m, hm, hmk, -⟩ := follow_cons_some hp
      cases hn.symm.trans hm
      cases hk.symm.trans hmk
  | internal hn _ _ _ _ ihl ihr =>
    intro p j hp
    have hl := ihl (p := []) rfl
    have hr := ihr (p := []) rfl
    cases p with
    | nil => simp
    | cons b p =>
      obtain ⟨m, hm, -, hp⟩ := follow_cons_some hp
      cases hn.symm.trans hm
      simp only [List.length_cons, List.length_append, List.length_nil] at hl hr ⊢
      cases b with
      | false => have := ihl hp; omega
      | true => have := ihr hp; omega

/-- Settles O23: all bounds follow from the number of entries, since a path of `d` steps takes `2d + 1`
nodes. -/
theorem treeBounds : Obligations.TreeBounds := by
  intro s hwf hroot
  obtain ⟨l, hl, hd⟩ := ((wfTreeExactly s).1 hwf).resolve_left hroot
  have hlen : l.length ≤ 511 := length_le_treeCap hd hl.ne_nil
  obtain ⟨hfull, hsum⟩ := hl.countKind_eq
  refine ⟨l, hl, hd, hlen, hfull, show countKind s .leaf l ≤ 256 by omega, fun p j hp => ?_⟩
  have := hl.path_length hp
  omega

end Sys2Proof.Machine
end

section
/-! PROOFS. 40_tree_memory.md R125 to R131: the list of codes CODEGEN walks holds each leaf once, in
pre-order, with its path; the two tables hold the last code of each value; and no path to a leaf goes on
to another, so that the unpacker's loop reads each code back. -/

namespace Sys2Proof.Machine

/-! ### Paths to leaves -/

/-- The path `p` leads from `i` to a leaf that holds `v`. -/
def LeafAt (s : State) (i : NodeIx) (p : List Bool) (v : Byte) : Prop :=
  ∃ j n, follow s i p = some j ∧ nodeAt s j = some n ∧ n.kind = .leaf ∧ n.value = v

theorem leafPath_iff (s : State) (p : List Bool) (v : Byte) : leafPath s p v ↔ LeafAt s s.root p v :=
  Iff.rfl

/-- From a leaf only the empty path leads to a leaf. -/
theorem leafAt_of_leaf {s : State} {i : NodeIx} {n : Node} (hn : nodeAt s i = some n)
    (hk : n.kind = .leaf) {p : List Bool} {v : Byte} : LeafAt s i p v ↔ p = [] ∧ v = n.value := by
  constructor
  · rintro ⟨j, m, hp, hm, -, rfl⟩
    cases p with
    | nil =>
      cases hp
      cases hn.symm.trans hm
      exact ⟨rfl, rfl⟩
    | cons b p =>
      obtain ⟨m', hm', hmk, -⟩ := follow_cons_some hp
      cases hn.symm.trans hm'
      cases hk.symm.trans hmk
  · rintro ⟨rfl, rfl⟩
    exact ⟨i, n, rfl, hn, hk, rfl⟩

/-- From an Internal node a path to a leaf goes on from one of the two children. -/
theorem leafAt_of_internal {s : State} {i : NodeIx} {n : Node} (hn : nodeAt s i = some n)
    (hk : n.kind = .internal) {p : List Bool} {v : Byte} :
    LeafAt s i p v ↔ ∃ b q, p = b :: q ∧ LeafAt s (if b then n.right else n.left) q v := by
  constructor
  · rintro ⟨j, m, hp, hm, hmk, hv⟩
    cases p with
    | nil =>
      cases hp
      cases hn.symm.trans hm
      cases hk.symm.trans hmk
    | cons b q =>
      rw [follow_cons_of_internal hn hk] at hp
      exact ⟨b, q, rfl, j, m, hp, hm, hmk, hv⟩
  · rintro ⟨b, q, rfl, j, m, hq, hm⟩
    exact ⟨j, m, (follow_cons_of_internal hn hk b q).trans hq, hm⟩

/-- Whole paths through an Internal node to a leaf are those through its two children. -/
theorem exists_leafAt_children {s : State} {i : NodeIx} {n : Node} (hn : nodeAt s i = some n)
    (hk : n.kind = .internal) {path p : List Bool} {v : Byte} :
    (∃ q, p = path ++ q ∧ LeafAt s i q v) ↔
      (∃ q, p = path ++ [false] ++ q ∧ LeafAt s n.left q v) ∨
        ∃ q, p = path ++ [true] ++ q ∧ LeafAt s n.right q v := by
  simp only [List.append_assoc, List.singleton_append]
  constructor
  · rintro ⟨_, rfl, hleaf⟩
    obtain ⟨b, q, rfl, hq⟩ := (leafAt_of_internal hn hk).1 hleaf
    cases b with
    | false => exact .inl ⟨q, rfl, hq⟩
    | true => exact .inr ⟨q, rfl, hq⟩
  · rintro (⟨q, rfl, hq⟩ | ⟨q, rfl, hq⟩)
    · exact ⟨_, rfl, (leafAt_of_internal hn hk).2 ⟨false, q, rfl, hq⟩⟩
    · exact ⟨_, rfl, (leafAt_of_internal hn hk).2 ⟨true, q, rfl, hq⟩⟩

/-- A path to a leaf starts at an entry of the node memory. -/
theorem LeafAt.exists_nodeAt {s : State} {i : NodeIx} {p : List Bool} {v : Byte} (h : LeafAt s i p v) :
    ∃ n, nodeAt s i = some n := by
  obtain ⟨j, n, hp, hn, -⟩ := h
  cases p with
  | nil =>
    cases hp
    exact ⟨n, hn⟩
  | cons b p =>
    obtain ⟨m, hm, -⟩ := follow_cons_some hp
    exact ⟨m, hm⟩

/-- A path to a leaf that goes on from a node leads on from it to that leaf. -/
theorem leafAt_append {s : State} {i : NodeIx} {p q : List Bool} {v w : Byte}
    (hp : LeafAt s i p v) (hpq : LeafAt s i (p ++ q) w) : w = v := by
  induction p generalizing i with
  | nil =>
    obtain ⟨j, n, hj, hn, hk, rfl⟩ := hp
    cases hj
    exact ((leafAt_of_leaf hn hk).1 hpq).2
  | cons b p ih =>
    obtain ⟨j, n, hj, hrest⟩ := hp
    obtain ⟨m, hm, hmk, hj⟩ := follow_cons_some hj
    obtain ⟨_, _, hcons, hq⟩ := (leafAt_of_internal hm hmk).1 hpq
    cases hcons
    exact ih ⟨j, n, hj, hrest⟩ hq

/-! ### Pre-order -/

/-- Paths that part stay parted, in the same order, however they go on. -/
theorem before_append {p q : List Bool} (h : before p q = true) (x y : List Bool) :
    before (p ++ x) (q ++ y) = true := by
  induction p generalizing q with
  | nil => cases h
  | cons a p ih =>
    cases q with
    | nil => cases h
    | cons b q =>
      simp only [List.cons_append, before] at h ⊢
      split at h
      · next hab => rw [if_pos hab]; exact ih h
      · next hab => rw [if_neg hab]; exact h

theorem before_children (p : List Bool) : before (p ++ [false]) (p ++ [true]) = true := by
  induction p with
  | nil => rfl
  | cons b p ih => simpa [before] using ih

/-! ### The walk of CODEGEN -/

/-- The walk of CODEGEN from these paths has rounds enough and meets only nodes that exist. -/
inductive CodeWalk (s : State) : Nat → List (NodeIx × List Bool) → Prop
  | nil {fuel : Nat} : CodeWalk s fuel []
  | leaf {fuel : Nat} {i : NodeIx} {path : List Bool} {todo : List (NodeIx × List Bool)} {n : Node}
      (hn : nodeAt s i = some n) (hk : n.kind = .leaf) (h : CodeWalk s fuel todo) :
      CodeWalk s (fuel + 1) ((i, path) :: todo)
  | internal {fuel : Nat} {i : NodeIx} {path : List Bool} {todo : List (NodeIx × List Bool)}
      {n : Node} (hn : nodeAt s i = some n) (hk : n.kind = .internal)
      (h : CodeWalk s fuel ((n.left, path ++ [false]) :: (n.right, path ++ [true]) :: todo)) :
      CodeWalk s (fuel + 1) ((i, path) :: todo)

/-- The tree check guards the walk. -/
theorem codeWalk_of_wfWalk {s : State} {fuel : Nat} :
    ∀ {todo : List (NodeIx × List Bool)} {seen : List NodeIx},
      wfWalk s fuel (todo.map Prod.fst) seen = true → CodeWalk s fuel todo := by
  induction fuel with
  | zero =>
    intro todo seen h
    cases todo with
    | nil => exact .nil
    | cons x todo => cases h
  | succ fuel ih =>
    intro todo seen h
    cases todo with
    | nil => exact .nil
    | cons x todo =>
      obtain ⟨_, n, hf, hn, -, ⟨hk, hw⟩ | ⟨hk, hw⟩⟩ := wfWalk_cases h
      · cases hf
        exact .leaf hn hk (ih hw)
      · cases hf
        exact .internal hn hk (ih (todo := (_, _) :: (_, _) :: todo) hw)

theorem leafCodes_nil (s : State) (fuel : Nat) : leafCodes s fuel [] = [] := by
  cases fuel <;> rfl

theorem leafCodes_of_leaf {s : State} {i : NodeIx} {n : Node} (hn : nodeAt s i = some n)
    (hk : n.kind = .leaf) (fuel : Nat) (path : List Bool) (todo : List (NodeIx × List Bool)) :
    leafCodes s (fuel + 1) ((i, path) :: todo) = (n.value, path) :: leafCodes s fuel todo := by
  rw [leafCodes]
  simp only [nodeEntry_of_nodeAt hn, hk]

theorem leafCodes_of_internal {s : State} {i : NodeIx} {n : Node} (hn : nodeAt s i = some n)
    (hk : n.kind = .internal) (fuel : Nat) (path : List Bool)
    (todo : List (NodeIx × List Bool)) :
    leafCodes s (fuel + 1) ((i, path) :: todo) =
      leafCodes s fuel ((n.left, path ++ [false]) :: (n.right, path ++ [true]) :: todo) := by
  rw [leafCodes]
  simp only [nodeEntry_of_nodeAt hn, hk]

/-- The walk gives the codes of exactly the leaves below the nodes it holds, each its whole path. -/
theorem mem_leafCodes {s : State} {fuel : Nat} {todo : List (NodeIx × List Bool)}
    (h : CodeWalk s fuel todo) {v : Byte} {p : List Bool} :
    (v, p) ∈ leafCodes s fuel todo ↔ ∃ x ∈ todo, ∃ q, p = x.2 ++ q ∧ LeafAt s x.1 q v := by
  induction h with
  | nil => simp [leafCodes_nil]
  | leaf hn hk _ ih =>
    rw [leafCodes_of_leaf hn hk, List.mem_cons, ih, List.exists_mem_cons_iff]
    simp [leafAt_of_leaf hn hk, and_comm]
  | internal hn hk _ ih =>
    rw [leafCodes_of_internal hn hk, ih, List.exists_mem_cons_iff, List.exists_mem_cons_iff,
      List.exists_mem_cons_iff, ← or_assoc]
    exact or_congr_left (exists_leafAt_children hn hk).symm

/-- The walk keeps pre-order. -/
theorem leafCodes_pairwise_before {s : State} {fuel : Nat} {todo : List (NodeIx × List Bool)}
    (h : CodeWalk s fuel todo) (hb : todo.Pairwise (fun x y => before x.2 y.2 = true)) :
    (leafCodes s fuel todo).Pairwise (fun c d => before c.2 d.2 = true) := by
  induction h with
  | nil => simp [leafCodes_nil]
  | @leaf fuel i path todo n hn hk h ih =>
    obtain ⟨hpath, htodo⟩ := List.pairwise_cons.1 hb
    rw [leafCodes_of_leaf hn hk]
    refine List.pairwise_cons.2 ⟨fun c hc => ?_, ih htodo⟩
    obtain ⟨x, hx, q, hq, -⟩ := (mem_leafCodes h).1 hc
    simpa [hq] using before_append (hpath x hx) [] q
  | @internal fuel i path todo n hn hk _ ih =>
    obtain ⟨hpath, htodo⟩ := List.pairwise_cons.1 hb
    have hchild (b : Bool) : ∀ x ∈ todo, before (path ++ [b]) x.2 = true := fun x hx => by
      simpa using before_append (hpath x hx) [b] []
    rw [leafCodes_of_internal hn hk]
    refine ih (List.pairwise_cons.2 ⟨?_, List.pairwise_cons.2 ⟨hchild true, htodo⟩⟩)
    exact List.forall_mem_cons.2 ⟨before_children path, hchild false⟩

/-- The walk depends on what the indices other than NIL name only. -/
theorem leafCodes_eq_of_nodeAt {s s' : State} (hs : ∀ i, nodeAt s' i = nodeAt s i) {fuel : Nat}
    {todo : List (NodeIx × List Bool)} (h : CodeWalk s fuel todo) :
    leafCodes s' fuel todo = leafCodes s fuel todo := by
  induction h with
  | nil => simp only [leafCodes_nil]
  | leaf hn hk _ ih =>
    rw [leafCodes_of_leaf hn hk, leafCodes_of_leaf ((hs _).trans hn) hk, ih]
  | internal hn hk _ ih =>
    rw [leafCodes_of_internal hn hk, leafCodes_of_internal ((hs _).trans hn) hk, ih]

/-! ### The codes of the tree -/

/-- The three shapes a tree can have at ROOT. -/
theorem root_cases (s : State) : s.root = Config.nil ∨
    (∃ n, nodeAt s s.root = some n ∧ n.kind = .leaf) ∨
    (∃ n, nodeAt s s.root = some n ∧ n.kind = .internal) := by
  by_cases hr : s.root = Config.nil
  · exact .inl hr
  · cases hk : (nodeEntry s s.root.toNat).kind with
    | leaf => exact .inr (.inl ⟨_, nodeAt_of_ne s hr, hk⟩)
    | internal => exact .inr (.inr ⟨_, nodeAt_of_ne s hr, hk⟩)

theorem treeCodes_of_nil {s : State} (hr : s.root = Config.nil) : treeCodes s = [] := if_pos hr

theorem treeCodes_of_leaf {s : State} {n : Node} (hn : nodeAt s s.root = some n)
    (hk : n.kind = .leaf) : treeCodes s = [(n.value, [false])] := by
  rw [treeCodes, if_neg (ne_nil_of_nodeAt hn)]
  simp only [nodeEntry_of_nodeAt hn, hk]

theorem treeCodes_of_internal {s : State} {n : Node} (hn : nodeAt s s.root = some n)
    (hk : n.kind = .internal) : treeCodes s = leafCodes s Config.treeCap [(s.root, [])] := by
  rw [treeCodes, if_neg (ne_nil_of_nodeAt hn)]
  simp only [nodeEntry_of_nodeAt hn, hk]

theorem codeWalk_root {s : State} (hwf : wfTree s = true) {n : Node}
    (hn : nodeAt s s.root = some n) : CodeWalk s Config.treeCap [(s.root, [])] :=
  codeWalk_of_wfWalk (wfWalk_of_wfTree hwf (ne_nil_of_nodeAt hn))

theorem mem_treeCodes_of_internal {s : State} (hwf : wfTree s = true) {n : Node}
    (hn : nodeAt s s.root = some n) (hk : n.kind = .internal) {v : Byte} {p : List Bool} :
    (v, p) ∈ treeCodes s ↔ leafPath s p v := by
  rw [treeCodes_of_internal hn hk, mem_leafCodes (codeWalk_root hwf hn), leafPath_iff]
  simp

theorem treeCodes_pairwise_before {s : State} (hwf : wfTree s = true) {n : Node}
    (hn : nodeAt s s.root = some n) (hk : n.kind = .internal) :
    (treeCodes s).Pairwise (fun c d => before c.2 d.2 = true) := by
  rw [treeCodes_of_internal hn hk]
  exact leafCodes_pairwise_before (codeWalk_root hwf hn) (List.pairwise_singleton _ _)

theorem treeCodes_congr {s s' : State} (hwf : wfTree s = true) (hr : s'.root = s.root)
    (hs : ∀ i, nodeAt s' i = nodeAt s i) : treeCodes s' = treeCodes s := by
  obtain hnil | ⟨n, hn, hk⟩ | ⟨n, hn, hk⟩ := root_cases s
  · rw [treeCodes_of_nil hnil, treeCodes_of_nil (hr.trans hnil)]
  · have hn' : nodeAt s' s'.root = some n := by rw [hr, hs, hn]
    rw [treeCodes_of_leaf hn hk, treeCodes_of_leaf hn' hk]
  · have hn' : nodeAt s' s'.root = some n := by rw [hr, hs, hn]
    rw [treeCodes_of_internal hn hk, treeCodes_of_internal hn' hk, hr,
      leafCodes_eq_of_nodeAt hs (codeWalk_root hwf hn)]

/-! ### The tables hold the last code of each value -/

/-- `p` is the last code that the list has for `v`. -/
def LastCode (codes : List (Byte × List Bool)) (v : Byte) (p : List Bool) : Prop :=
  ∃ pre post, codes = pre ++ (v, p) :: post ∧ ∀ c ∈ post, c.1 ≠ v

theorem LastCode.mem {codes : List (Byte × List Bool)} {v : Byte} {p : List Bool}
    (h : LastCode codes v p) : (v, p) ∈ codes := by
  obtain ⟨pre, post, rfl, -⟩ := h
  simp

/-- A list has a last code for a value, or none. -/
theorem lastCode_or_absent (codes : List (Byte × List Bool)) (v : Byte) :
    (∃ p, LastCode codes v p) ∨ ∀ c ∈ codes, c.1 ≠ v := by
  induction codes with
  | nil => exact .inr nofun
  | cons c cs ih =>
    obtain ⟨p, pre, post, rfl, hpost⟩ | habsent := ih
    · exact .inl ⟨p, c :: pre, post, rfl, hpost⟩
    · by_cases hc : c.1 = v
      · exact .inl ⟨c.2, [], cs, by rw [← hc]; rfl, habsent⟩
      · exact .inr (List.forall_mem_cons.2 ⟨hc, habsent⟩)

/-- In a list in pre-order every other code of a value comes before the last one. -/
theorem LastCode.eq_or_before {codes : List (Byte × List Bool)} {v : Byte} {p q : List Bool}
    (h : LastCode codes v p) (hb : codes.Pairwise (fun c d => before c.2 d.2 = true))
    (hq : (v, q) ∈ codes) : q = p ∨ before q p = true := by
  obtain ⟨pre, post, rfl, hpost⟩ := h
  obtain ⟨-, -, hpre⟩ := List.pairwise_append.1 hb
  obtain hq | hq := List.mem_append.1 hq
  · exact .inr (hpre _ hq _ List.mem_cons_self)
  · obtain hq | hq := List.mem_cons.1 hq
    · exact .inl (congrArg Prod.snd hq)
    · exact absurd rfl (hpost _ hq)

theorem lengthsOf_concat (cs : List (Byte × List Bool)) (c : Byte × List Bool) :
    lengthsOf (cs ++ [c]) = setLen (lengthsOf cs) c.1 (BitVec.ofNat 8 c.2.length) :=
  List.foldl_concat ..

theorem bitsOf_concat (cs : List (Byte × List Bool)) (c : Byte × List Bool) :
    bitsOf (cs ++ [c]) = tblSet (bitsOf cs) c.1.toNat (pathBits c.2) :=
  List.foldl_concat ..

theorem lengthIn_lengthsOf_concat (cs : List (Byte × List Bool)) (c : Byte × List Bool) (v : Byte) :
    lengthIn (lengthsOf (cs ++ [c])) v =
      if v = c.1 then BitVec.ofNat 8 c.2.length else lengthIn (lengthsOf cs) v := by
  rw [lengthsOf_concat, lengthIn_setLen (lengthsOf_wf cs).1]

theorem tblGet_bitsOf_concat (cs : List (Byte × List Bool)) (c : Byte × List Bool) (v : Byte) :
    tblGet (bitsOf (cs ++ [c])) v.toNat =
      if v = c.1 then some (pathBits c.2) else tblGet (bitsOf cs) v.toNat := by
  rw [bitsOf_concat, tblGet_tblSet]
  simp only [BitVec.toNat_inj]

/-- Codes of other values leave a value's entries as they are. -/
theorem tables_append {v : Byte} (pre : List (Byte × List Bool)) {post : List (Byte × List Bool)} :
    (∀ c ∈ post, c.1 ≠ v) →
      lengthIn (lengthsOf (pre ++ post)) v = lengthIn (lengthsOf pre) v ∧
      tblGet (bitsOf (pre ++ post)) v.toNat = tblGet (bitsOf pre) v.toNat := by
  induction post using List.reverseRecOn with
  | nil => simp
  | append_singleton cs c ih =>
    intro h
    obtain ⟨hcs, hc⟩ := List.forall_mem_append.1 h
    have hne : v ≠ c.1 := (hc c List.mem_cons_self).symm
    rw [← List.append_assoc, lengthIn_lengthsOf_concat, tblGet_bitsOf_concat, if_neg hne, if_neg hne]
    exact ih hcs

/-- The code table of `t` is made from these codes. -/
def CodesOf (t : State) (codes : List (Byte × List Bool)) : Prop :=
  t.codeLen = lengthsOf codes ∧ t.codeBits = bitsOf codes

theorem codeBitsAt_of_listed {t : State} {v : Byte} {b : BitVec 256}
    (h : tblGet t.codeBits v.toNat = some b) : codeBitsAt t v = b := by
  unfold codeBitsAt
  rw [h]

theorem CodesOf.last {t : State} {codes : List (Byte × List Bool)} (h : CodesOf t codes) {v : Byte}
    {p : List Bool} (hp : LastCode codes v p) :
    codeLenAt t v = BitVec.ofNat 8 p.length ∧ codeBitsAt t v = pathBits p := by
  obtain ⟨hlen, hbits⟩ := h
  obtain ⟨pre, post, rfl, hpost⟩ := hp
  rw [List.append_cons] at hlen hbits
  obtain ⟨hl, hb⟩ := tables_append (pre ++ [(v, p)]) hpost
  rw [lengthIn_lengthsOf_concat, if_pos rfl] at hl
  rw [tblGet_bitsOf_concat, if_pos rfl] at hb
  exact ⟨by rw [codeLenAt_eq, hlen, hl], codeBitsAt_of_listed (by rw [hbits, hb])⟩

theorem tblGet_map_const {α : Type} (a : α) {l : List Nat} {k : Nat} (h : k ∈ l) :
    tblGet (l.map (fun j => (j, a))) k = some a := by
  induction l with
  | nil => cases h
  | cons j l ih =>
    rw [List.map_cons, tblGet_cons]
    split
    · rfl
    · next hj => exact ih ((List.mem_cons.1 h).resolve_left (Ne.symm hj))

theorem tblGet_zeroBits (v : Byte) : tblGet zeroBits v.toNat = some 0#256 :=
  tblGet_map_const _ (List.mem_range.2 v.isLt)

theorem CodesOf.absent {t : State} {codes : List (Byte × List Bool)} (h : CodesOf t codes)
    {v : Byte} (hv : ∀ c ∈ codes, c.1 ≠ v) : codeLenAt t v = 0#8 ∧ codeBitsAt t v = 0#256 := by
  obtain ⟨hlen, hbits⟩ := h
  obtain ⟨hl, hb⟩ := tables_append [] hv
  refine ⟨by rw [codeLenAt_eq, hlen]; exact hl, codeBitsAt_of_listed ?_⟩
  rw [hbits]
  exact hb.trans (tblGet_zeroBits v)

/-! ### Codes as bits -/

/-- The word of a path holds the path's bits. -/
theorem getLsbD_pathBits_eq {p : List Bool} (h : p.length ≤ 256) (k : Nat) :
    (pathBits p).getLsbD k = (p[k]?).getD false := by
  induction p generalizing k with
  | nil => simp [pathBits]
  | cons b p ih =>
    have hp := ih (Nat.le_of_succ_le h)
    cases k with
    | zero => cases b <;> simp [pathBits]
    | succ k =>
      rw [List.getElem?_cons_succ, ← hp k]
      by_cases hk : k + 1 < 256
      · have hk' : k < 256 := by omega
        cases b <;> simp [pathBits, hk, BitVec.getLsbD_eq_getElem hk']
      · rw [BitVec.getLsbD_of_ge _ _ (not_lt.1 hk), getLsbD_pathBits]
        exact (Nat.le_of_succ_le_succ h).trans (Nat.le_of_succ_le_succ (not_lt.1 hk))

theorem toNat_ofNat_length {p : List Bool} (h : p.length ≤ 255) :
    (BitVec.ofNat 8 p.length).toNat = p.length := by
  rw [BitVec.toNat_ofNat]
  exact Nat.mod_eq_of_lt (Nat.lt_succ_of_le h)

/-- A code reads from its length and word as the path it was made from. -/
theorem codeString_pathBits {p : List Bool} (h : p.length ≤ 255) :
    codeString (BitVec.ofNat 8 p.length) (pathBits p) = p := by
  unfold codeString
  rw [toNat_ofNat_length h]
  refine List.ext_getElem (by simp) fun k _ hk => ?_
  simp [getLsbD_pathBits_eq (h.trans (by decide)), hk]

/-- The codes of a value that has one: the last in the tree's list, read from the table. -/
theorem CodesOf.codeOf_mem {t : State} (hwf : wfTree t = true) (h : CodesOf t (treeCodes t))
    {v : Byte} (hv : codeLenAt t v ≠ 0#8) : (v, codeOf t v) ∈ treeCodes t := by
  obtain ⟨p, hp⟩ | habsent := lastCode_or_absent (treeCodes t) v
  · obtain ⟨hlen, hbits⟩ := h.last hp
    rw [codeOf, hlen, hbits, codeString_pathBits (treeCodes_length_le hwf _ hp.mem)]
    exact hp.mem
  · exact absurd (h.absent habsent).1 hv

/-! ### CODEGEN -/

/-- The state CODEGEN leaves. -/
def codegenState (s : State) : State :=
  { s with codeLen := lengthsOf (treeCodes s), codeBits := bitsOf (treeCodes s) }

theorem codesOf_codegenState (s : State) : CodesOf (codegenState s) (treeCodes s) := ⟨rfl, rfl⟩

theorem wfTree_codegenState (s : State) : wfTree (codegenState s) = wfTree s :=
  wfTree_congr rfl rfl rfl

theorem treeCodes_codegenState {s : State} (hwf : wfTree s = true) :
    treeCodes (codegenState s) = treeCodes s := treeCodes_congr hwf rfl (nodeAt_congr rfl rfl)

theorem exec_codegen {s : State} (he : s.err = 0#8) (hm : s.mode = .idle) (hwf : wfTree s = true) :
    exec .codegen s = .next (codegenState s) :=
  exec_done_of_idle .codegen he hm nofun nofun rfl (if_pos hwf)

/-- A CODEGEN that leaves no error has completed, in IDLE with a tree that passes the check. -/
theorem codegen_of_no_error {s t : State} (h : exec .codegen s = .next t) (he : t.err = 0#8) :
    s.err = 0#8 ∧ s.mode = .idle ∧ wfTree s = true ∧ t = codegenState s := by
  obtain ⟨hs, rfl⟩ | ⟨e, rfl⟩ | ⟨hd, ha, hc⟩ := exec_cases h
  · exact absurd he hs
  · exact absurd he (errCode_ne_zero e)
  · cases hc with
    | codegen hwf => exact ⟨he, by simpa [accepts] using ha, hwf, rfl⟩

/-- Settles O24: the table is made from the tree's codes, whose last one for each value it keeps. -/
theorem codegenResult : Obligations.CodegenResult := by
  intro s he hm hwf
  have htable := codesOf_codegenState s
  refine ⟨codegenState s, exec_codegen he hm hwf, rfl, fun hr v => ?_, fun n hn hk v => ?_,
    fun n hn hk v => ⟨fun hnone => ?_, fun ⟨q, hq⟩ => ?_⟩⟩
  · rw [treeCodes_of_nil hr] at htable
    exact htable.absent nofun
  · rw [treeCodes_of_leaf hn hk] at htable
    split
    · next hv => exact htable.last (p := [false]) ⟨[], [], by rw [hv]; rfl, nofun⟩
    · next hv => exact htable.absent (by simpa using Ne.symm hv)
  · refine htable.absent ?_
    rintro ⟨w, p⟩ hp rfl
    exact hnone ⟨p, (mem_treeCodes_of_internal hwf hn hk).1 hp⟩
  · have hmem {p : List Bool} := mem_treeCodes_of_internal hwf hn hk (v := v) (p := p)
    obtain ⟨p, hp⟩ | habsent := lastCode_or_absent (treeCodes s) v
    · obtain ⟨hlen, hbits⟩ := htable.last hp
      have hle := treeCodes_length_le hwf _ hp.mem
      refine ⟨p, hmem.1 hp.mem,
        fun r hr => hp.eq_or_before (treeCodes_pairwise_before hwf hn hk) (hmem.2 hr), ?_, ?_⟩
      · rw [hlen, toNat_ofNat_length hle]
      · rw [hbits]
        exact getLsbD_pathBits_eq (hle.trans (by decide))
    · exact absurd rfl (habsent _ (hmem.2 hq))

/-- Settles O26: both tables are made from `treeCodes`, which depends on ROOT and the nodes only. -/
theorem codegenIdempotent : Obligations.CodegenIdempotent := by
  intro s t h he
  obtain ⟨hse, hsm, hwf, rfl⟩ := codegen_of_no_error h he
  constructor
  · rw [exec_codegen he hsm ((wfTree_codegenState s).trans hwf), codegenState,
      treeCodes_codegenState hwf]
    rfl
  · intro s' t' h' he' hr hs
    obtain ⟨-, -, -, rfl⟩ := codegen_of_no_error h' he'
    have hcodes := treeCodes_congr hwf hr hs
    exact ⟨congrArg lengthsOf hcodes, congrArg bitsOf hcodes⟩

/-! ### No code begins another, and each reads back -/

/-- A code of the tree that another one goes on from is a code of the same value. -/
theorem eq_of_treeCodes_isPrefix {s : State} (hwf : wfTree s = true) {v w : Byte} {p q : List Bool}
    (hv : (v, p) ∈ treeCodes s) (hw : (w, q) ∈ treeCodes s) (h : p <+: q) : v = w := by
  obtain ⟨r, rfl⟩ := h
  obtain hr | ⟨n, hn, hk⟩ | ⟨n, hn, hk⟩ := root_cases s
  · rw [treeCodes_of_nil hr] at hv
    cases hv
  · rw [treeCodes_of_leaf hn hk, List.mem_singleton] at hv hw
    exact (congrArg Prod.fst hv).trans (congrArg Prod.fst hw).symm
  · rw [mem_treeCodes_of_internal hwf hn hk, leafPath_iff] at hv hw
    exact (leafAt_append hv hw).symm

/-- In a tree with an Internal root the steps from an Internal node to a leaf emit the leaf's value and
lead back to ROOT. -/
theorem unpackBits_of_leafAt {s : State} {r : Node} (hr : nodeAt s s.root = some r)
    (hrk : r.kind = .internal) {p : List Bool} {v : Byte} : ∀ {cur : NodeIx} {c : Node},
    nodeAt s cur = some c → c.kind = .internal → LeafAt s cur p v →
      unpackBits s p cur = .ok s.root [v] := by
  induction p with
  | nil =>
    intro cur c hc hck hp
    obtain ⟨_, _, hcons, -⟩ := (leafAt_of_internal hc hck).1 hp
    cases hcons
  | cons b p ih =>
    intro cur c hc hck hp
    obtain ⟨_, _, hcons, hq⟩ := (leafAt_of_internal hc hck).1 hp
    cases hcons
    obtain ⟨n, hn⟩ := hq.exists_nodeAt
    rw [unpackBits]
    simp only [hr, hrk, hc, hn]
    cases hk : n.kind with
    | leaf =>
      obtain ⟨rfl, rfl⟩ := (leafAt_of_leaf hn hk).1 hq
      rfl
    | internal => exact ih hn hk hq

/-- Reading a code of the tree from ROOT emits its value and leads back to ROOT. -/
theorem unpackBits_of_mem_treeCodes {s : State} (hwf : wfTree s = true) {v : Byte} {p : List Bool}
    (h : (v, p) ∈ treeCodes s) : unpackBits s p s.root = .ok s.root [v] := by
  obtain hr | ⟨n, hn, hk⟩ | ⟨n, hn, hk⟩ := root_cases s
  · rw [treeCodes_of_nil hr] at h
    cases h
  · rw [treeCodes_of_leaf hn hk, List.mem_singleton] at h
    cases h
    simp [unpackBits, hn, hk, emitFirst]
  · rw [mem_treeCodes_of_internal hwf hn hk, leafPath_iff] at h
    exact unpackBits_of_leafAt hn hk hn hk h

/-- Settles O27: a value's code in the table is a code of the tree, no code of the tree begins another
value's, and each reads back. -/
theorem codesPrefixFree : Obligations.CodesPrefixFree := by
  intro s t h he v hv
  obtain ⟨-, -, hs, rfl⟩ := codegen_of_no_error h he
  have hwf := (wfTree_codegenState s).trans hs
  have htable := codesOf_codegenState s
  rw [← treeCodes_codegenState hs] at htable
  have hmem := htable.codeOf_mem hwf hv
  constructor
  · exact fun w hne hw hpre =>
      hne (eq_of_treeCodes_isPrefix hwf hmem (htable.codeOf_mem hwf hw) hpre)
  · exact unpackBits_of_mem_treeCodes hwf hmem

end Sys2Proof.Machine
end

section
/-! PROOFS. 41_tree_serializer.md R150 to R154: the looping serializer gives the pre-order form,
and SER. -/

namespace Sys2Proof.Machine

/-! ### The serial form of a tree -/

theorem serWalk_nil (s : State) (fuel : Nat) : serWalk s fuel [] = [] := by cases fuel <;> rfl

theorem serWalk_of_leaf {s : State} {i : NodeIx} {n : Node} (hn : nodeAt s i = some n)
    (hk : n.kind = .leaf) (fuel : Nat) (todo : List NodeIx) :
    serWalk s (fuel + 1) (i :: todo) = leafToken s.params n.value ++ serWalk s fuel todo := by
  rw [serWalk]
  simp only [nodeEntry_of_nodeAt hn, hk]

theorem serWalk_of_internal {s : State} {i : NodeIx} {n : Node} (hn : nodeAt s i = some n)
    (hk : n.kind = .internal) (fuel : Nat) (todo : List NodeIx) :
    serWalk s (fuel + 1) (i :: todo) =
      s.params.sentinelByte :: serWalk s fuel (n.left :: n.right :: todo) := by
  rw [serWalk]
  simp only [nodeEntry_of_nodeAt hn, hk]

/-- The loop writes the serial form of the tree on top of its list with one round for each node, and
then goes on with the rest of the list. -/
theorem IsTree.serWalk {s : State} {i : NodeIx} {l : List NodeIx} (h : IsTree s i l) :
    ∃ bs, SerialForm s i bs ∧ ∀ fuel todo,
      serWalk s (fuel + l.length) (i :: todo) = bs ++ serWalk s fuel todo := by
  induction h with
  | leaf hn _ hk => exact ⟨_, .leaf hn hk, serWalk_of_leaf hn hk⟩
  | @internal i n l r hn _ hk _ _ ihl ihr =>
    obtain ⟨bl, hbl, hl⟩ := ihl
    obtain ⟨br, hbr, hr⟩ := ihr
    refine ⟨_, .internal hn hk hbl hbr, fun fuel todo => ?_⟩
    have hrounds : fuel + (i :: (l ++ r)).length = fuel + r.length + l.length + 1 := by
      simp only [List.length_cons, List.length_append]
      omega
    rw [hrounds, serWalk_of_internal hn hk, hl, hr, List.cons_append, List.append_assoc]

theorem serBytes_of_nil {s : State} (hr : s.root = Config.nil) : serBytes s = [] := if_pos hr

/-- The tree that passes the check has a serial form, and that is what `ser_bytes()` gives. -/
theorem serialForm_serBytes {s : State} (hwf : wfTree s = true) (hr : s.root ≠ Config.nil) :
    SerialForm s s.root (serBytes s) := by
  obtain ⟨l, hl, hd⟩ := ((wfTreeExactly s).1 hwf).resolve_left hr
  obtain ⟨bs, hbs, hwalk⟩ := hl.serWalk
  have hall := hwalk (Config.treeCap - l.length) []
  rw [Nat.sub_add_cancel (length_le_treeCap hd hl.ne_nil), serWalk_nil, List.append_nil] at hall
  rwa [serBytes, if_neg hr, hall]

/-- Settles O29: the loop's rounds suffice for every tree that passes the check. -/
theorem serialFormPreorder : Obligations.SerialFormPreorder :=
  fun _ hwf => ⟨serBytes_of_nil, serialForm_serBytes hwf⟩

/-! ### SER -/

/-- The state SER leaves. -/
def serState (s : State) : State :=
  { emit s (serBytes s) with hdrTbc := BitVec.ofNat 13 (serBytes s).length }

/-- HDR_TBC holds the length of every serial form. -/
theorem serState_hdrTbc_toNat (s : State) : (serState s).hdrTbc.toNat = (serBytes s).length := by
  have hlen := serBytes_length_le s
  refine (BitVec.toNat_ofNat ..).trans (Nat.mod_eq_of_lt ?_)
  omega

theorem exec_ser {s : State} (he : s.err = 0#8) (hm : s.mode = .idle) (hwf : wfTree s = true) :
    exec .ser s = .next (serState s) := by
  have hlen : ¬ Config.maxTreeBytes < (serBytes s).length :=
    not_lt.2 ((serBytes_length_le s).trans (by decide))
  refine exec_done_of_idle .ser he hm nofun nofun rfl ?_
  rw [ownRule, serBody, if_pos hwf]
  exact if_neg hlen

/-- A SER that leaves no error has completed, in IDLE with a tree that passes the check. -/
theorem ser_of_no_error {s t : State} (h : exec .ser s = .next t) (he : t.err = 0#8) :
    s.err = 0#8 ∧ s.mode = .idle ∧ wfTree s = true ∧ t = serState s := by
  obtain ⟨hs, rfl⟩ | ⟨e, rfl⟩ | ⟨hd, ha, hc⟩ := exec_cases h
  · exact absurd he hs
  · exact absurd he (errCode_ne_zero e)
  · cases hc with
    | ser hwf => exact ⟨he, by simpa [accepts] using ha, hwf, rfl⟩

/-- Settles O28: no serial form is too long for HDR_TBC. -/
theorem serResult : Obligations.SerResult :=
  fun s he hm hwf => ⟨serBytes_length_le s, serState s, exec_ser he hm hwf,
    serState_hdrTbc_toNat s, rfl⟩

end Sys2Proof.Machine
end

section
/-! PROOFS. 42_tree_deserializer.md R171 to R175: what a placed node token leaves in the memories, and
how DESER_INIT and each tree byte complete. -/

namespace Sys2Proof.Machine

/-! ### Filling a position -/

/-- A parent whose child on the named side is `n`. -/
def withChild (side : BitVec 1) (n : NodeIx) (p : Node) : Node :=
  if side = 0#1 then { p with left := n } else { p with right := n }

theorem attach_root (x : Slot) (n : NodeIx) (s : State) :
    (attach x n s).root = if x.parent = Config.nil then n else s.root := by
  unfold attach
  split
  · rfl
  · dsimp only
    split <;> rfl

theorem attach_epoch (x : Slot) (n : NodeIx) (s : State) : (attach x n s).epoch = s.epoch := by
  rw [attach_eq]

theorem attach_of_ne_nil {x : Slot} (h : x.parent ≠ Config.nil) (n : NodeIx) (s : State) :
    attach x n s = setNode s x.parent (withChild x.side n (nodeEntry s x.parent.toNat)) := by
  rw [attach, if_neg h]
  dsimp only [withChild]
  split <;> rfl

/-- Filling a position writes the one child field that the position names. -/
theorem nodeAt_attach (x : Slot) (n : NodeIx) (s : State) (j : NodeIx) :
    nodeAt (attach x n s) j =
      if j = x.parent then (nodeAt s j).map (withChild x.side n) else nodeAt s j := by
  by_cases hnil : x.parent = Config.nil
  · rw [attach, if_pos hnil]
    split
    · next hj => rw [hj, hnil]; rfl
    · rfl
  · rw [attach_of_ne_nil hnil]
    split
    · next hj => rw [hj, nodeAt_setNode_self s hnil, nodeAt_of_ne s hnil]; rfl
    · next hj => exact nodeAt_setNode_ne s hj _

/-- What is read at `j` after a token is placed: the new node, or what filling the position left. -/
theorem nodeAt_afterToken {s : State} {x : Slot} {n : NodeIx}
    (hx : slotAt s (s.sp.toNat - 1) = x) (hn : s.nextNode.setWidth 9 = n) (hnil : n ≠ Config.nil)
    (hne : x.parent ≠ n) (node : Node) (j : NodeIx) :
    nodeAt (afterToken node s) j =
      if j = n then some node
      else if j = x.parent then (nodeAt s j).map (withChild x.side n) else nodeAt s j := by
  subst hx hn
  rw [nodeAt_congr (t := afterToken node s) (s := attach _ _ (setNode s _ node)) rfl
    (attach_epoch _ _ (setNode s _ node)).symm, nodeAt_attach]
  split
  · next hj => rw [hj, if_neg hne, nodeAt_setNode_ne s hne]
  · split
    · next hj => rw [hj, nodeAt_setNode_self s hnil]
    · next hj => exact nodeAt_setNode_ne s hj _

/-- Slot reads depend on the stack's entries and the free values only. -/
theorem slotAt_congr {s t : State} (h : t.stack = s.stack) (he : t.epoch = s.epoch) (k : Nat) :
    slotAt t k = slotAt s k := by
  unfold slotAt
  rw [h, he]

theorem slotAt_openChildren (n : NodeIx) (k m : Nat) (s : State) :
    slotAt (openChildren n k s) m =
      if m = k + 1 then { parent := n, side := 0#1 }
      else if m = k then { parent := n, side := 1#1 } else slotAt s m := by
  rw [openChildren, slotAt_setSlot, slotAt_setSlot]

/-! ### Placing a token -/

/-- DESER_BYTE goes on, or ends the session with the last position, when the budget runs out with
it. -/
theorem finishToken_eq {budget : BitVec 13} {s : State} (h : s.sp = 0#10 ↔ budget = 0#13) :
    finishToken budget s = .done { s with mode := if s.sp = 0#10 then .idle else s.mode } := by
  unfold finishToken
  by_cases hsp : s.sp = 0#10
  · simp only [if_pos hsp, if_neg (not_not.2 (h.1 hsp))]
  · simp only [if_neg hsp, if_neg (mt h.2 hsp)]

theorem eq_zero_iff_toNat {w : Nat} (x : BitVec w) : x = 0#w ↔ x.toNat = 0 := by
  rw [← BitVec.toNat_inj, BitVec.toNat_ofNat, Nat.zero_mod]

section

variable {s : State} (hn : s.nextNode.toNat < Config.treeCap) {k : Nat} (hsp : s.sp.toNat = k + 1)

include hn hsp

/-- A session with room for a node and a position on its stack passes the checks of a token. -/
theorem placeToken_checks (hk : k < Config.stackCap) :
    s.nextNode ≠ 511#10 ∧ ¬ Config.treeCap < s.nextNode.toNat ∧
      ¬ (s.sp = 0#10 ∨ Config.stackCap < s.sp.toNat) := by
  refine ⟨?_, not_lt.2 hn.le, ?_⟩
  · rintro he
    rw [he] at hn
    exact absurd hn (by decide)
  · rw [eq_zero_iff_toNat]
    omega

/-- A Leaf token takes the top position away. -/
theorem placeToken_leaf (hk : k < Config.stackCap) (node : Node) :
    placeToken node false (s.budget - 1#13) s =
      finishToken (s.budget - 1#13) { afterToken node s with sp := BitVec.ofNat 10 k } := by
  obtain ⟨hfull, hcap, hstack⟩ := placeToken_checks hn hsp hk
  rw [placeToken, if_neg hfull, if_neg hcap, if_neg hstack]
  obtain rfl : k = s.sp.toNat - 1 := by omega
  dsimp only
  rw [attach_eq, if_neg Bool.false_ne_true]
  rfl

/-- An Internal token puts its two children's positions in the place of the top one. -/
theorem placeToken_internal (hk : k + 1 < Config.stackCap) (node : Node) :
    placeToken node true (s.budget - 1#13) s =
      finishToken (s.budget - 1#13)
        { openChildren (s.nextNode.setWidth 9) k (afterToken node s) with
          sp := BitVec.ofNat 10 (k + 2) } := by
  obtain ⟨hfull, hcap, hstack⟩ := placeToken_checks hn hsp (Nat.lt_of_succ_lt hk)
  rw [placeToken, if_neg hfull, if_neg hcap, if_neg hstack]
  obtain rfl : k = s.sp.toNat - 1 := by omega
  dsimp only
  rw [attach_eq, if_pos rfl, if_pos hk]
  rfl

end

/-- The state after a node token that ends DESER_BYTE with `k` positions open, when the stack's
entries are `stk`. -/
def tokenState (node : Node) (stk : Table Slot) (k : Nat) (s : State) : State :=
  { afterToken node s with
    stack := stk, sp := BitVec.ofNat 10 k, mode := if k = 0 then .idle else .deser }

/-! ### The two commands -/

/-- The state of a session that DESER_INIT opens. -/
def sessionOpened (s : State) : State :=
  { setSlot (clearTree s) 0 { parent := Config.nil, side := 0#1 } with
    escPending := false, budget := s.hdrTbc, sp := 1#10, mode := .deser }

theorem slotAt_sessionOpened (s : State) (k : Nat) : slotAt (sessionOpened s) k =
    if k = 0 then { parent := Config.nil, side := 0#1 } else slotAt s k :=
  (slotAt_congr rfl rfl k).trans (slotAt_setSlot (clearTree s) 0 k _)

theorem exec_deserInit {s : State} (he : s.err = 0#8) (hm : s.mode = .idle)
    (htbc : s.hdrTbc ≠ 0#13) : exec .deserInit s = .next (sessionOpened s) :=
  exec_done_of_idle .deserInit he hm nofun nofun rfl (if_neg htbc)

/-- The state DESER_INIT leaves when no byte is to come: the empty tree and no session. -/
def sessionEmpty (s : State) : State :=
  { clearTree s with escPending := false, budget := s.hdrTbc, sp := 0#10 }

theorem exec_deserInit_empty {s : State} (he : s.err = 0#8) (hm : s.mode = .idle)
    (htbc : s.hdrTbc = 0#13) : exec .deserInit s = .next (sessionEmpty s) :=
  exec_done_of_idle .deserInit he hm nofun nofun rfl (if_pos htbc)

section

variable {s : State} {b : Byte} (he : s.err = 0#8) (hm : s.mode = .deser)

include he hm

/-- An escape byte with bytes left after it takes its unit of the budget. -/
theorem exec_deserByte_escape (hb : 2 ≤ s.budget.toNat)
    (htok : tokenOf s.params s.escPending b = .escape) :
    exec (.deserByte b) s =
      .next { s with budget := s.budget - 1#13, escPending := true } := by
  have hsome : s.budget ≠ 0#13 := by bv_omega
  have hleft : s.budget - 1#13 ≠ 0#13 := by bv_omega
  refine perform_done he (by rw [hm]; rfl) ?_
  rw [deserByteBody, if_neg hsome]
  dsimp only
  rw [htok]
  exact if_neg hleft

variable {k r : Nat} (hn : s.nextNode.toNat < Config.treeCap) (hsp : s.sp.toNat = k + 1)
  (hb : s.budget.toNat = r + 1)

include hn hsp hb

/-- A Leaf token completes when the last position goes with the last byte and not before. -/
theorem exec_deserByte_leaf {v : Byte} (htok : tokenOf s.params s.escPending b = .leaf v)
    (hk : k < Config.stackCap) (hend : k = 0 ↔ r = 0) :
    exec (.deserByte b) s = .next (tokenState (newLeaf v) s.stack k s) := by
  have hsome : s.budget ≠ 0#13 := by bv_omega
  have hlast : BitVec.ofNat 10 k = 0#10 ↔ k = 0 := by
    rw [eq_zero_iff_toNat, BitVec.toNat_ofNat, Nat.mod_eq_of_lt (hk.trans (by decide))]
  have hspent : s.budget - 1#13 = 0#13 ↔ r = 0 := by bv_omega
  refine perform_done he (by rw [hm]; rfl) ?_
  rw [deserByteBody, if_neg hsome]
  dsimp only
  rw [htok]
  dsimp only
  rw [placeToken_leaf hn hsp hk, finishToken_eq (hlast.trans (hend.trans hspent.symm))]
  simp only [hlast, afterToken, hm, tokenState]

/-- An Internal token completes when a byte is left for the positions it opens. -/
theorem exec_deserByte_internal (htok : tokenOf s.params s.escPending b = .internal)
    (hk : k + 1 < Config.stackCap) (hr : r ≠ 0) :
    exec (.deserByte b) s = .next
      (tokenState newInternal (openChildren (s.nextNode.setWidth 9) k s).stack (k + 2) s) := by
  have hsome : s.budget ≠ 0#13 := by bv_omega
  have hlast : BitVec.ofNat 10 (k + 2) ≠ 0#10 := by
    simp only [Config.stackCap] at hk
    bv_omega
  have hleft : s.budget - 1#13 ≠ 0#13 := by bv_omega
  refine perform_done he (by rw [hm]; rfl) ?_
  rw [deserByteBody, if_neg hsome]
  dsimp only
  rw [htok]
  dsimp only
  rw [placeToken_internal hn hsp hk, finishToken_eq (iff_of_false hlast hleft)]
  rw [tokenState, if_neg (Nat.succ_ne_zero _), if_neg hlast, ← hm]
  rfl

end

end Sys2Proof.Machine
end

section
/-! PROOFS. 41_tree_serializer.md R155: the serial form of a tree, given to the deserializer byte by
byte, rebuilds the tree. The proof follows the tree: the bytes of a subtree fill the position on top of
the slot stack with a copy of it, numbered from NEXT_NODE on, and leave the rest of the stack and of
the tree as they were. -/

namespace Sys2Proof.Machine

/-! ### Runs -/

/-- `k` steps lead from `s` to `t`. -/
def Leads (k : Nat) (s t : State) : Prop := Host.Core.run core k s = .next t

theorem Leads.refl (s : State) : Leads 0 s s := rfl

theorem Leads.cons {k : Nat} {s t u : State} (h : step s = .next t) (ht : Leads k t u) :
    Leads (k + 1) s u := by
  have hstep : core.step s = .next t := h
  simp only [Leads, Host.Core.run, hstep]
  exact ht

theorem Leads.trans {j k : Nat} {s t u : State} (h : Leads j s t) (ht : Leads k t u) :
    Leads (j + k) s u := by
  induction j generalizing s with
  | zero =>
    cases h
    rwa [Nat.zero_add]
  | succ j ih =>
    simp only [Leads, Host.Core.run] at h
    split at h
    · next s' hs =>
      rw [Nat.succ_add]
      exact .cons hs (ih h)
    · cases h
    · cases h

/-- The step of a command that the host issues is the command (20_memory.md R60). -/
theorem step_of_issue {i : Instr} {rest : List HostInput} {s : State}
    (h : s.inputs = issue i :: rest) : step s = exec i (takeInput s rest) := by
  unfold step serve
  rw [h]
  show performWord (encode i) (takeInput s rest) = _
  rw [performWord, decode_encode]

/-! ### Entry numbers -/

theorem toNat_entry {n : Nat} (h : n < 512) : (BitVec.ofNat 9 n).toNat = n := by
  rw [BitVec.toNat_ofNat]
  exact Nat.mod_eq_of_lt h

theorem entry_ne_nil {n : Nat} (h : n < 511) : BitVec.ofNat 9 n ≠ Config.nil := by bv_omega

theorem entry_ne {n m : Nat} (h : n < m) (hm : m < 512) : BitVec.ofNat 9 n ≠ BitVec.ofNat 9 m := by
  bv_omega

/-! ### A session -/

/-- The tree bytes `bs` as the host issues them. -/
def byteInputs (bs : List Byte) : List HostInput := bs.map fun b => issue (.deserByte b)

/-- A deserialize session with `n` nodes placed, `k` positions open and the bytes `bs` still to
come, which the host issues next. With no position open it has ended. -/
structure Session (p : Config.Params) (esc : Bool) (n k : Nat) (bs : List Byte) (t : State) :
    Prop where
  err : t.err = 0#8
  mode : t.mode = if k = 0 then .idle else .deser
  params : t.params = p
  escPending : t.escPending = esc
  nextNode : t.nextNode.toNat = n
  sp : t.sp.toNat = k
  budget : t.budget.toNat = bs.length
  inputs : t.inputs = byteInputs bs

/-- From `t` to `t'` the position at `k` in the slot stack has been filled with entry `n`; of the
entries below `n` no other field is changed, and the stack below `k` is as it was. -/
structure Filled (n k : Nat) (t t' : State) : Prop where
  root : t'.root = if (slotAt t k).parent = Config.nil then BitVec.ofNat 9 n else t.root
  node : ∀ j : NodeIx, j.toNat < n → nodeAt t' j =
    if j = (slotAt t k).parent then
      (nodeAt t j).map (withChild (slotAt t k).side (BitVec.ofNat 9 n))
    else nodeAt t j
  slot : ∀ m < k, slotAt t' m = slotAt t m

theorem Filled.congr_left {n k : Nat} {t t₀ t' : State} (h : Filled n k t t')
    (hr : t.root = t₀.root) (hn : t.nodes = t₀.nodes) (hs : t.stack = t₀.stack)
    (he : t.epoch = t₀.epoch) : Filled n k t₀ t' := by
  obtain ⟨hroot, hnode, hslot⟩ := h
  simp only [hr, nodeAt_congr hn he, slotAt_congr hs he] at hroot hnode hslot
  exact ⟨hroot, hnode, hslot⟩

section

variable {p : Config.Params} {esc : Bool} {n k : Nat} {b : Byte} {bs : List Byte} {t : State}
  (h : Session p esc n (k + 1) (b :: bs) t) (hn : n < 511)
  (hx : (slotAt t k).parent ≠ BitVec.ofNat 9 n)

include h

theorem Session.step_eq : step t = exec (.deserByte b) (takeInput t (byteInputs bs)) :=
  step_of_issue h.inputs

theorem Session.nextNode_eq : t.nextNode.setWidth 9 = BitVec.ofNat 9 n := by
  rw [← h.nextNode, BitVec.ofNat_toNat]

include hn hx

/-- What a node token leaves, when it leaves the stack below its position as it was. -/
theorem Session.placed {node : Node} {stk : Table Slot} {k' : Nat} (hk' : k' < 1024) {t' : State}
    (ht' : t' = tokenState node stk k' (takeInput t (byteInputs bs)))
    (hslot : ∀ m < k, slotAt t' m = slotAt t m) :
    Session p false (n + 1) k' bs t' ∧ Filled n k t t' ∧
      nodeAt t' (BitVec.ofNat 9 n) = some node := by
  have htop : t.sp.toNat - 1 = k := by rw [h.sp, Nat.add_sub_cancel]
  have hnodes (j : NodeIx) :
      nodeAt t' j = nodeAt (afterToken node (takeInput t (byteInputs bs))) j :=
    nodeAt_congr (by rw [ht']; rfl) (by rw [ht']; rfl) j
  have hread (j : NodeIx) := (hnodes j).trans
    (nodeAt_afterToken (s := takeInput t (byteInputs bs)) (congrArg (slotAt t) htop) h.nextNode_eq
      (entry_ne_nil hn) hx node j)
  have hroot : t'.root = if (slotAt t k).parent = Config.nil then BitVec.ofNat 9 n else t.root := by
    rw [← htop, ← h.nextNode_eq, ht']
    exact attach_root ..
  have hnext := h.nextNode
  have hbudget := h.budget
  rw [List.length_cons] at hbudget
  refine ⟨?_, ⟨hroot, fun j hj => ?_, hslot⟩, (hread _).trans (if_pos rfl)⟩
  · subst ht'
    refine ⟨h.err, rfl, h.params, rfl, ?_, ?_, ?_, rfl⟩
    · show (t.nextNode + 1#10).toNat = n + 1
      bv_omega
    · exact (BitVec.toNat_ofNat ..).trans (Nat.mod_eq_of_lt hk')
    · show (t.budget - 1#13).toNat = bs.length
      bv_omega
  · refine (hread j).trans (if_neg ?_)
    rintro rfl
    rw [toNat_entry (hn.trans (by decide))] at hj
    exact lt_irrefl _ hj

/-- A Leaf token fills the top position. -/
theorem Session.leafByte {v : Byte} (htok : tokenOf p esc b = .leaf v) (hk : k < Config.stackCap)
    (hend : k = 0 ↔ bs = []) :
    ∃ t', step t = .next t' ∧ Session p false (n + 1) k bs t' ∧ Filled n k t t' ∧
      nodeAt t' (BitVec.ofNat 9 n) = some (newLeaf v) := by
  have hopen : t.mode = .deser := h.mode
  rw [← h.params, ← h.escPending] at htok
  have hexec := exec_deserByte_leaf (s := takeInput t (byteInputs bs)) h.err hopen
    (h.nextNode.trans_lt hn) h.sp h.budget htok hk (hend.trans List.length_eq_zero_iff.symm)
  exact ⟨_, h.step_eq.trans hexec, h.placed hn hx (hk.trans (by decide)) rfl
    fun m _ => slotAt_congr rfl rfl m⟩

/-- An Internal token fills the top position and opens those of its two children, the left one on
top. -/
theorem Session.internalByte (htok : tokenOf p esc b = .internal) (hk : k + 1 < Config.stackCap)
    (hbs : bs ≠ []) :
    ∃ t', step t = .next t' ∧ Session p false (n + 1) (k + 2) bs t' ∧ Filled n k t t' ∧
      nodeAt t' (BitVec.ofNat 9 n) = some newInternal ∧
      slotAt t' k = { parent := BitVec.ofNat 9 n, side := 1#1 } ∧
      slotAt t' (k + 1) = { parent := BitVec.ofNat 9 n, side := 0#1 } := by
  have hopen : t.mode = .deser := h.mode
  rw [← h.params, ← h.escPending] at htok
  have hexec := exec_deserByte_internal (s := takeInput t (byteInputs bs)) h.err hopen
    (h.nextNode.trans_lt hn) h.sp h.budget htok hk (mt List.length_eq_zero_iff.1 hbs)
  rw [takeInput_nextNode, h.nextNode_eq] at hexec
  obtain ⟨t', ht'⟩ : ∃ t', t' = tokenState newInternal
    (openChildren (BitVec.ofNat 9 n) k (takeInput t (byteInputs bs))).stack (k + 2)
    (takeInput t (byteInputs bs)) := ⟨_, rfl⟩
  have hslot (m : Nat) : slotAt t' m = _ :=
    (slotAt_congr (by rw [ht']; rfl) (by rw [ht']; rfl) m).trans
      (slotAt_openChildren (BitVec.ofNat 9 n) k m t)
  have hbelow : ∀ m < k, slotAt t' m = slotAt t m := fun m hm => by
    rw [hslot, if_neg (by omega), if_neg (by omega)]
  obtain ⟨hsession, hfilled, hnode⟩ :=
    h.placed hn hx (Nat.lt_trans (Nat.succ_lt_succ hk) (by decide)) ht' hbelow
  refine ⟨t', by rw [h.step_eq, hexec, ht'], hsession, hfilled, hnode, ?_, ?_⟩
  · rw [hslot, if_neg (by omega), if_pos rfl]
  · rw [hslot, if_pos rfl]

omit hn hx

/-- An escape byte with bytes after it is taken, and what it leaves of the memories is all. -/
theorem Session.escapeByte (htok : tokenOf p esc b = .escape) (hbs : bs ≠ []) :
    ∃ t', step t = .next t' ∧ Session p true n (k + 1) bs t' ∧
      t'.root = t.root ∧ t'.nodes = t.nodes ∧ t'.stack = t.stack ∧ t'.epoch = t.epoch := by
  have hopen : t.mode = .deser := h.mode
  have hbudget := h.budget
  have hlen := List.length_pos_iff.2 hbs
  simp only [List.length_cons] at hbudget
  rw [← h.params, ← h.escPending] at htok
  have hexec := exec_deserByte_escape (s := takeInput t (byteInputs bs)) h.err hopen
    (show 2 ≤ t.budget.toNat by omega) htok
  refine ⟨_, h.step_eq.trans hexec, ⟨h.err, h.mode, h.params, rfl, h.nextNode, h.sp, ?_, rfl⟩,
    rfl, rfl, rfl, rfl⟩
  show (t.budget - 1#13).toNat = bs.length
  bv_omega

end

/-- A leaf's bytes fill the top position, whether the value needs an escape or not. -/
theorem Session.leafToken {p : Config.Params} {n k : Nat} {v : Byte} {bs : List Byte} {t : State}
    (h : Session p false n (k + 1) (leafToken p v ++ bs) t)
    (hn : n < 511) (hx : (slotAt t k).parent ≠ BitVec.ofNat 9 n) (hk : k < Config.stackCap)
    (hend : k = 0 ↔ bs = []) :
    ∃ t', Leads (leafToken p v).length t t' ∧ Session p false (n + 1) k bs t' ∧ Filled n k t t' ∧
      nodeAt t' (BitVec.ofNat 9 n) = some (newLeaf v) := by
  by_cases hmark : v = p.sentinelByte ∨ v = p.escapeByte
  · rw [Machine.leafToken, if_pos hmark] at h ⊢
    obtain ⟨u, htu, hu, hroot, hnodes, hstack, hepoch⟩ := h.escapeByte (if_pos rfl) nofun
    have hx' : (slotAt u k).parent ≠ BitVec.ofNat 9 n := by rwa [slotAt_congr hstack hepoch]
    obtain ⟨t', hut, hsession, hfilled, hnode⟩ := hu.leafByte hn hx' (if_pos rfl) hk hend
    exact ⟨t', .cons htu (.cons hut (.refl t')), hsession,
      hfilled.congr_left hroot hnodes hstack hepoch, hnode⟩
  · rw [Machine.leafToken, if_neg hmark] at h ⊢
    obtain ⟨hsent, hesc⟩ := not_or.1 hmark
    have htok : tokenOf p false v = .leaf v := by simp [tokenOf, hsent, hesc]
    obtain ⟨t', htt, hrest⟩ := h.leafByte hn hx htok hk hend
    exact ⟨t', .cons htt (.refl t'), hrest⟩

/-! ### Copies of a subtree -/

/-- The subtree of `t` at entry `n` is a copy of that of `s` at `i`, numbered in pre-order: its
entries are the `c` ones from `n` up. -/
inductive Copied (s t : State) : NodeIx → Nat → Nat → Prop
  | leaf {i : NodeIx} {n : Nat} {a : Node} (ha : nodeAt s i = some a) (hk : a.kind = .leaf)
      (hb : nodeAt t (BitVec.ofNat 9 n) = some (newLeaf a.value)) : Copied s t i n 1
  | internal {i : NodeIx} {n c d : Nat} {a : Node} (ha : nodeAt s i = some a)
      (hk : a.kind = .internal)
      (hb : nodeAt t (BitVec.ofNat 9 n) = some
        { newInternal with left := BitVec.ofNat 9 (n + 1), right := BitVec.ofNat 9 (n + 1 + c) })
      (hl : Copied s t a.left (n + 1) c) (hr : Copied s t a.right (n + 1 + c) d) :
      Copied s t i n (c + d + 1)

/-- A copy stays one when its entries stay as they are. -/
theorem Copied.congr {s t t' : State} {i : NodeIx} {n c : Nat} (h : Copied s t i n c)
    (hsame : ∀ j, n ≤ j → j < n + c → nodeAt t' (BitVec.ofNat 9 j) = nodeAt t (BitVec.ofNat 9 j)) :
    Copied s t' i n c := by
  induction h with
  | leaf ha hk hb => exact .leaf ha hk ((hsame _ le_rfl (Nat.lt_succ_self _)).trans hb)
  | internal ha hk hb hl hr ihl ihr =>
    exact .internal ha hk ((hsame _ le_rfl (by omega)).trans hb)
      (ihl fun j hj hj' => hsame j (by omega) (by omega))
      (ihr fun j hj hj' => hsame j (by omega) (by omega))

theorem Copied.isTree {s t : State} {i : NodeIx} {n c : Nat} (h : Copied s t i n c) :
    IsTree t (BitVec.ofNat 9 n) ((List.range' n c).map (BitVec.ofNat 9)) := by
  induction h with
  | leaf _ _ hb => exact .leaf hb rfl rfl
  | internal _ _ hb _ _ ihl ihr =>
    rw [List.range'_succ, ← List.range'_append_1, List.map_cons, List.map_append]
    exact .internal hb rfl rfl ihl ihr

theorem follow_cons_of_leaf {s : State} {i : NodeIx} {n : Node} (hn : nodeAt s i = some n)
    (hk : n.kind = .leaf) (b : Bool) (p : List Bool) : follow s i (b :: p) = none := by
  rw [follow]
  simp only [hn, hk]

/-- A path leads on from the copy just when it leads on from what was copied, and then to a
copy again. -/
theorem Copied.follow {s t : State} {i : NodeIx} {n c : Nat} (h : Copied s t i n c)
    (p : List Bool) :
    (follow s i p = none ∧ follow t (BitVec.ofNat 9 n) p = none) ∨
      ∃ j m d, follow s i p = some j ∧ follow t (BitVec.ofNat 9 n) p = some (BitVec.ofNat 9 m) ∧
        Copied s t j m d := by
  cases p with
  | nil => exact .inr ⟨i, n, c, rfl, rfl, h⟩
  | cons b p =>
    cases h with
    | leaf ha hk hb => exact .inl ⟨follow_cons_of_leaf ha hk b p, follow_cons_of_leaf hb rfl b p⟩
    | internal ha hk hb hl hr =>
      rw [follow_cons_of_internal ha hk, follow_cons_of_internal hb rfl]
      cases b with
      | false => exact hl.follow p
      | true => exact hr.follow p

/-- A reader sees in a copy of the whole tree what is in the tree. -/
theorem Copied.seenAt_eq {s t : State} {n c : Nat} (h : Copied s t s.root n c)
    (hroot : t.root = BitVec.ofNat 9 n) (p : List Bool) : seenAt t p = seenAt s p := by
  unfold seenAt
  rw [hroot]
  obtain ⟨hs, ht⟩ | ⟨j, m, d, hs, ht, hcopy⟩ := h.follow p
  · rw [hs, ht]
  · rw [hs, ht]
    cases hcopy with
    | leaf ha hk hb => simp only [ha, hb, hk, newLeaf]
    | internal ha hk hb => simp only [ha, hb, hk, newInternal]

/-! ### The bytes of a subtree -/

/-- Filling a child's position of entry `n` changes that child field only. -/
theorem Filled.child {n m k : Nat} {side : BitVec 1} {t t' : State} (h : Filled m k t t')
    (hx : slotAt t k = { parent := BitVec.ofNat 9 n, side }) (hn : n < 511) :
    t'.root = t.root ∧ ∀ j : NodeIx, j.toNat < m → nodeAt t' j =
      if j = BitVec.ofNat 9 n then (nodeAt t j).map (withChild side (BitVec.ofNat 9 m))
      else nodeAt t j := by
  obtain ⟨hroot, hnode, -⟩ := h
  rw [hx] at hroot hnode
  exact ⟨hroot.trans (if_neg (entry_ne_nil hn)), hnode⟩

/-- An Internal node and the two subtrees below it fill the position that the node was placed in. -/
theorem Filled.internal {n c k : Nat} {t t₁ t₂ t₃ : State} (h₁ : Filled n k t t₁)
    (h₂ : Filled (n + 1) (k + 1) t₁ t₂) (h₃ : Filled (n + 1 + c) k t₂ t₃) (hcap : n + 1 + c ≤ 511)
    (hleft : slotAt t₁ (k + 1) = { parent := BitVec.ofNat 9 n, side := 0#1 })
    (hright : slotAt t₁ k = { parent := BitVec.ofNat 9 n, side := 1#1 })
    (hnode : nodeAt t₁ (BitVec.ofNat 9 n) = some newInternal) :
    Filled n k t t₃ ∧ nodeAt t₃ (BitVec.ofNat 9 n) = some
      { newInternal with left := BitVec.ofNat 9 (n + 1), right := BitVec.ofNat 9 (n + 1 + c) } ∧
    ∀ j, n + 1 ≤ j → j < n + 1 + c →
      nodeAt t₃ (BitVec.ofNat 9 j) = nodeAt t₂ (BitVec.ofNat 9 j) := by
  have hn : n < 511 := by omega
  have hnum : (BitVec.ofNat 9 n).toNat = n := toNat_entry (by omega)
  obtain ⟨hroot₂, hnode₂⟩ := h₂.child hleft hn
  obtain ⟨hroot₃, hnode₃⟩ := h₃.child ((h₂.slot k (Nat.lt_succ_self k)).trans hright) hn
  refine ⟨⟨?_, fun j hj => ?_, fun m hm => ?_⟩, ?_, fun j hj hj' => ?_⟩
  · rw [hroot₃, hroot₂, h₁.root]
  · have hne : j ≠ BitVec.ofNat 9 n := fun he => by rw [he, hnum] at hj; exact lt_irrefl _ hj
    rw [hnode₃ j (by omega), if_neg hne, hnode₂ j (by omega), if_neg hne, h₁.node j hj]
  · rw [h₃.slot m hm, h₂.slot m (Nat.lt_succ_of_lt hm), h₁.slot m hm]
  · rw [hnode₃ _ (by omega), if_pos rfl, hnode₂ _ (by omega), if_pos rfl, hnode]
    rfl
  · rw [hnode₃ _ (by rw [toNat_entry (by omega)]; omega), if_neg (entry_ne hj (by omega)).symm]

theorem SerialForm.ne_nil {s : State} {i : NodeIx} {bs : List Byte} (h : SerialForm s i bs) :
    bs ≠ [] := by
  cases h with
  | leaf => split <;> exact nofun
  | internal => exact nofun

/-- The serial form of a subtree, given to a session with room for it, fills the position on top of
the stack with a copy of the subtree. -/
theorem deserialize_subtree {s : State} {i : NodeIx} {l : List NodeIx} (hl : IsTree s i l) :
    ∀ {bs rest : List Byte} {n k : Nat} {t : State}, SerialForm s i bs →
      Session s.params false n (k + 1) (bs ++ rest) t → n + l.length ≤ 511 → k ≤ n →
      (k = 0 ↔ rest = []) → (slotAt t k).parent ≠ BitVec.ofNat 9 n →
      ∃ t', Leads bs.length t t' ∧ Session s.params false (n + l.length) k rest t' ∧
        Filled n k t t' ∧ Copied s t' i n l.length := by
  induction hl with
  | @leaf i a ha _ hk =>
    intro bs rest n k t hbs h hcap hkn hend hx
    cases hbs with
    | internal ha' hk' =>
      cases ha.symm.trans ha'
      cases hk.symm.trans hk'
    | leaf ha' =>
      cases ha.symm.trans ha'
      obtain ⟨t', htt, hsession, hfilled, hnode⟩ :=
        h.leafToken hcap hx (hkn.trans_lt (Nat.lt_succ_of_lt hcap)) hend
      exact ⟨t', htt, hsession, hfilled, .leaf ha hk hnode⟩
  | @internal i a l r ha _ hk _ _ ihl ihr =>
    intro bs rest n k t hbs h hcap hkn hend hx
    cases hbs with
    | leaf ha' hk' =>
      cases ha.symm.trans ha'
      cases hk.symm.trans hk'
    | @internal _ _ bl br ha' _ hbl hbr =>
      cases ha.symm.trans ha'
      rw [List.length_cons, List.length_append] at hcap
      rw [List.cons_append, List.append_assoc] at h
      have htok : tokenOf s.params false s.params.sentinelByte = .internal := by
        simp [tokenOf, s.params.differ]
      have hleft : br ++ rest ≠ [] := List.append_ne_nil_of_left_ne_nil hbr.ne_nil rest
      obtain ⟨t₁, hstep, hs₁, hf₁, hnode, hright₁, hleft₁⟩ := h.internalByte (by omega) hx htok
        (show k + 1 < 512 by omega) (List.append_ne_nil_of_right_ne_nil bl hleft)
      obtain ⟨t₂, hlead₂, hs₂, hf₂, hc₂⟩ := ihl hbl hs₁ (by omega) (Nat.succ_le_succ hkn)
        (iff_of_false (Nat.succ_ne_zero k) hleft)
        (by rw [hleft₁]; exact entry_ne (Nat.lt_succ_self n) (by omega))
      have hright₂ := (hf₂.slot k (Nat.lt_succ_self k)).trans hright₁
      obtain ⟨t₃, hlead₃, hs₃, hf₃, hc₃⟩ := ihr hbr hs₂ (by omega) (by omega) hend
        (by rw [hright₂]; exact entry_ne (by omega) (by omega))
      obtain ⟨hfilled, hnode₃, hkept⟩ :=
        hf₁.internal hf₂ hf₃ (by omega) hleft₁ hright₁ hnode
      refine ⟨t₃, ?_, ?_, hfilled, ?_⟩
      · rw [List.length_cons, List.length_append]
        exact .cons hstep (hlead₂.trans hlead₃)
      · rw [List.length_cons, List.length_append]
        convert hs₃ using 1
        omega
      · rw [List.length_cons, List.length_append]
        exact .internal ha hk hnode₃ (hc₂.congr hkept) hc₃

/-! ### The round trip -/

theorem seenAt_of_root_nil {s : State} (hr : s.root = Config.nil) (p : List Bool) :
    seenAt s p = none := by
  unfold seenAt
  rw [hr]
  cases p <;> rfl

/-- The state in which the host is about to give the bytes back that SER emitted. -/
def serReturned (s : State) : State :=
  withWords (serState s)
    (encode .deserInit :: (serBytes s).map fun b => encode (.deserByte b))

/-- DESER_INIT comes first, in IDLE with no error, with HDR_TBC at the number of bytes left to
issue. -/
theorem step_serReturned {s : State} (he : s.err = 0#8) (hm : s.mode = .idle) :
    ∃ u, step (serReturned s) = exec .deserInit u ∧ u.err = 0#8 ∧ u.mode = .idle ∧
      u.params = s.params ∧ u.hdrTbc.toNat = (serBytes s).length ∧
      u.inputs = byteInputs (serBytes s) := by
  have hinputs : (serReturned s).inputs = issue .deserInit :: byteInputs (serBytes s) := by
    rw [serReturned, withWords, List.map_cons, List.map_map]
    rfl
  exact ⟨_, step_of_issue hinputs, he, hm, rfl, serState_hdrTbc_toNat s, rfl⟩

/-- An empty tree has no byte to give back, and DESER_INIT leaves the empty tree. -/
theorem roundTrip_of_nil {s : State} (he : s.err = 0#8) (hm : s.mode = .idle)
    (hr : s.root = Config.nil) :
    ∃ t, Leads ((serBytes s).length + 1) (serReturned s) t ∧ t.err = 0#8 ∧ t.mode = .idle ∧
      ∀ p, seenAt t p = seenAt s p := by
  obtain ⟨u, hstep, hue, hum, -, htbc, -⟩ := step_serReturned he hm
  rw [serBytes_of_nil hr] at htbc ⊢
  rw [exec_deserInit_empty hue hum ((eq_zero_iff_toNat _).2 htbc)] at hstep
  refine ⟨sessionEmpty u, .cons hstep (.refl _), hue, hum, fun p => ?_⟩
  rw [seenAt_of_root_nil hr]
  exact seenAt_of_root_nil rfl p

/-- The bytes of a tree that is not empty rebuild it from entry 0. -/
theorem roundTrip_of_tree {s : State} (he : s.err = 0#8) (hm : s.mode = .idle)
    (hwf : wfTree s = true) (hr : s.root ≠ Config.nil) :
    ∃ t, Leads ((serBytes s).length + 1) (serReturned s) t ∧ t.err = 0#8 ∧ t.mode = .idle ∧
      (∀ p, seenAt t p = seenAt s p) ∧
      IsTree t 0#9 ((List.range t.nextNode.toNat).map (BitVec.ofNat 9)) ∧ t.root = 0#9 := by
  obtain ⟨l, hl, hd⟩ := ((wfTreeExactly s).1 hwf).resolve_left hr
  have hform := serialForm_serBytes hwf hr
  obtain ⟨u, hstep, hue, hum, hparams, htbc, hinputs⟩ := step_serReturned he hm
  have hsome : u.hdrTbc ≠ 0#13 := by
    rw [ne_eq, eq_zero_iff_toNat, htbc, List.length_eq_zero_iff]
    exact hform.ne_nil
  rw [exec_deserInit hue hum hsome] at hstep
  have hsession : Session s.params false 0 1 (serBytes s ++ []) (sessionOpened u) := by
    rw [List.append_nil]
    exact ⟨hue, rfl, hparams, rfl, rfl, rfl, htbc, hinputs⟩
  have hslot : slotAt (sessionOpened u) 0 = { parent := Config.nil, side := 0#1 } :=
    (slotAt_sessionOpened u 0).trans (if_pos rfl)
  obtain ⟨t, hlead, ht, hfilled, hcopy⟩ := deserialize_subtree hl hform hsession
    (by simpa using length_le_treeCap hd hl.ne_nil) le_rfl (iff_of_true rfl rfl)
    (by rw [hslot]; exact (entry_ne_nil (by decide)).symm)
  have hroot : t.root = BitVec.ofNat 9 0 := hfilled.root.trans (by rw [hslot, if_pos rfl])
  refine ⟨t, .cons hstep hlead, ht.err, ht.mode, hcopy.seenAt_eq hroot, ?_, hroot⟩
  rw [ht.nextNode, Nat.zero_add, List.range_eq_range']
  exact hcopy.isTree

/-- Settles O36: the bytes of the tree are given back to a session that DESER_INIT opens for
them. -/
theorem serDeserRoundTrip : Obligations.SerDeserRoundTrip := by
  intro s s' bs h he hout
  obtain ⟨hse, hsm, hwf, rfl⟩ := ser_of_no_error h he
  obtain rfl : serBytes s = bs := List.append_cancel_left hout
  by_cases hr : s.root = Config.nil
  · obtain ⟨t, hlead, hte, htm, hseen⟩ := roundTrip_of_nil hse hsm hr
    exact ⟨t, hlead, hte, htm, hseen, fun hne => absurd hr hne⟩
  · obtain ⟨t, hlead, hte, htm, hseen, htree⟩ := roundTrip_of_tree hse hsm hwf hr
    exact ⟨t, hlead, hte, htm, hseen, fun _ => htree⟩

end Sys2Proof.Machine
end

section
/-! PROOFS. 42_tree_deserializer.md R172, R177, R178, R181: the deserializer's invariants under every
step. `Completes` leaves open whether a node token ends the session; the completion rule (R172) says
when, so it is shown first that a tree byte which raises no error meets that rule. -/

namespace Sys2Proof.Machine

/-! ### The completion rule -/

/-- R172: the session ends with the last byte and the last position at once, and else has some of
both left. -/
def MeetsCompletionRule (t : State) : Prop :=
  (t.mode = .deser ∧ t.budget ≠ 0#13 ∧ t.sp ≠ 0#10) ∨
    (t.mode = .idle ∧ t.budget = 0#13 ∧ t.sp = 0#10 ∧ t.escPending = false)

theorem finishToken_cases {budget : BitVec 13} {s t : State} (h : finishToken budget s = .done t) :
    (s.sp = 0#10 ∧ budget = 0#13 ∧ t = { s with mode := .idle }) ∨
      (s.sp ≠ 0#10 ∧ budget ≠ 0#13 ∧ t = s) := by
  unfold finishToken at h
  split at h
  · next hsp =>
    split at h
    · cases h
    · next hb => cases h; exact .inl ⟨hsp, not_not.1 hb, rfl⟩
  · next hsp =>
    split at h
    · cases h
    · next hb => cases h; exact .inr ⟨hsp, hb, rfl⟩

theorem meetsCompletionRule_of_finishToken {s t : State} (hm : s.mode = .deser)
    (hesc : s.escPending = false) (h : finishToken s.budget s = .done t) :
    MeetsCompletionRule t := by
  obtain ⟨hsp, hb, rfl⟩ | ⟨hsp, hb, rfl⟩ := finishToken_cases h
  · exact .inr ⟨rfl, hb, hsp, hesc⟩
  · exact .inl ⟨hm, hb, hsp⟩

/-- Placing a token ends as the completion rule says. -/
theorem meetsCompletionRule_of_placeToken {node : Node} {opens : Bool} {s t : State}
    (hm : s.mode = .deser) (h : placeToken node opens (s.budget - 1#13) s = .done t) :
    MeetsCompletionRule t := by
  obtain ⟨hnode, hsp, hcap, _, -, hopens⟩ := placeToken_done h rfl
  have hk : s.sp.toNat = s.sp.toNat - 1 + 1 :=
    (Nat.sub_add_cancel (Nat.one_le_iff_ne_zero.2 (mt (eq_zero_iff_toNat _).2 hsp))).symm
  obtain ⟨rfl, -⟩ | ⟨rfl, hroom, -⟩ := hopens
  · rw [placeToken_leaf hnode hk (by omega)] at h
    exact meetsCompletionRule_of_finishToken (s := { afterToken node s with sp := _ }) hm rfl h
  · rw [placeToken_internal hnode hk (by omega)] at h
    exact meetsCompletionRule_of_finishToken
      (s := { openChildren _ _ (afterToken node s) with sp := _ }) hm rfl h

/-- A tree byte of an open session raises an error or meets the completion rule. -/
theorem meetsCompletionRule_of_deserByteBody {b : Byte} {s t : State} (hm : s.mode = .deser)
    (hsp : s.sp ≠ 0#10) (h : deserByteBody b s = .done t) : MeetsCompletionRule t := by
  unfold deserByteBody at h
  split at h
  · cases h
  dsimp only at h
  split at h
  · split at h
    · cases h
    · next hleft => cases h; exact .inl ⟨hm, hleft, hsp⟩
  · exact meetsCompletionRule_of_placeToken hm h
  · exact meetsCompletionRule_of_placeToken hm h

theorem meetsCompletionRule_of_exec {b : Byte} {s t : State} (hm : s.mode = .deser)
    (hsp : s.sp ≠ 0#10) (he : s.err = 0#8) (h : exec (.deserByte b) s = .next t)
    (ht : t.err = 0#8) : MeetsCompletionRule t := by
  obtain ⟨hpend, -⟩ | ⟨-, -, hdone⟩ | ⟨-, -, e, -, rfl⟩ | ⟨-, -, rfl⟩ := perform_cases h
  · exact absurd he hpend
  · exact meetsCompletionRule_of_deserByteBody hm hsp hdone
  · exact absurd ht (errCode_ne_zero e)
  · exact absurd ht (errCode_ne_zero .sequence)

/-! ### What a tree byte that completes does -/

theorem toNat_setWidth_nextNode {n : BitVec 10} (h : n.toNat < Config.treeCap) :
    (n.setWidth 9 : NodeIx).toNat = n.toNat := by
  rw [BitVec.toNat_setWidth]
  exact Nat.mod_eq_of_lt (Nat.lt_succ_of_lt h)

theorem toNat_nextNode_succ {n : BitVec 10} (h : n.toNat < Config.treeCap) :
    (n + 1#10).toNat = n.toNat + 1 := by
  simp only [Config.treeCap] at h
  bv_omega

/-- From `s` to `t` the node `node` has been placed at NEXT_NODE in the position on top of the
stack (R174, R175); what became of the stack and of MODE is left open. -/
structure Placed (node : Node) (s t : State) : Prop where
  room : s.nextNode.toNat < Config.treeCap
  nextNode : t.nextNode.toNat = s.nextNode.toNat + 1
  root : t.root = (afterToken node s).root
  nodes : t.nodes = (afterToken node s).nodes
  epoch : t.epoch = s.epoch

/-- A tree byte that completes is an escape, or it places a leaf and closes the top position, or it
places an Internal node and puts its children's positions in the place of the top one. -/
theorem Completes.byte_cases {s t : State} {b : Byte} (hc : Completes s (.deserByte b) t) :
    t = { s with budget := s.budget - 1#13, escPending := true } ∨
    (∃ v k, s.sp.toNat = k + 1 ∧ Placed (newLeaf v) s t ∧ t.sp.toNat = k ∧ t.stack = s.stack) ∨
    (∃ k, s.sp.toNat = k + 1 ∧ Placed newInternal s t ∧ t.sp.toNat = k + 2 ∧
      t.stack = (openChildren (s.nextNode.setWidth 9) k s).stack) := by
  cases hc with
  | deserEscape => exact .inl rfl
  | @deserLeaf _ v _ _ _ hnode hsp hcap _ =>
    have hpos : s.sp.toNat ≠ 0 := mt (eq_zero_iff_toNat _).2 hsp
    exact .inr (.inl ⟨v, s.sp.toNat - 1, by omega,
      ⟨hnode, toNat_nextNode_succ hnode, rfl, rfl, rfl⟩,
      (BitVec.toNat_ofNat ..).trans (Nat.mod_eq_of_lt (by omega)), rfl⟩)
  | deserInternal _ _ hnode hsp hcap _ =>
    have hpos : s.sp.toNat ≠ 0 := mt (eq_zero_iff_toNat _).2 hsp
    have hlt : s.sp.toNat < 512 := hcap
    exact .inr (.inr ⟨s.sp.toNat - 1, by omega,
      ⟨hnode, toNat_nextNode_succ hnode, rfl, rfl, rfl⟩,
      (BitVec.toNat_ofNat ..).trans (Nat.mod_eq_of_lt (by omega)), rfl⟩)

/-! ### Valid entries and live positions -/

/-- Filling a position changes one child field of the parent it names, and no entry when it names
ROOT. -/
theorem nodeEntry_attach (x : Slot) (n : NodeIx) (s : State) (k : Nat) :
    nodeEntry (attach x n s) k = if x.parent ≠ Config.nil ∧ k = x.parent.toNat
      then withChild x.side n (nodeEntry s k) else nodeEntry s k := by
  by_cases hx : x.parent = Config.nil
  · rw [attach, if_pos hx, if_neg fun h => h.1 hx]
    rfl
  · rw [attach_of_ne_nil hx, nodeEntry_setNode]
    by_cases hk : k = x.parent.toNat <;> simp [hk, hx]

theorem withChild_valid (side : BitVec 1) (n : NodeIx) (p : Node) :
    (withChild side n p).valid = p.valid := by
  unfold withChild
  split <;> rfl

theorem withChild_kind (side : BitVec 1) (n : NodeIx) (p : Node) :
    (withChild side n p).kind = p.kind := by
  unfold withChild
  split <;> rfl

theorem valid_attach (x : Slot) (n : NodeIx) (s : State) (k : Nat) :
    (nodeEntry (attach x n s) k).valid = (nodeEntry s k).valid := by
  rw [nodeEntry_attach, apply_ite Node.valid, withChild_valid, ite_self]

theorem slotOk_iff {s : State} {k : Nat} : slotOk s k = true ↔
    ∃ x, tblGet s.stack k = some x ∧ (x.parent = Config.nil ∨
      (x.parent.toNat < s.nextNode.toNat ∧ (nodeEntry s x.parent.toNat).valid = true)) := by
  unfold slotOk
  cases hx : tblGet s.stack k with
  | none => simp
  | some x =>
    cases hn : tblGet s.nodes x.parent.toNat <;> simp [nodeEntry, hn]

theorem tblGet_openChildren (n : NodeIx) (k m : Nat) (s : State) :
    tblGet (openChildren n k s).stack m =
      if m = k + 1 then some { parent := n, side := 0#1 }
      else if m = k then some { parent := n, side := 1#1 } else tblGet s.stack m := by
  rw [openChildren, setSlot_stack, tblGet_tblSet, setSlot_stack, tblGet_tblSet]

section

variable {node : Node} {s t : State} (h : Placed node s t)

include h

theorem Placed.nextNode_le : t.nextNode.toNat ≤ Config.treeCap :=
  h.nextNode.trans_le h.room

theorem Placed.nodeEntry_eq (k : Nat) : nodeEntry t k =
    nodeEntry (attach (slotAt s (s.sp.toNat - 1)) (s.nextNode.setWidth 9)
      (setNode s (s.nextNode.setWidth 9) node)) k :=
  nodeEntry_congr (s := attach _ _ (setNode s _ node)) h.nodes
    (h.epoch.trans (attach_epoch _ _ (setNode s _ node)).symm) k

variable (hv : node.valid = true)

include hv

/-- A placed token makes its own entry valid and no other. -/
theorem Placed.valid_iff (k : Nat) : (nodeEntry t k).valid = true ↔
    k = s.nextNode.toNat ∨ (nodeEntry s k).valid = true := by
  rw [h.nodeEntry_eq, valid_attach, nodeEntry_setNode, toNat_setWidth_nextNode h.room]
  split
  · next hk => exact iff_of_true hv (.inl hk)
  · next hk => exact (or_iff_right hk).symm

/-- A live position whose stack entry stays is still live. -/
theorem Placed.slotOk_mono {k : Nat} (hk : slotOk s k = true)
    (hslot : tblGet t.stack k = tblGet s.stack k) : slotOk t k = true := by
  obtain ⟨x, hx, hparent⟩ := slotOk_iff.1 hk
  exact slotOk_iff.2 ⟨x, hslot.trans hx, hparent.imp_right fun ⟨hlt, hvalid⟩ =>
    ⟨h.nextNode ▸ Nat.lt_succ_of_lt hlt, (h.valid_iff hv _).2 (.inr hvalid)⟩⟩

/-- A position of the node just placed is live. -/
theorem Placed.slotOk_child {k : Nat} {x : Slot} (hx : tblGet t.stack k = some x)
    (hparent : x.parent = s.nextNode.setWidth 9) : slotOk t k = true := by
  have hnum := (congrArg BitVec.toNat hparent).trans (toNat_setWidth_nextNode h.room)
  exact slotOk_iff.2 ⟨x, hx, .inr ⟨hnum ▸ h.nextNode ▸ Nat.lt_succ_self _,
    (h.valid_iff hv _).2 (.inl hnum)⟩⟩

end

/-! ### The invariant -/

/-- Outside a session only the bound on NEXT_NODE and the session's registers count. -/
theorem deserOk_of_closed {t : State} (hm : t.mode ≠ .deser)
    (hnext : t.nextNode.toNat ≤ Config.treeCap) (hb : t.budget = 0#13) (hsp : t.sp = 0#10)
    (hesc : t.escPending = false) : DeserOk t :=
  ⟨hnext, fun h => absurd h hm, fun _ => ⟨hb, hsp, hesc⟩⟩

/-- After a tree byte the completion rule answers for MODE, BUDGET and SP. -/
theorem deserOk_of_meetsCompletionRule {t : State} (h : MeetsCompletionRule t)
    (hnext : t.nextNode.toNat ≤ Config.treeCap) (hsp : t.sp.toNat ≤ t.nextNode.toNat + 1)
    (hlive : ∀ k < t.sp.toNat, slotOk t k = true) : DeserOk t := by
  obtain ⟨hm, hb, hsp0⟩ | ⟨hm, hb, hsp0, hesc⟩ := h
  · exact ⟨hnext, fun _ => ⟨hb, hsp0, hsp, hlive⟩, fun hne => absurd hm hne⟩
  · exact deserOk_of_closed (hm ▸ nofun) hnext hb hsp0 hesc

/-- The invariant speaks of MODE, the node memory and the session only. -/
theorem DeserOk.congr {s t : State} (h : DeserOk s) (hm : t.mode = s.mode)
    (hn : t.nodes = s.nodes) (hnext : t.nextNode = s.nextNode) (hb : t.budget = s.budget)
    (hesc : t.escPending = s.escPending) (hstack : t.stack = s.stack) (hsp : t.sp = s.sp) :
    DeserOk t := by
  have hslot (k : Nat) : slotOk t k = slotOk s k := by
    unfold slotOk
    rw [hstack, hn, hnext]
  unfold DeserOk
  simp only [hm, hnext, hb, hesc, hsp, hslot]
  exact h

theorem DeserOk.budget_ne_zero {s : State} (h : DeserOk s) (hm : s.mode = .deser) :
    s.budget ≠ 0#13 := (h.2.1 hm).1

theorem DeserOk.sp_ne_zero {s : State} (h : DeserOk s) (hm : s.mode = .deser) :
    s.sp ≠ 0#10 := (h.2.1 hm).2.1

theorem deserOk_errorEntry {s : State} (h : DeserOk s) (e : Err) (cw : Word) (d : Bool) :
    DeserOk (errorEntry e cw d s) := by
  by_cases hd : s.mode = .deser ∨ d = true
  · rw [errorEntry_of_deser hd]
    exact deserOk_of_closed nofun (Nat.zero_le _) rfl rfl rfl
  · obtain ⟨hm, hd⟩ := not_or.1 hd
    rw [errorEntry_of_not_deser hm (by simpa using hd)]
    obtain ⟨hnext, -, hclosed⟩ := h
    obtain ⟨hb, hsp, hesc⟩ := hclosed hm
    exact deserOk_of_closed nofun hnext hb hsp hesc

theorem deserOk_sessionOpened {s : State} (htbc : s.hdrTbc ≠ 0#13) : DeserOk (sessionOpened s) := by
  refine ⟨Nat.zero_le _, fun _ => ⟨htbc, nofun, le_rfl, fun k hk => ?_⟩, fun h => absurd rfl h⟩
  obtain rfl : k = 0 := Nat.lt_one_iff.1 hk
  exact slotOk_iff.2 ⟨_, tblGet_tblSet_self s.stack 0 _, .inl rfl⟩

/-- With no session open only DESER_INIT opens one, and nothing raises NEXT_NODE. -/
theorem deserOk_completes_closed {s t : State} {i : Instr} (h : DeserOk s) (hm : s.mode ≠ .deser)
    (ha : accepts i s.mode = true) (hc : Completes s i t) : DeserOk t := by
  obtain ⟨hnext, -, hclosed⟩ := h
  obtain ⟨hb, hsp, hesc⟩ := hclosed hm
  cases hc with
  | reset => exact deserOk_of_closed nofun (Nat.zero_le _) rfl rfl rfl
  | treeClear => exact deserOk_of_closed hm (Nat.zero_le _) hb hsp hesc
  | deserInitEmpty htbc => exact deserOk_of_closed hm (Nat.zero_le _) htbc rfl rfl
  | deserInit htbc => exact deserOk_sessionOpened htbc
  | deserEscape => exact absurd (eq_of_beq ha) hm
  | deserLeaf => exact absurd (eq_of_beq ha) hm
  | deserInternal => exact absurd (eq_of_beq ha) hm
  | packInit => exact deserOk_of_closed nofun hnext hb hsp hesc
  | packFlushNone => exact deserOk_of_closed nofun hnext hb hsp hesc
  | packFlush => exact deserOk_of_closed nofun hnext hb hsp hesc
  | unpackInit => exact deserOk_of_closed nofun hnext hb hsp hesc
  | unpackEnd => exact deserOk_of_closed nofun hnext hb hsp hesc
  | _ => exact deserOk_of_closed hm hnext hb hsp hesc

/-- In an open session a tree byte keeps every position that stays open, and the two that an Internal
token opens name the node it places. -/
theorem deserOk_completes_byte {s t : State} {b : Byte} (h : DeserOk s) (hm : s.mode = .deser)
    (hc : Completes s (.deserByte b) t) (hend : MeetsCompletionRule t) : DeserOk t := by
  obtain ⟨hnext, hopen, -⟩ := h
  obtain ⟨-, -, hbound, hlive⟩ := hopen hm
  obtain rfl | ⟨v, k, hsp, hp, hsp', hstack⟩ | ⟨k, hsp, hp, hsp', hstack⟩ := hc.byte_cases
  · exact deserOk_of_meetsCompletionRule hend hnext hbound hlive
  · refine deserOk_of_meetsCompletionRule hend hp.nextNode_le (by rw [hp.nextNode]; omega)
      fun m hk => hp.slotOk_mono rfl (hlive m (by omega)) (by rw [hstack])
  · have hread (m : Nat) := tblGet_openChildren (s.nextNode.setWidth 9) k m s
    rw [← hstack] at hread
    refine deserOk_of_meetsCompletionRule hend hp.nextNode_le (by rw [hp.nextNode]; omega)
      fun m hk => ?_
    by_cases hleft : m = k + 1
    · exact hp.slotOk_child rfl ((hread m).trans (if_pos hleft)) rfl
    by_cases hright : m = k
    · exact hp.slotOk_child rfl ((hread m).trans ((if_neg hleft).trans (if_pos hright))) rfl
    · exact hp.slotOk_mono rfl (hlive m (by omega))
        ((hread m).trans ((if_neg hleft).trans (if_neg hright)))

theorem deserOk_exec {s t : State} {i : Instr} (h : DeserOk s) (hx : exec i s = .next t) :
    DeserOk t := by
  obtain ⟨-, rfl⟩ | ⟨e, rfl⟩ | ⟨hd, ha, hc⟩ := exec_cases hx
  · exact h
  · exact deserOk_errorEntry h e _ _
  by_cases hm : s.mode = .deser
  · cases i with
    | nop => cases hc; exact h
    | reset => cases hc; exact deserOk_of_closed nofun (Nat.zero_le _) rfl rfl rfl
    | errClr => cases hc; exact h.congr rfl rfl rfl rfl rfl rfl rfl
    | deserByte b =>
      have he : s.err = 0#8 := by simpa using hd
      have ht : t.err = 0#8 := by
        obtain ⟨herr, -⟩ | ⟨herr, -⟩ := hc.status
        · exact herr.trans he
        · exact herr
      exact deserOk_completes_byte h hm hc
        (meetsCompletionRule_of_exec hm (h.sp_ne_zero hm) he hx ht)
    | _ => rw [hm] at ha; cases ha
  · exact deserOk_completes_closed h hm ha hc

/-- Settles O52: DESER_INIT opens a session with one position, a tree byte keeps the invariant as the
completion rule requires, and every error closes the session. -/
theorem stepKeepsDeserializer : Obligations.StepKeepsDeserializer := by
  intro s t hs h
  obtain ⟨-, rfl⟩ | ⟨cw, rest, i, -, -, hx⟩ | ⟨cw, rest, e, -, -, hx⟩ | ⟨a, rest, -, rfl⟩ |
    ⟨ab, rest, -, rfl⟩ := step_cases h
  · exact hs
  · exact deserOk_exec (s := takeInput s rest) hs hx
  · obtain ⟨-, rfl⟩ | ⟨-, rfl⟩ := performIllegal_cases hx
    · exact hs
    · exact deserOk_errorEntry (s := takeInput s rest) hs _ _ _
  · exact hs
  · exact deserOk_of_closed nofun (Nat.zero_le _) rfl rfl rfl

end Sys2Proof.Machine
end

section
/-! PROOFS. 42_tree_deserializer.md R171 to R175: what DESER_INIT and each kind of tree byte leave in
every element. -/

namespace Sys2Proof.Machine

/-- Settles O30: the two ends of DESER_INIT, each on the cleared tree. -/
theorem deserInitResult : Obligations.DeserInitResult := by
  intro s he hm
  by_cases htbc : s.hdrTbc = 0#13
  · exact ⟨sessionEmpty s, exec_deserInit_empty he hm htbc, rfl, rfl, rfl, rfl,
      nodeEntry_clearTree s, rfl, fun _ => ⟨rfl, hm, rfl⟩, fun h => absurd htbc h⟩
  · exact ⟨sessionOpened s, exec_deserInit he hm htbc, rfl, rfl, rfl, rfl,
      nodeEntry_clearTree s, rfl, fun h => absurd h htbc, fun _ => ⟨rfl, rfl,
        (slotAt_sessionOpened s 0).trans (if_pos rfl),
        fun k hk => (slotAt_sessionOpened s k).trans (if_neg hk)⟩⟩

/-- Settles O31: with a byte left after it, an escape byte lowers BUDGET and is remembered. -/
theorem deserByteEscape : Obligations.DeserByteEscape := by
  intro s he hm hesc hb
  have htok : tokenOf s.params s.escPending s.params.escapeByte = .escape := by
    simp [tokenOf, hesc]
  exact ⟨_, exec_deserByte_escape he hm hb htok, by bv_omega, rfl⟩

/-- The claims' reading of a placed token is the model's. -/
theorem nodeAfterToken_eq (s : State) (x : Slot) (n : NodeIx) (node : Node) (j : NodeIx) :
    nodeAfterToken s x n node j =
      if j = n then some node
      else if j = x.parent then (nodeAt s j).map (withChild x.side n) else nodeAt s j := by
  unfold nodeAfterToken
  cases nodeAt s j <;> rfl

/-- What a placed token leaves in every entry and in the session's counters, when `k` positions are
open afterwards. -/
theorem tokenState_reads {s : State} {k : Nat} (hn : s.nextNode.toNat < Config.treeCap)
    (hk : k < 1024) (hb : 1 ≤ s.budget.toNat)
    (hx : (slotAt s (s.sp.toNat - 1)).parent ≠ s.nextNode.setWidth 9) (node : Node)
    (stk : Table Slot) :
    let t := tokenState node stk k s
    t.nextNode.toNat = s.nextNode.toNat + 1 ∧ t.sp.toNat = k ∧
    t.budget.toNat + 1 = s.budget.toNat ∧
    t.root = (if (slotAt s (s.sp.toNat - 1)).parent = Config.nil then s.nextNode.setWidth 9
      else s.root) ∧
    ∀ j, nodeAt t j =
      nodeAfterToken s (slotAt s (s.sp.toNat - 1)) (s.nextNode.setWidth 9) node j := by
  refine ⟨toNat_nextNode_succ hn, (BitVec.toNat_ofNat ..).trans (Nat.mod_eq_of_lt hk),
    show (s.budget - 1#13).toNat + 1 = _ by bv_omega, attach_root .., fun j => ?_⟩
  rw [nodeAfterToken_eq]
  exact nodeAt_afterToken rfl rfl (setWidth_ne_nil hn) hx node j

/-- Settles O32: a Leaf token closes the top position and leaves the stack's entries. -/
theorem deserByteLeaf : Obligations.DeserByteLeaf := by
  intro s b he hm hlit hn hsp hcap hx hend
  have htok : tokenOf s.params s.escPending b = .leaf b := by
    unfold tokenOf
    obtain hesc | ⟨hesc, hsent⟩ := hlit
    · rw [if_pos hesc]
    · rw [if_neg hesc, if_neg hsent, ite_self]
  have hexec := exec_deserByte_leaf (k := s.sp.toNat - 1) (r := s.budget.toNat - 1) he hm hn
    (by omega) (by omega) htok (show _ < 512 by omega) (by omega)
  obtain ⟨hnext, hsp', hb, hroot, hnode⟩ := tokenState_reads (k := s.sp.toNat - 1) hn (by omega)
    (by omega) hx (newLeaf b) s.stack
  refine ⟨_, hexec, hnext, by omega, hb, rfl, ?_, hroot, hnode, rfl⟩
  exact if_congr (by omega) rfl rfl

/-- Settles O33: an Internal token puts its two children's positions on the stack. -/
theorem deserByteInternal : Obligations.DeserByteInternal := by
  intro s he hm hesc hn hsp hcap hb hx
  have htok : tokenOf s.params s.escPending s.params.sentinelByte = .internal := by
    simp [tokenOf, hesc, s.params.differ]
  have hexec := exec_deserByte_internal (k := s.sp.toNat - 1) (r := s.budget.toNat - 1) he hm hn
    (by omega) (by omega) htok (show _ < 512 by omega) (by omega)
  obtain ⟨hnext, hsp', hb', hroot, hnode⟩ := tokenState_reads (k := s.sp.toNat - 1 + 2) hn (by omega)
    (by omega) hx newInternal
    (openChildren (s.nextNode.setWidth 9) (s.sp.toNat - 1) s).stack
  have hslot (m : Nat) := slotAt_openChildren (s.nextNode.setWidth 9) (s.sp.toNat - 1) m s
  refine ⟨_, hexec, hnext, by omega, hb', hroot, hnode, ?_, ?_, fun m hright hleft => ?_, ?_⟩
  · exact (hslot _).trans ((if_neg (by omega)).trans (if_pos rfl))
  · exact (hslot _).trans (if_pos (by omega))
  · exact (hslot m).trans ((if_neg (by omega)).trans (if_neg hright))
  · simp [tokenState, afterToken, hm, hesc]

end Sys2Proof.Machine
end

section
/-! PROOFS. 42_tree_deserializer.md R177, R178, 70_reset_and_hazards.md R353: no step stops. Dispatch
never refuses, and of the commands' own rules only DESER_BYTE and UNPACK_BYTE can stop; the invariants
rule out what they would stop at. -/

namespace Sys2Proof.Machine

/-! ### The deserializer -/

theorem finishToken_ne_stuck (budget : BitVec 13) (s : State) (f : Fault) :
    finishToken budget s ≠ .stuck f := by
  unfold finishToken
  split
  · split <;> exact nofun
  · split <;> exact nofun

theorem lt_treeCap_of_ne {n : BitVec 10} (h : n.toNat ≤ Config.treeCap) (hn : n ≠ 511#10) :
    n.toNat < Config.treeCap := lt_of_le_of_ne h fun e => hn (BitVec.eq_of_toNat_eq e)

/-- With a node index left the stack has room: it holds at most one position more than there are
nodes. -/
theorem placeToken_ne_stuck {s : State} (h : DeserOk s) (hm : s.mode = .deser) (node : Node)
    (opens : Bool) (f : Fault) : placeToken node opens (s.budget - 1#13) s ≠ .stuck f := by
  obtain ⟨hnext, hopen, -⟩ := h
  obtain ⟨-, hsp, hbound, -⟩ := hopen hm
  by_cases hfull : s.nextNode = 511#10
  · rw [placeToken, if_pos hfull]
    exact nofun
  have hn := lt_treeCap_of_ne hnext hfull
  have hpos : s.sp.toNat ≠ 0 := mt (eq_zero_iff_toNat _).2 hsp
  have hlt : s.nextNode.toNat < 511 := hn
  have hroom : s.sp.toNat - 1 + 1 < 512 := by omega
  cases opens with
  | false =>
    rw [placeToken_leaf hn (k := s.sp.toNat - 1) (by omega) (Nat.lt_of_succ_lt hroom)]
    exact finishToken_ne_stuck _ _ f
  | true =>
    rw [placeToken_internal hn (k := s.sp.toNat - 1) (by omega) hroom]
    exact finishToken_ne_stuck _ _ f

theorem deserByteBody_ne_stuck {s : State} (h : DeserOk s) (hm : s.mode = .deser) (b : Byte)
    (f : Fault) : deserByteBody b s ≠ .stuck f := by
  unfold deserByteBody
  rw [if_neg (h.budget_ne_zero hm)]
  dsimp only
  split
  · split <;> exact nofun
  · exact placeToken_ne_stuck h hm _ _ f
  · exact placeToken_ne_stuck h hm _ _ f

/-! ### The unpacker -/

theorem emitFirst_ne_noEntry {v : Byte} {w : Walked} (h : w ≠ .noEntry) :
    emitFirst v w ≠ .noEntry := by
  cases w with
  | noEntry => exact absurd rfl h
  | _ => exact nofun

/-- Every node that a path from ROOT leads to in a tree that passes the check is an entry. -/
theorem nodeAt_of_follow {s : State} (hwf : wfTree s = true) (hroot : s.root ≠ Config.nil)
    {p : List Bool} {j : NodeIx} (hp : follow s s.root p = some j) : ∃ n, nodeAt s j = some n := by
  obtain ⟨n, hn, -⟩ := valid_of_follow (wfWalk_of_wfTree hwf hroot) List.mem_cons_self hp
  exact ⟨n, hn⟩

/-- The loop of UNPACK_BYTE finds an entry at ROOT, at its cursor and at every child it steps to. -/
theorem unpackBits_ne_noEntry {s : State} (hwf : wfTree s = true) (hroot : s.root ≠ Config.nil)
    (bits : List Bool) : ∀ {cur : NodeIx}, CursorAt s cur → unpackBits s bits cur ≠ .noEntry := by
  obtain ⟨r, hr⟩ := nodeAt_of_follow hwf hroot (p := []) rfl
  induction bits with
  | nil => exact nofun
  | cons b bits ih =>
    intro cur h
    rw [unpackBits, hr]
    dsimp only
    cases hk : r.kind with
    | leaf =>
      cases b with
      | true => exact nofun
      | false => exact emitFirst_ne_noEntry (ih h)
    | internal =>
      obtain ⟨c, hc⟩ : ∃ c, nodeAt s cur = some c := by
        obtain rfl | ⟨-, c, -, hc, -⟩ := h
        · exact ⟨r, hr⟩
        · exact ⟨c, hc⟩
      obtain ⟨p, hp⟩ := h.path_child hr hk hc b
      obtain ⟨n, hn⟩ := nodeAt_of_follow hwf hroot hp
      dsimp only
      rw [hc]
      dsimp only
      rw [hn]
      dsimp only
      cases hnk : n.kind with
      | leaf => exact emitFirst_ne_noEntry (ih (.inl rfl))
      | internal => exact ih (.inr ⟨p, n, hp, hn, hnk⟩)

theorem unpackByteBody_ne_stuck {s : State} (h : UnpackOk s) (hm : s.mode = .unpack) (b : Byte)
    (f : Fault) : unpackByteBody b s ≠ .stuck f := by
  obtain ⟨hwf, hroot, hcur⟩ := h hm
  unfold unpackByteBody
  split
  · exact nofun
  next hbits =>
  have hwalk := unpackBits_ne_noEntry hwf (hroot hbits) (payloadBits b (bitsTaken s)) hcur
  split
  · exact nofun
  · exact nofun
  · next hnone => exact absurd hnone hwalk

/-! ### Every command and every step -/

theorem ownRule_ne_stuck {i : Instr} {s : State} (h : Consistent s) (ha : accepts i s.mode = true)
    (f : Fault) : ownRule i s ≠ .stuck f := by
  obtain ⟨-, -, -, hdeser, -, hunpack⟩ := h
  cases i with
  | deserByte b => exact deserByteBody_ne_stuck hdeser (eq_of_beq ha) b f
  | unpackByte b => exact unpackByteBody_ne_stuck hunpack (eq_of_beq ha) b f
  | nodeWr idx k v l r => rw [ownRule, nodeWrBody]; split <;> exact nofun
  | codegen => rw [ownRule, codegenBody]; split <;> exact nofun
  | ser =>
    rw [ownRule, serBody]
    split
    · dsimp only; split <;> exact nofun
    · exact nofun
  | deserInit => rw [ownRule, deserInitBody]; dsimp only; split <;> exact nofun
  | packByte b => rw [ownRule, packByteBody]; split <;> exact nofun
  | unpackInit len =>
    rw [ownRule, unpackInitBody]
    split
    · split
      · exact nofun
      · split <;> exact nofun
    · exact nofun
  | unpackEnd =>
    rw [ownRule, unpackEndBody]
    split
    · exact nofun
    · split <;> exact nofun
  | _ => exact nofun

/-- In a state that meets the invariants every command answers a next state. -/
theorem exec_safe {s : State} (h : Consistent s) (i : Instr) : ∃ t, exec i s = .next t := by
  by_cases hr : i = .reset
  · subst hr; exact ⟨_, rfl⟩
  by_cases hc : i = .errClr
  · subst hc; exact ⟨_, rfl⟩
  rw [exec_eq_perform hr hc]
  cases hx : perform i (ownRule i) s with
  | next t => exact ⟨t, rfl⟩
  | fault f =>
    obtain ⟨-, ha, hstuck⟩ := body_of_perform_fault hx
    exact absurd hstuck (ownRule_ne_stuck h ha f)
  | refused r => exact absurd hx (perform_ne_refused _ _ _ r)

theorem performIllegal_safe (cw : Word) (s : State) : ∃ t, performIllegal cw s = .next t := by
  unfold performIllegal
  split
  · exact ⟨_, rfl⟩
  · exact ⟨_, rfl⟩

theorem consistent_takeInput {s : State} (h : Consistent s) (rest : List HostInput) :
    Consistent (takeInput s rest) := by
  obtain ⟨hmem, hstatus, hpack, hdeser, hcode, hunpack⟩ := h
  exact ⟨hmem, hstatus, hpack, hdeser, hcode, unpackOk_keptByParts.takeInput s rest hunpack⟩

/-- Settles O56: a command is safe under the invariants, and nothing else can stop. -/
theorem stepNeverStops : Obligations.StepNeverStops := by
  intro s h
  unfold SafeStep step serve
  split
  · exact ⟨s, rfl⟩
  next a rest _ =>
  cases a with
  | command cw =>
    show ∃ t, performWord cw (takeInput s rest) = .next t
    unfold performWord
    split
    · exact exec_safe (consistent_takeInput h rest) _
    · exact performIllegal_safe cw _
  | read a => exact ⟨_, rfl⟩
  | hardwareReset ab => exact ⟨_, rfl⟩

end Sys2Proof.Machine
end

section
/-! PROOFS. 42_tree_deserializer.md R174, R179: the tree a session leaves. While positions are open the
node memory holds a part of a tree. The invariant says what that part is worth: every state that keeps
it and has, in the open positions, trees of the entries `m` one after another holds one tree, whose
pre-order is the entries placed so far and then `m`. When no position is open the state itself is such
a state. -/

namespace Sys2Proof.Machine

/-! ### Positions -/

/-- The child field of a node on one side. -/
def childOn (side : BitVec 1) (p : Node) : NodeIx := if side = 0#1 then p.left else p.right

/-- What the position `x` holds. -/
def childAt (t : State) (x : Slot) : NodeIx :=
  if x.parent = Config.nil then t.root else childOn x.side (nodeEntry t x.parent.toNat)

/-- `x` names ROOT, as DESER_INIT does, or a child field of an entry below `n`. -/
def PositionBelow (n : Nat) (x : Slot) : Prop :=
  x = { parent := Config.nil, side := 0#1 } ∨ x.parent.toNat < n

/-- The `k` lowest entries of the slot stack, the top one first. -/
def openSlots (t : State) : Nat → List Slot
  | 0 => []
  | k + 1 => slotAt t k :: openSlots t k

/-- The positions that a node of kind `k` at entry `i` opens, the left one first. -/
def childSlots (i : NodeIx) : Kind → List Slot
  | .leaf => []
  | .internal => [{ parent := i, side := 0#1 }, { parent := i, side := 1#1 }]

theorem parent_of_mem_childSlots {i : NodeIx} {k : Kind} {x : Slot} (h : x ∈ childSlots i k) :
    x.parent = i := by
  cases k with
  | leaf => cases h
  | internal =>
    simp only [childSlots, List.mem_cons, List.not_mem_nil, or_false] at h
    obtain rfl | rfl := h <;> rfl

theorem childSlots_nodup (i : NodeIx) (k : Kind) : (childSlots i k).Nodup := by
  cases k <;> simp [childSlots]

theorem childOn_withChild (a side : BitVec 1) (n : NodeIx) (p : Node) :
    childOn a (withChild side n p) = if a = side then n else childOn a p := by
  obtain rfl | rfl := BitVec.eq_zero_or_eq_one a <;>
    obtain rfl | rfl := BitVec.eq_zero_or_eq_one side <;> rfl

theorem PositionBelow.mono {n m : Nat} {x : Slot} (h : PositionBelow n x) (hnm : n ≤ m) :
    PositionBelow m x := h.imp_right (Nat.lt_of_lt_of_le · hnm)

/-- A position below an entry is none of the entry's own. -/
theorem PositionBelow.not_mem_childSlots {i : NodeIx} {x : Slot} (h : PositionBelow i.toNat x)
    (hi : i ≠ Config.nil) (k : Kind) : x ∉ childSlots i k := by
  intro hx
  obtain rfl := parent_of_mem_childSlots hx
  obtain rfl | hlt := h
  · exact hi rfl
  · exact lt_irrefl _ hlt

theorem childAt_congr {s t : State} (hr : t.root = s.root) (h : t.nodes = s.nodes)
    (he : t.epoch = s.epoch) (x : Slot) : childAt t x = childAt s x := by
  unfold childAt
  rw [hr, nodeEntry_congr h he]

theorem openSlots_congr {s t : State} {k : Nat} (h : ∀ m < k, slotAt t m = slotAt s m) :
    openSlots t k = openSlots s k := by
  induction k with
  | zero => rfl
  | succ k ih =>
    rw [openSlots, openSlots, h k (Nat.lt_succ_self k), ih fun m hm => h m (Nat.lt_succ_of_lt hm)]

/-- A forest that starts with the children of node `i` is the forest that starts with `i`. -/
theorem isForest_of_children {t : State} {i : NodeIx} {c : Node} (hc : nodeAt t i = some c)
    (hv : c.valid = true) {rest m : List NodeIx}
    (h : IsForest t ((childSlots i c.kind).map (childAt t) ++ rest) m) :
    IsForest t (i :: rest) (i :: m) := by
  have hi := ne_nil_of_nodeAt hc
  refine isForest_cons.2 ⟨c, m, hc, hv, rfl, ?_⟩
  cases hk : c.kind with
  | leaf =>
    rw [hk] at h
    exact .inl ⟨rfl, h⟩
  | internal =>
    rw [hk] at h
    have hleft : childAt t { parent := i, side := 0#1 } = c.left := by
      simp [childAt, childOn, hi, nodeEntry_of_nodeAt hc]
    have hright : childAt t { parent := i, side := 1#1 } = c.right := by
      simp [childAt, childOn, hi, nodeEntry_of_nodeAt hc]
    simp only [childSlots, List.map_cons, List.map_nil, hleft, hright] at h
    exact .inr ⟨rfl, h⟩

/-! ### A part of a tree -/

/-- `t'` keeps the entries of `t` below `n`, up to the positions `ps`. -/
structure Extends (n : Nat) (ps : List Slot) (t t' : State) : Prop where
  child : ∀ x, PositionBelow n x → x ∉ ps → childAt t' x = childAt t x
  valid : ∀ j < n, (nodeEntry t' j).valid = (nodeEntry t j).valid
  kind : ∀ j < n, (nodeEntry t' j).kind = (nodeEntry t j).kind

/-- The entries 0 to `n - 1`. -/
def entriesBelow (n : Nat) : List NodeIx := (List.range n).map (BitVec.ofNat 9)

theorem entriesBelow_succ (n : Nat) :
    entriesBelow (n + 1) = entriesBelow n ++ [BitVec.ofNat 9 n] := by
  rw [entriesBelow, List.range_succ, List.map_append]
  rfl

/-- The valid entries of `t` are those below `n`, and they are the start of a tree in pre-order, with
the positions `ps` still open. -/
structure PartTree (n : Nat) (ps : List Slot) (t : State) : Prop where
  bound : n ≤ Config.treeCap
  valid : ∀ k, (nodeEntry t k).valid = true ↔ k < n
  position : ∀ x ∈ ps, PositionBelow n x
  nodup : ps.Nodup
  tree : ∀ t' m, Extends n ps t t' → IsForest t' (ps.map (childAt t')) m →
    IsTree t' t'.root (entriesBelow n ++ m)

theorem PartTree.congr {n : Nat} {ps : List Slot} {s t : State} (h : PartTree n ps s)
    (hr : t.root = s.root) (hn : t.nodes = s.nodes) (he : t.epoch = s.epoch) : PartTree n ps t where
  bound := h.bound
  valid k := by rw [nodeEntry_congr hn he, h.valid]
  position := h.position
  nodup := h.nodup
  tree t' m hext := h.tree t' m
    ⟨fun x hx hps => (hext.child x hx hps).trans (childAt_congr hr hn he x),
      fun j hj => (hext.valid j hj).trans (by rw [nodeEntry_congr hn he]),
      fun j hj => (hext.kind j hj).trans (by rw [nodeEntry_congr hn he])⟩

/-- With no position open the part is the whole. -/
theorem PartTree.isTree {n : Nat} {t : State} (h : PartTree n [] t) :
    IsTree t t.root (entriesBelow n) := by
  simpa using h.tree t [] ⟨fun _ _ _ => rfl, fun _ _ => rfl, fun _ _ => rfl⟩ .nil

theorem partTree_sessionOpened (s : State) :
    PartTree 0 (openSlots (sessionOpened s) 1) (sessionOpened s) := by
  have hopen : openSlots (sessionOpened s) 1 = [{ parent := Config.nil, side := 0#1 }] :=
    congrArg (· :: []) ((slotAt_sessionOpened s 0).trans (if_pos rfl))
  rw [hopen]
  refine ⟨Nat.zero_le _, fun k => ?_, fun x hx => .inl (List.mem_singleton.1 hx),
    List.nodup_singleton _, fun t' m _ hm => isForest_singleton.1 hm⟩
  rw [show nodeEntry (sessionOpened s) k = _ from nodeEntry_clearTree s k]
  exact iff_of_false nofun (Nat.not_lt_zero k)

/-! ### A node token -/

/-- The position that the next node fills. -/
abbrev topSlot (s : State) : Slot := slotAt s (s.sp.toNat - 1)

/-- The entry at which the next node is placed. -/
abbrev nextEntry (s : State) : NodeIx := s.nextNode.setWidth 9

theorem ne_nil_of_toNat_lt {i : NodeIx} (h : i.toNat < Config.treeCap) : i ≠ Config.nil :=
  fun e => absurd h (e ▸ Nat.lt_irrefl 511)

section

variable {node : Node} {s t : State} (h : Placed node s t)

include h

theorem Placed.toNat_nextEntry : (nextEntry s).toNat = s.nextNode.toNat :=
  toNat_setWidth_nextNode h.room

/-- Of the entries below the new one, only the parent that the position names is changed, and of that
only the one child field. -/
theorem Placed.nodeEntry_of_lt {k : Nat} (hk : k < s.nextNode.toNat) :
    nodeEntry t k = if k = (topSlot s).parent.toNat
      then withChild (topSlot s).side (nextEntry s) (nodeEntry s k) else nodeEntry s k := by
  rw [h.nodeEntry_eq, nodeEntry_attach, nodeEntry_setNode, h.toNat_nextEntry,
    if_neg (Nat.ne_of_lt hk)]
  refine if_congr (and_iff_right_of_imp ?_) rfl rfl
  rintro rfl
  exact ne_nil_of_toNat_lt (hk.trans h.room)

theorem Placed.kind_of_lt {k : Nat} (hk : k < s.nextNode.toNat) :
    (nodeEntry t k).kind = (nodeEntry s k).kind := by
  rw [h.nodeEntry_of_lt hk, apply_ite Node.kind, withChild_kind, ite_self]

variable (hx : PositionBelow s.nextNode.toNat (topSlot s))

include hx

theorem Placed.nodeEntry_newest : nodeEntry t s.nextNode.toNat = node := by
  have hne : ¬ ((topSlot s).parent ≠ Config.nil ∧
      s.nextNode.toNat = (topSlot s).parent.toNat) := by
    rintro ⟨hnil, hparent⟩
    obtain hroot | hlt := hx
    · exact hnil (congrArg Slot.parent hroot)
    · exact absurd hparent.symm (Nat.ne_of_lt hlt)
  rw [h.nodeEntry_eq, nodeEntry_attach, if_neg hne, nodeEntry_setNode, h.toNat_nextEntry,
    if_pos rfl]

/-- The new node is at the position on top of the stack, and every other position is as it was. -/
theorem Placed.childAt_eq {y : Slot} (hy : PositionBelow s.nextNode.toNat y) :
    childAt t y = if y = topSlot s then nextEntry s else childAt s y := by
  have hroot : t.root = if (topSlot s).parent = Config.nil then nextEntry s else s.root :=
    h.root.trans (attach_root ..)
  have hnode (k : Nat) (hk : k < s.nextNode.toNat) := h.nodeEntry_of_lt hk
  generalize topSlot s = x at hx hroot hnode ⊢
  obtain rfl | hlt := hy
  · obtain rfl | hx := hx
    · rw [if_pos rfl, childAt, if_pos rfl, hroot, if_pos rfl]
    · have hnil := ne_nil_of_toNat_lt (hx.trans h.room)
      rw [childAt, if_pos rfl, hroot, if_neg hnil,
        if_neg fun e => hnil (congrArg Slot.parent e).symm]
      rfl
  · have hnil := ne_nil_of_toNat_lt (hlt.trans h.room)
    rw [childAt, if_neg hnil, hnode _ hlt, childAt, if_neg hnil]
    by_cases hparent : y.parent = x.parent
    · rw [if_pos (congrArg BitVec.toNat hparent), childOn_withChild]
      refine if_congr ⟨fun hside => ?_, congrArg Slot.side⟩ rfl rfl
      cases x
      cases y
      exact Slot.mk.injEq .. ▸ ⟨hparent, hside⟩
    · rw [if_neg (toNat_ne_of_ne hparent), if_neg fun e => hparent (congrArg Slot.parent e)]

omit hx

theorem Placed.not_mem_childSlots {y : Slot} (hy : PositionBelow s.nextNode.toNat y) (k : Kind) :
    y ∉ childSlots (nextEntry s) k :=
  PositionBelow.not_mem_childSlots (h.toNat_nextEntry.symm ▸ hy) (setWidth_ne_nil h.room) k

include hx

variable {ps : List Slot} {t' : State}
  (hext : Extends t.nextNode.toNat (childSlots (nextEntry s) node.kind ++ ps) t t')

include hext

/-- What keeps the part with the new node has it in the position it was placed in. -/
theorem Placed.childAt_extends {y : Slot} (hy : PositionBelow s.nextNode.toNat y) (hyps : y ∉ ps) :
    childAt t' y = if y = topSlot s then nextEntry s else childAt s y := by
  have hkept := hext.child y (hy.mono (by rw [h.nextNode]; omega)) fun hmem =>
    (List.mem_append.1 hmem).elim (h.not_mem_childSlots hy _) hyps
  exact hkept.trans (h.childAt_eq hx hy)

/-- What keeps the part with the new node keeps the part without it. -/
theorem Placed.extends_before (hv : node.valid = true) :
    Extends s.nextNode.toNat (topSlot s :: ps) s t' := by
  have hlt (j : Nat) (hj : j < s.nextNode.toNat) : j < t.nextNode.toNat := by
    rw [h.nextNode]; omega
  refine ⟨fun y hy hyx => ?_, fun j hj => ?_, fun j hj => ?_⟩
  · obtain ⟨hne, hyps⟩ := not_or.1 (mt List.mem_cons.2 hyx)
    exact (h.childAt_extends hx hext hy hyps).trans (if_neg hne)
  · rw [hext.valid j (hlt j hj), Bool.eq_iff_iff, h.valid_iff hv]
    exact or_iff_right hj.ne
  · exact (hext.kind j (hlt j hj)).trans (h.kind_of_lt hj)

/-- Trees in the new node's positions make a tree of the new node. -/
theorem Placed.isForest_extends (hv : node.valid = true) {m : List NodeIx}
    (hm : IsForest t' ((childSlots (nextEntry s) node.kind ++ ps).map (childAt t')) m) :
    IsForest t' (nextEntry s :: ps.map (childAt t')) (nextEntry s :: m) := by
  have hlt : s.nextNode.toNat < t.nextNode.toNat := by rw [h.nextNode]; omega
  have hnode : nodeAt t' (nextEntry s) = some (nodeEntry t' s.nextNode.toNat) := by
    rw [nodeAt_of_ne _ (setWidth_ne_nil h.room), h.toNat_nextEntry]
  have hvalid := hext.valid _ hlt
  have hkind := hext.kind _ hlt
  rw [h.nodeEntry_newest hx] at hvalid hkind
  rw [List.map_append, ← hkind] at hm
  exact isForest_of_children hnode (hvalid.trans hv) hm

end

/-- A node token makes the part one node longer, and the node's own positions come first of those
then open. -/
theorem PartTree.place {node : Node} {s t : State} {ps : List Slot}
    (h : PartTree s.nextNode.toNat (topSlot s :: ps) s) (hp : Placed node s t)
    (hv : node.valid = true) :
    PartTree t.nextNode.toNat (childSlots (nextEntry s) node.kind ++ ps) t := by
  obtain ⟨-, hvalid, hpos, hnodup, htree⟩ := h
  obtain ⟨hx, hposps⟩ := List.forall_mem_cons.1 hpos
  obtain ⟨hxps, hpsnodup⟩ := List.nodup_cons.1 hnodup
  have hlt : s.nextNode.toNat < t.nextNode.toNat := by rw [hp.nextNode]; omega
  refine ⟨hp.nextNode_le, fun k => ?_, ?_, ?_, fun t' m hext hm => ?_⟩
  · rw [hp.valid_iff hv, hvalid, hp.nextNode]
    omega
  · refine List.forall_mem_append.2 ⟨fun y hy => .inr ?_, fun y hy => (hposps y hy).mono hlt.le⟩
    rwa [parent_of_mem_childSlots hy, hp.toNat_nextEntry]
  · exact List.nodup_append'.2 ⟨childSlots_nodup _ _, hpsnodup,
      fun y hy hyps => hp.not_mem_childSlots (hposps y hyps) _ hy⟩
  · have htop : childAt t' (topSlot s) = nextEntry s :=
      (hp.childAt_extends hx hext hx hxps).trans (if_pos rfl)
    have hroot := htree t' (nextEntry s :: m) (hp.extends_before hx hext hv)
      (by rw [List.map_cons, htop]; exact hp.isForest_extends hx hext hv hm)
    rwa [hp.nextNode, entriesBelow_succ, BitVec.ofNat_toNat, List.append_assoc]

/-- After a tree byte the open positions of the part are again those on the stack. -/
theorem PartTree.byte {s t : State} {b : Byte}
    (h : PartTree s.nextNode.toNat (openSlots s s.sp.toNat) s) (hc : Completes s (.deserByte b) t) :
    PartTree t.nextNode.toNat (openSlots t t.sp.toNat) t := by
  obtain rfl | ⟨v, k, hsp, hp, hsp', hstack⟩ | ⟨k, hsp, hp, hsp', hstack⟩ := hc.byte_cases
  · have hopen : openSlots { s with budget := s.budget - 1#13, escPending := true } s.sp.toNat =
        openSlots s s.sp.toNat := openSlots_congr fun m _ => slotAt_congr rfl rfl m
    rw [← hopen] at h
    exact h.congr rfl rfl rfl
  · have hopen : openSlots t t.sp.toNat = openSlots s k :=
      hsp' ▸ openSlots_congr fun m _ => slotAt_congr hstack hp.epoch m
    have htop : topSlot s = slotAt s k := by rw [topSlot, hsp, Nat.add_sub_cancel]
    rw [hsp, openSlots, ← htop] at h
    rw [hopen]
    exact h.place hp rfl
  · have hread (m : Nat) : slotAt t m = slotAt (openChildren (nextEntry s) k s) m :=
      slotAt_congr hstack hp.epoch m
    simp only [slotAt_openChildren] at hread
    have hopen : openSlots t k = openSlots s k :=
      openSlots_congr fun m hm => by rw [hread, if_neg (by omega), if_neg (by omega)]
    have htop : topSlot s = slotAt s k := by rw [topSlot, hsp, Nat.add_sub_cancel]
    rw [hsp, openSlots, ← htop] at h
    rw [hsp', openSlots, openSlots, hopen, hread, if_pos rfl, hread, if_neg (by omega), if_pos rfl]
    exact h.place hp rfl

/-! ### The session -/

/-- How a session that DESER_INIT started with HDR_TBC = `tbc` stands. -/
inductive AfterInit (tbc : BitVec 13) (t : State) : Prop
  | failed (herr : t.err ≠ 0#8)
  | empty (htbc : tbc = 0#13) (hm : t.mode = .idle) (hroot : t.root = Config.nil)
      (hnext : t.nextNode = 0#10) (hvalid : ∀ k, (nodeEntry t k).valid = false)
  | going (htbc : tbc ≠ 0#13) (hm : t.mode = .deser) (hsp : t.sp ≠ 0#10)
      (hpart : PartTree t.nextNode.toNat (openSlots t t.sp.toNat) t)
  | ended (htbc : tbc ≠ 0#13) (hm : t.mode = .idle) (hpart : PartTree t.nextNode.toNat [] t)

theorem AfterInit.congr {tbc : BitVec 13} {s t : State} (h : AfterInit tbc s) (he : t.err = s.err)
    (hm : t.mode = s.mode) (hr : t.root = s.root) (hn : t.nodes = s.nodes)
    (hnext : t.nextNode = s.nextNode) (hsp : t.sp = s.sp) (hstack : t.stack = s.stack)
    (hep : t.epoch = s.epoch) : AfterInit tbc t := by
  have hopen (k : Nat) : openSlots t k = openSlots s k :=
    openSlots_congr fun m _ => slotAt_congr hstack hep m
  cases h with
  | failed herr => exact .failed (he ▸ herr)
  | empty htbc hmode hroot hnext0 hvalid =>
    exact .empty htbc (hm.trans hmode) (hr.trans hroot) (hnext.trans hnext0)
      fun k => by rw [nodeEntry_congr hn hep, hvalid]
  | going htbc hmode hsp0 hpart =>
    exact .going htbc (hm.trans hmode) (hsp ▸ hsp0)
      (by rw [hnext, hsp, hopen]; exact hpart.congr hr hn hep)
  | ended htbc hmode hpart =>
    exact .ended htbc (hm.trans hmode) (hnext ▸ hpart.congr hr hn hep)

/-- A completed tree byte of an open session goes on with it or ends it with the tree whole. -/
theorem AfterInit.byte {tbc : BitVec 13} {s t : State} {b : Byte} (htbc : tbc ≠ 0#13)
    (hpart : PartTree s.nextNode.toNat (openSlots s s.sp.toNat) s)
    (hc : Completes s (.deserByte b) t) (hend : MeetsCompletionRule t) : AfterInit tbc t := by
  have hpart' := hpart.byte hc
  obtain ⟨hm, -, hsp⟩ | ⟨hm, -, hsp, -⟩ := hend
  · exact .going htbc hm hsp hpart'
  · rw [hsp] at hpart'
    exact .ended htbc hm hpart'

/-- A NOP or a tree byte keeps the standing: with no session open, a tree byte that is not discarded
is an error. -/
theorem AfterInit.exec {tbc : BitVec 13} {s t : State} {i : Instr}
    (hi : i = .nop ∨ ∃ b, i = .deserByte b) (h : AfterInit tbc s) (hx : exec i s = .next t) :
    AfterInit tbc t := by
  by_cases ht : t.err = 0#8
  swap
  · exact .failed ht
  obtain ⟨-, rfl⟩ | ⟨e, rfl⟩ | ⟨hd, ha, hc⟩ := exec_cases hx
  · exact h
  · exact absurd ht (errCode_ne_zero e)
  obtain rfl | ⟨b, rfl⟩ := hi
  · cases hc
    exact h
  have he : s.err = 0#8 := by simpa using hd
  have hm : s.mode = .deser := eq_of_beq ha
  cases h with
  | failed herr => exact absurd he herr
  | empty _ hidle => cases hm.symm.trans hidle
  | ended _ hidle => cases hm.symm.trans hidle
  | going htbc _ hsp hpart => exact .byte htbc hpart hc (meetsCompletionRule_of_exec hm hsp he hx ht)

/-- What the host does while a session is open: reads, NOPs and tree bytes. -/
def SessionInput (a : HostInput) : Prop :=
  (∃ addr, a = .read addr) ∨ a = issue .nop ∨ ∃ b, a = issue (.deserByte b)

/-- A command word among them is NOP's or a tree byte's. -/
theorem decode_sessionInput {cw : Word} (h : SessionInput (.command cw)) :
    ∃ i, decode cw = .ok i ∧ (i = .nop ∨ ∃ b, i = .deserByte b) := by
  obtain ⟨addr, ha⟩ | ha | ⟨b, ha⟩ := h
  · cases ha
  · cases ha
    exact ⟨_, decode_encode _, .inl rfl⟩
  · cases ha
    exact ⟨_, decode_encode _, .inr ⟨b, rfl⟩⟩

/-- No command touches the host's list. -/
theorem inputs_of_exec {i : Instr} {s t : State} (hx : exec i s = .next t) :
    t.inputs = s.inputs := by
  obtain ⟨-, rfl⟩ | ⟨e, rfl⟩ | ⟨-, -, hc⟩ := exec_cases hx
  · rfl
  · rw [raiseIn, errorEntry_eq]
  · cases hc <;> rfl

/-- The session's standing, with nothing but reads, NOPs and tree bytes to come. -/
def InSession (tbc : BitVec 13) (t : State) : Prop :=
  AfterInit tbc t ∧ ∀ a ∈ t.inputs, SessionInput a

theorem InSession.step {tbc : BitVec 13} {s t : State} (h : InSession tbc s)
    (hstep : step s = .next t) : InSession tbc t := by
  obtain ⟨hs, hin⟩ := h
  have htake (rest : List HostInput) : AfterInit tbc (takeInput s rest) :=
    hs.congr rfl rfl rfl rfl rfl rfl rfl rfl
  obtain ⟨-, rfl⟩ | ⟨cw, rest, i, hcons, hdec, hx⟩ | ⟨cw, rest, e, hcons, hdec, hx⟩ |
    ⟨a, rest, hcons, rfl⟩ | ⟨ab, rest, hcons, rfl⟩ := step_cases hstep
  · exact ⟨hs, hin⟩
  all_goals
    rw [hcons] at hin
    obtain ⟨hfirst, hrest⟩ := List.forall_mem_cons.1 hin
  · obtain ⟨j, hj, hkind⟩ := decode_sessionInput hfirst
    obtain rfl : j = i := Except.ok.inj (hj.symm.trans hdec)
    exact ⟨(htake rest).exec hkind hx, by rw [inputs_of_exec hx]; exact hrest⟩
  · obtain ⟨j, hj, -⟩ := decode_sessionInput hfirst
    cases hj.symm.trans hdec
  · exact ⟨(htake rest).congr rfl rfl rfl rfl rfl rfl rfl rfl, hrest⟩
  · obtain ⟨_, ha⟩ | ha | ⟨_, ha⟩ := hfirst <;> cases ha

theorem Leads.succ_cases {k : Nat} {s t : State} (h : Leads (k + 1) s t) :
    ∃ u, step s = .next u ∧ Leads k u t := by
  simp only [Leads, Host.Core.run] at h
  split at h
  · next u hu => exact ⟨u, hu, h⟩
  · cases h
  · cases h

/-- What every step keeps, a run keeps. -/
theorem Leads.keeps {P : State → Prop} (hP : ∀ {s t}, P s → step s = .next t → P t) {k : Nat}
    {s t : State} (h : Leads k s t) (hs : P s) : P t := by
  induction k generalizing s with
  | zero => cases h; exact hs
  | succ k ih =>
    obtain ⟨u, hu, hrest⟩ := h.succ_cases
    exact ih hrest (hP hs hu)

/-! ### The result -/

theorem entriesBelow_nodup {n : Nat} (h : n ≤ Config.treeCap) : (entriesBelow n).Nodup := by
  refine List.Nodup.map_on (fun i hi j hj hij => ?_) List.nodup_range
  have hn : n ≤ 511 := h
  rw [List.mem_range] at hi hj
  rw [← toNat_entry (n := i) (by omega), hij, toNat_entry (by omega)]

/-- The pre-order of a tree starts with its root. -/
theorem IsTree.eq_cons {s : State} {i : NodeIx} {l : List NodeIx} (h : IsTree s i l) :
    ∃ m, l = i :: m := by
  cases h with
  | leaf => exact ⟨_, rfl⟩
  | internal => exact ⟨_, rfl⟩

/-- A tree of the entries below `n` has entry 0 at its root. -/
theorem root_of_isTree_entriesBelow {t : State} {i : NodeIx} {n : Nat}
    (h : IsTree t i (entriesBelow n)) : i = 0#9 := by
  obtain ⟨m, hm⟩ := h.eq_cons
  cases n with
  | zero => cases hm
  | succ n =>
    rw [entriesBelow, List.range_succ_eq_map, List.map_cons] at hm
    exact (List.cons.inj hm).1.symm

theorem inSession_of_deserInit {s u : State} (he : s.err = 0#8) (hm : s.mode = .idle)
    (hin : ∀ a ∈ s.inputs, SessionInput a) (hx : exec .deserInit s = .next u) :
    InSession s.hdrTbc u := by
  refine ⟨?_, by rwa [inputs_of_exec hx]⟩
  by_cases htbc : s.hdrTbc = 0#13
  · cases (exec_deserInit_empty he hm htbc).symm.trans hx
    exact .empty htbc hm rfl rfl fun k => congrArg Node.valid (nodeEntry_clearTree s k)
  · cases (exec_deserInit he hm htbc).symm.trans hx
    exact .going htbc rfl nofun (partTree_sessionOpened s)

/-- Settles O35: DESER_INIT begins `InSession`, every step keeps it, and a session that has ended has
no position open. -/
theorem deserializedTreeWellFormed : Obligations.DeserializedTreeWellFormed := by
  intro s t ins he hm hins hrun hte htm
  obtain ⟨u, hu, hrest⟩ := Leads.succ_cases hrun
  rw [step_of_issue rfl] at hu
  obtain ⟨hend, -⟩ := hrest.keeps InSession.step
    (inSession_of_deserInit (s := takeInput { s with inputs := _ } ins) he hm hins hu)
  cases hend with
  | failed herr => exact absurd hte herr
  | going _ hopen => cases htm.symm.trans hopen
  | empty htbc _ hroot hnext hvalid =>
    refine ⟨by simp [wfTree, hroot], fun _ => ⟨hroot, hnext⟩, fun h => absurd htbc h, fun k => ?_⟩
    simp [hvalid, hnext]
  | ended htbc _ hpart =>
    have htree := hpart.isTree
    exact ⟨(wfTreeExactly t).2 (.inr ⟨_, htree, entriesBelow_nodup hpart.bound⟩),
      fun h => absurd h htbc, fun _ => ⟨root_of_isTree_entriesBelow htree, htree⟩, hpart.valid⟩

end Sys2Proof.Machine
end

section
/-! PROOFS. 43_bit_packer.md R201 to R208, 60_exceptions.md R325: the bit packer. A string of bits
entering ACC one by one is followed from the bits pending before it to the bytes that leave and the bits
pending after it; PACK_FLUSH's padding is the same with zero bits. -/

namespace Sys2Proof.Machine

/-! ### The bits of the accumulator -/

/-- The low `n` bits of a byte, the most significant first (10_state.md R36). -/
def lowBits (acc : Byte) (n : Nat) : List Bool :=
  (List.range n).map fun j => acc.getLsbD (n - 1 - j)

theorem pending_eq_lowBits (s : State) : pending s = lowBits s.acc s.accCnt.toNat := rfl

theorem bitsMsb_cons (b : Byte) (bs : List Byte) : bitsMsb (b :: bs) = lowBits b 8 ++ bitsMsb bs := rfl

theorem bitsMsb_singleton (b : Byte) : bitsMsb [b] = lowBits b 8 := rfl

theorem getLsbD_pushBit_zero (acc : Byte) (b : Bool) : (pushBit acc b).getLsbD 0 = b := by
  cases b <;> simp [pushBit]

theorem getLsbD_pushBit_succ (acc : Byte) (b : Bool) {k : Nat} (h : k + 1 < 8) :
    (pushBit acc b).getLsbD (k + 1) = acc.getLsbD k := by
  rw [pushBit, BitVec.getLsbD_or, BitVec.getLsbD_shiftLeft]
  cases b <;> simp [h]

/-- A bit that enters joins the pending ones as their last (R203). -/
theorem lowBits_pushBit (acc : Byte) (b : Bool) {n : Nat} (h : n < 8) :
    lowBits (pushBit acc b) (n + 1) = lowBits acc n ++ [b] := by
  rw [lowBits, List.range_succ, List.map_append, List.map_singleton, Nat.add_sub_cancel, Nat.sub_self,
    getLsbD_pushBit_zero]
  congr 1
  refine List.map_congr_left fun j hj => ?_
  have hjn : j < n := List.mem_range.1 hj
  rw [show n - j = n - 1 - j + 1 by omega, getLsbD_pushBit_succ acc b (by omega)]

/-- PACK_BYTE's loop loses no bit and keeps their order, and fewer than 8 stay pending (R203, R205). -/
theorem packBits_bits (bs : List Bool) : ∀ (acc : Byte) {n : Nat}, n < 8 →
    (packBits bs acc n).cnt < 8 ∧
      bitsMsb (packBits bs acc n).emitted ++
        lowBits (packBits bs acc n).acc (packBits bs acc n).cnt = lowBits acc n ++ bs := by
  induction bs with
  | nil => exact fun acc n hn => ⟨hn, (List.append_nil (lowBits acc n)).symm⟩
  | cons b bs ih =>
    intro acc n hn
    have hpush : lowBits acc n ++ b :: bs = lowBits (pushBit acc b) (n + 1) ++ bs := by
      rw [lowBits_pushBit acc b hn, List.append_assoc, List.singleton_append]
    rw [packBits, hpush]
    split
    · next hfull =>
      obtain ⟨hcnt, hbits⟩ := ih 0#8 (n := 0) (by decide)
      refine ⟨hcnt, ?_⟩
      rw [hfull, bitsMsb_cons, List.append_assoc]
      exact congrArg _ hbits
    · exact ih _ (by omega)

theorem shiftLeft_succ_eq_pushBit (acc : Byte) (k : Nat) :
    acc <<< (k + 1) = pushBit (acc <<< k) false := by
  rw [BitVec.shiftLeft_add]
  exact (BitVec.or_zero ..).symm

/-- A shift to the left is zero bits entering. -/
theorem lowBits_shiftLeft (acc : Byte) {n k : Nat} (h : n + k ≤ 8) :
    lowBits (acc <<< k) (n + k) = lowBits acc n ++ List.replicate k false := by
  induction k with
  | zero => rw [BitVec.shiftLeft_zero, List.replicate_zero, List.append_nil, Nat.add_zero]
  | succ k ih =>
    rw [shiftLeft_succ_eq_pushBit, ← Nat.add_assoc, lowBits_pushBit _ _ (by omega), ih (by omega),
      List.append_assoc, List.replicate_succ']

theorem lowBits_flushByte (acc : Byte) {n : Nat} (h : n ≤ 8) :
    lowBits (flushByte acc n) 8 = lowBits acc n ++ List.replicate (8 - n) false := by
  have hshift := lowBits_shiftLeft acc (n := n) (k := 8 - n) (by omega)
  rwa [Nat.add_sub_cancel' h] at hshift

/-! ### The three commands -/

/-- Settles O37: PACK_INIT has no check of its own. -/
theorem packInitCompletes : Obligations.PackInitCompletes :=
  fun _ he hm => exec_done_of_idle .packInit he hm nofun nofun rfl rfl

/-- Settles O38: the loop keeps the bits and leaves fewer than 8 pending, so ACC_CNT holds their
number. -/
theorem packByteAppendsCode : Obligations.PackByteAppendsCode := by
  intro s b he hm
  have ha : accepts (.packByte b) s.mode = true := congrArg (accepts (.packByte b)) hm
  constructor
  · intro hlen
    refine ⟨_, _, perform_done he ha (if_neg hlen), ?_, rfl⟩
    obtain ⟨hcnt, hbits⟩ := packBits_bits (codeOf s b) s.acc s.accCnt.isLt
    rw [pending_eq_lowBits, BitVec.toNat_ofNat, Nat.mod_eq_of_lt hcnt]
    exact hbits
  · intro hlen
    have hraise : packByteBody b s = .raise .noCode := if_pos hlen
    exact (perform_raise he ha hraise).trans
      (congrArg _ (errorEntry_of_not_deser (hm ▸ nofun) rfl))

theorem packFlushBody_of_none_pending {s : State} (h : s.accCnt = 0#3) : packFlushBody s =
    .done { s with hdrPad := 0#3, acc := 0#8, accCnt := 0#3, mode := .idle } := by
  simp only [packFlushBody, if_pos h]

theorem packFlushBody_of_pending {s : State} (h : s.accCnt ≠ 0#3) : packFlushBody s =
    .done { emit s [flushByte s.acc s.accCnt.toNat] with
      hdrPad := BitVec.ofNat 3 (8 - s.accCnt.toNat), acc := 0#8, accCnt := 0#3, mode := .idle } := by
  simp only [packFlushBody, if_neg h]

/-- Settles O39: with no bit pending no byte leaves; else one does, and the bits the shift fills it up
with are as many as HDR_PAD says. -/
theorem packFlushResult : Obligations.PackFlushResult := by
  intro s he hm
  have ha : accepts .packFlush s.mode = true := congrArg (accepts .packFlush) hm
  by_cases hcnt : s.accCnt = 0#3
  · refine ⟨_, [], perform_done he ha (packFlushBody_of_none_pending hcnt), ?_, ?_, ?_⟩
    · rw [pending_eq_lowBits, hcnt]
      rfl
    · rw [hcnt]
      rfl
    · rw [List.append_nil]
  · have hpos : s.accCnt.toNat ≠ 0 := fun h => hcnt (BitVec.eq_of_toNat_eq h)
    have hlt : s.accCnt.toNat < 8 := s.accCnt.isLt
    have hpad : (BitVec.ofNat 3 (8 - s.accCnt.toNat)).toNat = 8 - s.accCnt.toNat :=
      (BitVec.toNat_ofNat ..).trans (Nat.mod_eq_of_lt (by omega))
    refine ⟨_, [flushByte s.acc s.accCnt.toNat],
      perform_done he ha (packFlushBody_of_pending hcnt), ?_, ?_, rfl⟩
    · rw [hpad, bitsMsb_singleton, lowBits_flushByte s.acc hlt.le, pending_eq_lowBits]
    · rw [hpad, Nat.mod_eq_of_lt (by omega)]

end Sys2Proof.Machine
end

section
/-! PROOFS. 44_bit_unpacker.md R230 to R239, 60_exceptions.md R333, R336: the bit unpacker. The loop of
UNPACK_BYTE in a tree with an Internal root is the reading relation, with a leaf at ROOT it counts 0
bits, and over one string of bits after another it goes on where it stood. -/

namespace Sys2Proof.Machine

/-! ### The loop -/

/-- With a leaf at ROOT each 0 bit emits its value and the cursor stays (R235). -/
theorem unpackBits_of_leaf_root {s : State} {r : Node} (hr : nodeAt s s.root = some r)
    (hk : r.kind = .leaf) (cur : NodeIx) {bits : List Bool} (h : ∀ b ∈ bits, b = false) :
    unpackBits s bits cur = .ok cur (List.replicate bits.length r.value) := by
  induction bits with
  | nil => rfl
  | cons b bits ih =>
    obtain ⟨rfl, hrest⟩ := List.forall_mem_cons.1 h
    simp [unpackBits, hr, hk, ih hrest, emitFirst, List.replicate_succ]

/-- With a leaf at ROOT a 1 bit is BAD_PATH, whatever the bits before it emitted (R235). -/
theorem unpackBits_badPath_of_leaf_root {s : State} {r : Node} (hr : nodeAt s s.root = some r)
    (hk : r.kind = .leaf) (cur : NodeIx) {bits : List Bool} (h : true ∈ bits) :
    unpackBits s bits cur = .badPath := by
  induction bits with
  | nil => cases h
  | cons b bits ih =>
    cases b with
    | true => simp [unpackBits, hr, hk]
    | false =>
      have hrest : true ∈ bits := by simpa using h
      simp [unpackBits, hr, hk, ih hrest, emitFirst]

/-- With an Internal root the loop reads as R230 says, unless it meets an entry that does not exist. -/
theorem reads_of_unpackBits {s : State} {r : Node} (hr : nodeAt s s.root = some r)
    (hk : r.kind = .internal) (bits : List Bool) : ∀ {cur : NodeIx},
    (∀ c, nodeAt s cur = some c → c.kind = .internal) → unpackBits s bits cur ≠ .noEntry →
      ∃ last out, unpackBits s bits cur = .ok last out ∧ Reads s cur bits last out := by
  have internal {i : NodeIx} {n m : Node} (hn : nodeAt s i = some n) (hnk : n.kind = .internal)
      (hm : nodeAt s i = some m) : m.kind = .internal := Option.some.inj (hn.symm.trans hm) ▸ hnk
  induction bits with
  | nil => exact fun _ _ => ⟨_, [], rfl, .done _⟩
  | cons b bits ih =>
    intro cur hcur hne
    rw [unpackBits] at hne ⊢
    simp only [hr, hk] at hne ⊢
    split at hne
    · exact absurd rfl hne
    next c hc =>
    split at hne
    · exact absurd rfl hne
    next n hn =>
    cases hnk : n.kind with
    | leaf =>
      obtain ⟨last, out, hu, hreads⟩ := ih (fun _ => internal hr hk)
        fun h => hne (by simp only [hnk, h]; rfl)
      exact ⟨last, n.value :: out, congrArg (emitFirst n.value) hu,
        .leaf hc (hcur c hc) rfl hn hnk hreads⟩
    | internal =>
      obtain ⟨last, out, hu, hreads⟩ := ih (fun _ => internal hn hnk)
        fun h => hne (by simp only [hnk, h])
      exact ⟨last, out, hu, .inner hc (hcur c hc) rfl hn hnk hreads⟩

/-- The loop goes on with later bits from the cursor at which earlier ones left it (R236). -/
theorem unpackBits_append {s : State} {p q : List Bool} {mid last : NodeIx} {out₂ : List Byte}
    (hq : unpackBits s q mid = .ok last out₂) : ∀ {cur : NodeIx} {out₁ : List Byte},
    unpackBits s p cur = .ok mid out₁ → unpackBits s (p ++ q) cur = .ok last (out₁ ++ out₂) := by
  induction p with
  | nil => intro cur out₁ hp; cases hp; exact hq
  | cons b p ih =>
    have emits {v : Byte} {cur : NodeIx} {out₁ : List Byte}
        (h : emitFirst v (unpackBits s p cur) = .ok mid out₁) :
        emitFirst v (unpackBits s (p ++ q) cur) = .ok last (out₁ ++ out₂) := by
      obtain ⟨rest, hrest, rfl⟩ := emitFirst_ok h
      exact congrArg (emitFirst v) (ih hrest)
    intro cur out₁ hp
    rw [List.cons_append, unpackBits]
    rw [unpackBits] at hp
    split at hp
    · cases hp
    split at hp
    · cases b with
      | true => cases hp
      | false => exact emits hp
    split at hp
    · cases hp
    dsimp only at hp ⊢
    split at hp
    · cases hp
    split at hp
    · exact emits hp
    · exact ih hp

/-! ### UNPACK_BYTE -/

theorem payloadBits_length (b : Byte) (n : Nat) : (payloadBits b n).length = n := by
  rw [payloadBits, List.length_map, List.length_range]

/-- A payload byte's first `n` bits are all that the loop sees of it (R238). -/
theorem payloadBits_congr {b c : Byte} {n : Nat}
    (h : ∀ j < n, b.getLsbD (7 - j) = c.getLsbD (7 - j)) : payloadBits b n = payloadBits c n :=
  List.map_congr_left fun j hj => h j (List.mem_range.1 hj)

theorem mem_payloadBits {b : Byte} {n : Nat} {x : Bool} :
    x ∈ payloadBits b n ↔ ∃ j < n, b.getLsbD (7 - j) = x := by
  simp only [payloadBits, List.mem_map, List.mem_range]

/-- BITS_LEFT falls by the number of bits taken (R237). -/
theorem bitsLeft_sub_bitsTaken (s : State) :
    (BitVec.ofNat 51 (s.bitsLeft.toNat - bitsTaken s)).toNat + bitsTaken s = s.bitsLeft.toNat := by
  have hle : bitsTaken s ≤ s.bitsLeft.toNat := Nat.min_le_right _ _
  rw [BitVec.toNat_ofNat, Nat.mod_eq_of_lt ((Nat.sub_le _ _).trans_lt s.bitsLeft.isLt),
    Nat.sub_add_cancel hle]

section
variable {s : State} {b : Byte} (he : s.err = 0#8) (hm : s.mode = .unpack)
include he hm

/-- In an open session UNPACK_BYTE does what its own rule says (R310). -/
theorem exec_unpackByte_done {t : State} (h : unpackByteBody b s = .done t) :
    exec (.unpackByte b) s = .next t :=
  perform_done he (congrArg (accepts (.unpackByte b)) hm) h

/-- An error of UNPACK_BYTE in an open session closes it and changes nothing else (R312, R314). -/
theorem exec_unpackByte_raise {e : Err} (h : unpackByteBody b s = .raise e) :
    exec (.unpackByte b) s =
      .next { s with err := errCode e, errCmd := encode (.unpackByte b), mode := .idle } :=
  (perform_raise he (congrArg (accepts (.unpackByte b)) hm) h).trans
    (congrArg _ (errorEntry_of_not_deser (hm ▸ nofun) rfl))

/-- With bits left, a walk that ends at `cur` having emitted `bs` is what the command does. -/
theorem exec_unpackByte_of_walk {cur : NodeIx} {bs : List Byte} (hbits : s.bitsLeft ≠ 0#51)
    (h : unpackBits s (payloadBits b (bitsTaken s)) s.cursor = .ok cur bs) :
    exec (.unpackByte b) s = .next { s with
      out := s.out ++ bs
      cursor := cur
      bitsLeft := BitVec.ofNat 51 (s.bitsLeft.toNat - bitsTaken s) } :=
  exec_unpackByte_done he hm (by simp only [unpackByteBody, if_neg hbits, h]; rfl)

/-- An UNPACK_BYTE that leaves no error has ended its own rule without one. -/
theorem unpackByteBody_of_no_error {t : State} (h : exec (.unpackByte b) s = .next t)
    (ht : t.err = 0#8) : unpackByteBody b s = .done t := by
  obtain ⟨hs, -⟩ | ⟨-, -, hdone⟩ | ⟨-, -, e, -, rfl⟩ | ⟨-, ha, -⟩ := perform_cases h
  · exact absurd he hs
  · exact hdone
  · exact absurd ht (errCode_ne_zero e)
  · rw [hm] at ha
    cases ha

end

/-- Settles O42: on a checked tree the loop finds every entry, and then it reads as R230 says. -/
theorem unpackByteDecodes : Obligations.UnpackByteDecodes := by
  intro s b r he hm hbits hwf hr hk hcur
  have hne : unpackBits s (payloadBits b (bitsTaken s)) s.cursor ≠ .noEntry :=
    unpackBits_ne_noEntry hwf (ne_nil_of_nodeAt hr) _ hcur
  obtain ⟨cur, bs, hwalk, hreads⟩ := reads_of_unpackBits hr hk _
    (fun c hc => (CursorAt.path hcur hr hk hc).1) hne
  exact ⟨_, cur, bs, hreads, exec_unpackByte_of_walk he hm hbits hwalk, bitsLeft_sub_bitsTaken s, rfl⟩

/-- Settles O43: the loop counts the 0 bits, or meets a 1 bit. -/
theorem unpackByteSingleLeaf : Obligations.UnpackByteSingleLeaf := by
  intro s b r he hm hbits hr hk
  constructor
  · intro hzero
    have hfalse : ∀ x ∈ payloadBits b (bitsTaken s), x = false := by
      intro x hx
      obtain ⟨j, hj, rfl⟩ := mem_payloadBits.1 hx
      exact hzero j hj
    have hwalk := unpackBits_of_leaf_root hr hk s.cursor hfalse
    rw [payloadBits_length] at hwalk
    exact ⟨_, exec_unpackByte_of_walk he hm hbits hwalk, bitsLeft_sub_bitsTaken s, rfl⟩
  · intro hone
    have hwalk : unpackBits s (payloadBits b (bitsTaken s)) s.cursor = .badPath :=
      unpackBits_badPath_of_leaf_root hr hk s.cursor (mem_payloadBits.2 hone)
    exact exec_unpackByte_raise he hm (e := .badPath)
      (by simp only [unpackByteBody, if_neg hbits, hwalk])

/-- Settles O44: the rule depends on the byte by its meaningful bits only. -/
theorem paddingIgnored : Obligations.PaddingIgnored := by
  intro s b he hm
  constructor
  · exact fun hbits => exec_unpackByte_raise he hm (e := .payloadOverrun) (if_pos hbits)
  · intro c t _ hagree h ht
    have hbody : unpackByteBody b s = unpackByteBody c s := by
      rw [unpackByteBody, unpackByteBody, payloadBits_congr (n := bitsTaken s) hagree]
    exact exec_unpackByte_done he hm (hbody ▸ unpackByteBody_of_no_error he hm h ht)

/-! ### A coded source -/

/-- Settles O46: each value's code leads from ROOT back to ROOT and emits the value. -/
theorem codesUnpackToSource : Obligations.CodesUnpackToSource := by
  intro s t source h he hcodes
  induction source with
  | nil => rfl
  | cons v source ih =>
    obtain ⟨hv, hrest⟩ := List.forall_mem_cons.1 hcodes
    obtain ⟨-, hread⟩ := codesPrefixFree s t h he v hv
    exact unpackBits_append (ih hrest) hread

end Sys2Proof.Machine
end

section
/-! PROOFS. 45_header_and_framing.md R260 to R262: packing the header and HDR_LOAD's unpacking are inverse
to each other. -/

namespace Sys2Proof.Machine

/-! ### The fields of the header as numbers -/

theorem padOfHeader_toNat (hb0 : Byte) : (padOfHeader hb0).toNat = hb0.toNat / 32 := by
  have := hb0.isLt
  rw [padOfHeader, BitVec.extractLsb_toNat, Nat.shiftRight_eq_div_pow]
  omega

theorem tbcOfHeader_toNat (hb0 hb1 : Byte) :
    (tbcOfHeader hb0 hb1).toNat = hb0.toNat % 32 * 256 + hb1.toNat := by
  rw [tbcOfHeader, toNat_append_eq_add, BitVec.extractLsb_toNat, Nat.shiftRight_zero]
  omega

/-! ### Packing and unpacking are inverse (R261) -/

theorem packHeader_unpacked_toNat (hb0 hb1 : Byte) :
    (packHeader (padOfHeader hb0) (tbcOfHeader hb0 hb1)).toNat = hb0.toNat * 256 + hb1.toNat := by
  rw [packHeader_toNat, padOfHeader_toNat, tbcOfHeader_toNat]
  omega

theorem padOfHeader_packHeader (pad : BitVec 3) (tbc : BitVec 13) :
    padOfHeader ((packHeader pad tbc).extractLsb 15 8) = pad := by
  have hpad := pad.isLt
  have htbc := tbc.isLt
  apply BitVec.eq_of_toNat_eq
  rw [padOfHeader_toNat, BitVec.extractLsb_toNat, packHeader_toNat, Nat.shiftRight_eq_div_pow]
  omega

theorem tbcOfHeader_packHeader (pad : BitVec 3) (tbc : BitVec 13) :
    tbcOfHeader ((packHeader pad tbc).extractLsb 15 8) ((packHeader pad tbc).extractLsb 7 0) =
      tbc := by
  have htbc := tbc.isLt
  apply BitVec.eq_of_toNat_eq
  rw [tbcOfHeader_toNat, BitVec.extractLsb_toNat, BitVec.extractLsb_toNat, packHeader_toNat,
    Nat.shiftRight_eq_div_pow, Nat.shiftRight_zero]
  omega

/-! ### HDR_LOAD -/

/-- HDR_LOAD has no check of its own (R262). -/
theorem exec_hdrLoad {s : State} (he : s.err = 0#8) (hm : s.mode = .idle) (hb0 hb1 : Byte) :
    exec (.hdrLoad hb0 hb1) s =
      .next { s with hdrPad := padOfHeader hb0, hdrTbc := tbcOfHeader hb0 hb1 } :=
  exec_done_of_idle (.hdrLoad hb0 hb1) he hm nofun nofun rfl rfl

/-- Settles O40: the fields loaded pack to the two bytes, and HDR's own bytes unpack to the fields that
stand there. -/
theorem hdrLoadResult : Obligations.HdrLoadResult := by
  intro s hb0 hb1 he hm
  constructor
  · exact ⟨_, exec_hdrLoad he hm hb0 hb1, padOfHeader_toNat hb0, tbcOfHeader_toNat hb0 hb1,
      packHeader_unpacked_toNat hb0 hb1, rfl⟩
  · rw [exec_hdrLoad he hm, hdrWord, padOfHeader_packHeader, tbcOfHeader_packHeader]

end Sys2Proof.Machine
end

section
/-! PROOFS. 46_system.md R290 to R292: the control commands in every state, an error pending or not. -/

namespace Sys2Proof.Machine

/-! ### What dispatch makes of the two commands an error does not discard (60_exceptions.md R310) -/

theorem exec_reset (s : State) : exec .reset s = .next (commandReset s) := rfl

theorem exec_errClr (s : State) : exec .errClr s = .next (errorReturn s) := rfl

/-! ### What RESET leaves in the memories -/

/-- A code table that lists no entry gives every value length 0 (10_state.md R35). -/
theorem codeLenAt_of_codeLen_nil {s : State} (h : s.codeLen = []) (v : Byte) :
    codeLenAt s v = 0#8 := by rw [codeLenAt, h, tblGet_nil]

/-- RESET ends a deserialize session and drops the tree, each node's payload kept. -/
theorem sessionCleared_commandReset (s : State) : SessionCleared s (commandReset s) :=
  ⟨nodeEntry_of_nodes_cleared (commandReset_nodes s) (commandReset_epoch s), commandReset_root s,
    commandReset_nextNode s, commandReset_sp s, commandReset_budget s, commandReset_escPending s⟩

/-! ### The three commands -/

/-- Settles O17: RESET completes with `commandReset`, in every mode and with an error pending. -/
theorem resetCommandResult : Obligations.ResetCommandResult := by
  intro s
  have hlen : ∀ v, codeLenAt (commandReset s) v = 0#8 :=
    codeLenAt_of_codeLen_nil (commandReset_codeLen s)
  exact ⟨commandReset s, exec_reset s, rfl, rfl, rfl, rfl, rfl, sessionCleared_commandReset s, hlen,
    rfl, rfl, rfl, rfl, rfl, rfl, rfl, rfl, rfl, rfl, rfl⟩

/-- Settles O16: an error pending discards the NOP; with none, every mode accepts it and its own rule
changes nothing. -/
theorem nopCompletes : Obligations.NopCompletes := by
  intro s
  rw [exec_eq_perform (i := .nop) nofun nofun]
  by_cases he : s.err = 0#8
  · exact perform_done he rfl rfl
  · exact perform_discard he

/-- Settles O18: ERR_CLR is the return from an error, in every state. -/
theorem errClrCompletes : Obligations.ErrClrCompletes := exec_errClr

end Sys2Proof.Machine
end

section
/-! PROOFS. 60_exceptions.md R310 to R322: what one step makes of a command word, what error entry writes
and leaves, the modes each command is accepted in, and the errors its own rule can raise. -/

namespace Sys2Proof.Machine

/-! ### A command word as a step -/

section

variable {s : State} {cw : Word} {rest : List HostInput} (h : s.inputs = .command cw :: rest)

include h

theorem step_command : step s = performWord cw (takeInput s rest) := by
  unfold step serve
  rw [h]
  rfl

/-- A word that decodes is performed as its command (R310). -/
theorem step_of_decode {i : Instr} (hd : decode cw = .ok i) :
    step s = exec i (takeInput s rest) := by
  rw [step_command h, performWord, hd]

/-- A word that does not decode goes to the dispatch of illegal words (R310). -/
theorem step_of_illegal {e : Illegal} (hd : decode cw = .error e) :
    step s = performIllegal cw (takeInput s rest) := by
  rw [step_command h, performWord, hd]

end

/-- Settles O8: the step takes the interaction, decodes the word and dispatches the command. -/
theorem stepPerformsDecodedCommand : Obligations.StepPerformsDecodedCommand :=
  fun _ _ _ _ h hd _ => step_of_decode h hd

theorem exec_discard {i : Instr} {s : State} (hr : i ≠ .reset) (hc : i ≠ .errClr)
    (he : s.err ≠ 0#8) : exec i s = .next s := by
  rw [exec_eq_perform hr hc, perform_discard he]

/-- Settles O11: dispatch discards both kinds of word, an illegal one and a command other than the
two. -/
theorem pendingErrorDiscards : Obligations.PendingErrorDiscards := by
  intro s cw rest he h hclr hreset
  cases hd : decode cw with
  | error x => exact (step_of_illegal h hd).trans (if_pos he)
  | ok i =>
    have hr : i ≠ .reset := by rintro rfl; exact hreset hd
    have hc : i ≠ .errClr := by rintro rfl; exact hclr hd
    exact (step_of_decode h hd).trans (exec_discard hr hc he)

/-! ### Error entry (R312 to R314) -/

theorem errorEntry_inputs (e : Err) (cw : Word) (d : Bool) (s : State) :
    (errorEntry e cw d s).inputs = s.inputs := by rw [errorEntry_eq]

theorem restKept_errorEntry (e : Err) (cw : Word) (d : Bool) (s : State) :
    RestKept s (errorEntry e cw d s) := by
  rw [errorEntry_eq]
  exact ⟨rfl, rfl, rfl, rfl, rfl, rfl, rfl, rfl, rfl, rfl, rfl, rfl, rfl⟩

/-- Error entry is what the claims call it, for any reading `ends` of when the error ends a deserialize
session that agrees with the model's. -/
theorem errorEntered_errorEntry {d : Bool} {s : State} {ends : Prop}
    (hends : ends ↔ s.mode = .deser ∨ d = true) (e : Err) (cw : Word) :
    ErrorEntered (errCode e) cw ends s (errorEntry e cw d s) := by
  refine ⟨rfl, rfl, rfl, restKept_errorEntry e cw d s, fun h => ?_, fun h => ?_⟩
  · rw [errorEntry_of_deser (hends.1 h)]
    exact ⟨nodeEntry_of_nodes_cleared rfl rfl, rfl, rfl, rfl, rfl, rfl⟩
  · obtain ⟨hm, hd⟩ := not_or.1 (mt hends.2 h)
    rw [errorEntry_of_not_deser hm (by simpa using hd)]
    exact ⟨rfl, rfl, rfl, rfl, rfl, rfl⟩

/-- Settles O12: the dispatch of an illegal word is error entry, in every mode. -/
theorem illegalWordRaises : Obligations.IllegalWordRaises := by
  intro s cw rest e he h hd
  have hends : s.mode = .deser ↔ (takeInput s rest).mode = .deser ∨ false = true := by simp
  exact ⟨_, (step_of_illegal h hd).trans (if_neg (not_not.2 he)), errorEntry_inputs ..,
    errorEntered_errorEntry hends .illegalCmd cw⟩

theorem isDeserByte_iff_opcode (i : Instr) : isDeserByte i = true ↔ opcode i = 0x29#8 := by
  refine ⟨opcode_of_isDeserByte, fun h => ?_⟩
  cases i with
  | deserByte b => rfl
  | _ => exact absurd h (by simp [opcode])

theorem isDeserByte_iff_exists (i : Instr) : isDeserByte i = true ↔ ∃ b, i = .deserByte b := by
  cases i <;> simp [isDeserByte]

/-! ### The modes of a command (R311, R322) -/

/-- The modes R311 gives each command, by its opcode. -/
theorem accepts_iff_opcode (i : Instr) (m : Mode) : accepts i m = true ↔
    opcode i ∈ [0x00#8, 0x01#8, 0x02#8] ∨ (m = .deser ∧ opcode i = 0x29#8) ∨
      (m = .pack ∧ opcode i ∈ [0x31#8, 0x32#8]) ∨ (m = .unpack ∧ opcode i ∈ [0x41#8, 0x42#8]) ∨
      (m = .idle ∧ opcode i ∈
        [0x10#8, 0x11#8, 0x12#8, 0x13#8, 0x20#8, 0x28#8, 0x30#8, 0x38#8, 0x40#8]) := by
  cases i <;> simp [accepts, opcode]

theorem exec_sequence {i : Instr} {s : State} (he : s.err = 0#8) (ha : accepts i s.mode = false) :
    exec i s = .next (raiseIn i .sequence s) := by
  have hr : i ≠ .reset := by rintro rfl; cases ha
  have hc : i ≠ .errClr := by rintro rfl; cases ha
  rw [exec_eq_perform hr hc, perform_sequence he ha]

/-- Settles O13: dispatch enters SEQUENCE before the command's own rule. -/
theorem wrongModeRaisesSequence : Obligations.WrongModeRaisesSequence := by
  intro i s he ha
  have hends : s.mode = .deser ∨ opcode i = 0x29#8 ↔ s.mode = .deser ∨ isDeserByte i = true := by
    rw [isDeserByte_iff_opcode]
  exact ⟨_, exec_sequence he ha, errorEntry_inputs .., errorEntered_errorEntry hends .sequence _⟩

/-- The errors that a command's own rule raises (R319). -/
def ownErrors : Instr → List Err
  | .nop => []
  | .reset => []
  | .errClr => []
  | .treeClear => []
  | .nodeWr _ _ _ _ _ => [.badOperand]
  | .rootWr _ => []
  | .codegen => [.badTree]
  | .ser => [.badTree, .treeTooBig]
  | .deserInit => []
  | .deserByte _ => [.deserEscAtEnd, .deserCapacity, .deserOverrun, .deserTruncated]
  | .packInit => []
  | .packByte _ => [.noCode]
  | .packFlush => []
  | .hdrLoad _ _ => []
  | .unpackInit _ => [.badTree, .badSize, .noTree]
  | .unpackByte _ => [.payloadOverrun, .badPath]
  | .unpackEnd => [.payloadShort, .partialCode]

theorem finishToken_raise {budget : BitVec 13} {s : State} {e : Err}
    (h : finishToken budget s = .raise e) : e ∈ [Err.deserOverrun, .deserTruncated] := by
  unfold finishToken at h
  split_ifs at h
  · cases h; simp
  · cases h; simp

theorem placeToken_raise {node : Node} {opens : Bool} {budget : BitVec 13} {s : State} {e : Err}
    (h : placeToken node opens budget s = .raise e) :
    e ∈ [Err.deserCapacity, .deserOverrun, .deserTruncated] := by
  unfold placeToken at h
  dsimp only at h
  split_ifs at h
  · cases h; exact List.mem_cons_self
  · exact List.mem_cons_of_mem _ (finishToken_raise h)
  · exact List.mem_cons_of_mem _ (finishToken_raise h)

theorem deserByteBody_raise {b : Byte} {s : State} {e : Err} (h : deserByteBody b s = .raise e) :
    e ∈ ownErrors (.deserByte b) := by
  unfold deserByteBody at h
  split at h
  · cases h
  dsimp only at h
  split at h
  · split at h
    · cases h; exact List.mem_cons_self
    · cases h
  · exact List.mem_cons_of_mem _ (placeToken_raise h)
  · exact List.mem_cons_of_mem _ (placeToken_raise h)

theorem unpackInitBody_raise {len : BitVec 48} {s : State} {e : Err}
    (h : unpackInitBody len s = .raise e) : e ∈ ownErrors (.unpackInit len) := by
  unfold unpackInitBody at h
  split at h
  · split at h
    · cases h; simp [ownErrors]
    · split at h
      · cases h; simp [ownErrors]
      · cases h
  · cases h; simp [ownErrors]

theorem unpackByteBody_raise {b : Byte} {s : State} {e : Err}
    (h : unpackByteBody b s = .raise e) : e ∈ ownErrors (.unpackByte b) := by
  unfold unpackByteBody at h
  split at h
  · cases h; simp [ownErrors]
  split at h
  · cases h
  · cases h; simp [ownErrors]
  · cases h

/-- A command's own rule raises no error but those the table of R319 lists for it. -/
theorem mem_ownErrors_of_raise {i : Instr} {s : State} {e : Err} (h : ownRule i s = .raise e) :
    e ∈ ownErrors i := by
  cases i with
  | nodeWr idx k v l r =>
    simp only [ownRule, nodeWrBody] at h
    split at h
    · cases h; exact List.mem_cons_self
    · cases h
  | codegen =>
    simp only [ownRule, codegenBody] at h
    split at h
    · cases h
    · cases h; exact List.mem_cons_self
  | ser =>
    simp only [ownRule, serBody] at h
    split at h
    · split at h
      · cases h; simp [ownErrors]
      · cases h
    · cases h; exact List.mem_cons_self
  | deserInit =>
    simp only [ownRule, deserInitBody] at h
    split at h <;> cases h
  | deserByte b => exact deserByteBody_raise h
  | packByte b =>
    simp only [ownRule, packByteBody] at h
    split at h
    · cases h; exact List.mem_cons_self
    · cases h
  | packFlush =>
    simp only [ownRule, packFlushBody] at h
    split at h <;> cases h
  | unpackInit len => exact unpackInitBody_raise h
  | unpackByte b => exact unpackByteBody_raise h
  | unpackEnd =>
    simp only [ownRule, unpackEndBody] at h
    split at h
    · cases h; simp [ownErrors]
    split at h
    · cases h; simp [ownErrors]
    · cases h
  | _ => cases h

theorem sequence_not_mem_ownErrors (i : Instr) : Err.sequence ∉ ownErrors i := by
  cases i <;> simp [ownErrors]

/-- What a command does in a mode that accepts it, with no error pending: it completes, or its own rule
raises an error (R310). -/
theorem exec_accepted_cases {i : Instr} {s t : State} (he : s.err = 0#8)
    (ha : accepts i s.mode = true) (h : exec i s = .next t) :
    t.err = 0#8 ∨ ∃ e ∈ ownErrors i, t = raiseIn i e s := by
  by_cases hr : i = .reset
  · subst hr; cases h; exact .inl rfl
  by_cases hc : i = .errClr
  · subst hc; cases h; exact .inl rfl
  rw [exec_eq_perform hr hc] at h
  obtain ⟨hs, -⟩ | ⟨-, -, hdone⟩ | ⟨-, -, e, hraise, rfl⟩ | ⟨-, hna, -⟩ := perform_cases h
  · exact absurd he hs
  · exact .inl ((completes_of_ownRule hdone).err_eq_zero (.inl he))
  · exact .inr ⟨e, mem_ownErrors_of_raise hraise, rfl⟩
  · rw [ha] at hna; cases hna

/-- Settles O14: outside its modes a command ends in SEQUENCE, and no command's own rule raises it. -/
theorem sequenceExactlyOutsideTheModes : Obligations.SequenceExactlyOutsideTheModes := by
  intro i s he
  rw [← accepts_iff_opcode]
  constructor
  · rintro ⟨t, h, ht⟩ ha
    obtain ht0 | ⟨e, hmem, rfl⟩ := exec_accepted_cases he ha h
    · exact absurd (ht0.symm.trans ht) (by decide)
    · have hseq : e = .sequence := errCode_injective ht
      exact sequence_not_mem_ownErrors i (hseq ▸ hmem)
  · exact fun ha => ⟨_, exec_sequence he (by simpa using ha), rfl⟩

/-- Settles O15: an error of a decoded command or of an illegal word is error entry with the word the
host issued; whatever else a command does leaves no error. -/
theorem errorsArePrecise : Obligations.ErrorsArePrecise := by
  intro s t cw rest he h hstep ht
  cases hd : decode cw with
  | error x =>
    rw [step_of_illegal h hd] at hstep
    obtain ⟨hs, -⟩ | ⟨-, rfl⟩ := performIllegal_cases hstep
    · exact absurd he hs
    · exact ⟨errCode_le _, errorEntry_inputs .., errorEntered_errorEntry (by simp) .illegalCmd cw⟩
  | ok i =>
    rw [step_of_decode h hd] at hstep
    obtain ⟨hs, -⟩ | ⟨e, rfl⟩ | ⟨hok, -, hc⟩ := exec_cases hstep
    · exact absurd he hs
    · rw [raiseIn, encode_of_decode hd]
      refine ⟨errCode_le e, errorEntry_inputs .., errorEntered_errorEntry ?_ e cw⟩
      simp [isDeserByte_iff_exists]
    · exact absurd (hc.err_eq_zero (hok.imp_left fun _ => he)) ht

end Sys2Proof.Machine
end

section
/-! PROOFS. 60_exceptions.md R324, R327 to R332, R334, R335: the errors of the tree check, of the two ends
of an unpack session and of a tree byte, each where the command's own rule raises it. -/

namespace Sys2Proof.Machine

/-! ### An error of the command's own rule -/

section

variable {i : Instr} {s : State} {e : Err} (he : s.err = 0#8) (ha : accepts i s.mode = true)
  (h : ownRule i s = .raise e)

include he ha h

/-- In a mode that accepts the command, an error of its own rule is entered (R310). -/
theorem exec_raise : exec i s = .next (raiseIn i e s) := by
  have hr : i ≠ .reset := by rintro rfl; cases h
  have hc : i ≠ .errClr := by rintro rfl; cases h
  rw [exec_eq_perform hr hc, perform_raise he ha h]

/-- Outside a deserialize session such an error closes the session that is open and changes nothing
else (R312, R314). -/
theorem exec_raise_of_not_deser (hm : s.mode ≠ .deser) :
    exec i s = .next { s with err := errCode e, errCmd := encode i, mode := .idle } := by
  have hd : isDeserByte i = false := by
    cases i with
    | deserByte b => exact absurd (eq_of_beq ha) hm
    | _ => rfl
  rw [exec_raise he ha h, raiseIn, errorEntry_of_not_deser hm hd]

end

/-! ### A tree that fails the check (R324) -/

/-- The three commands that check the tree, by their opcodes. -/
theorem checksTree_cases {i : Instr} (h : opcode i ∈ [0x13#8, 0x20#8, 0x40#8]) :
    i = .codegen ∨ i = .ser ∨ ∃ len, i = .unpackInit len := by
  cases i with
  | codegen => exact .inl rfl
  | ser => exact .inr (.inl rfl)
  | unpackInit len => exact .inr (.inr ⟨len, rfl⟩)
  | _ => exact absurd h (by simp [opcode])

/-- Settles O25: the tree check comes first in all three rules. -/
theorem badTreeRaised : Obligations.BadTreeRaised := by
  intro s i he hm hwf hi
  have hbad : ¬ wfTree s = true := by simp [hwf]
  obtain rfl | rfl | ⟨len, rfl⟩ := checksTree_cases hi
  · exact exec_raise_of_idle .codegen he hm nofun nofun rfl (if_neg hbad)
  · exact exec_raise_of_idle .ser he hm nofun nofun rfl (if_neg hbad)
  · exact exec_raise_of_idle (.unpackInit len) he hm nofun nofun rfl (if_neg hbad)

/-! ### The ends of an unpack session (R331, R332, R334, R335) -/

theorem dataBits_eq_none {len tbc pad : Nat} (h : len < tbc + 2 ∨ (len - tbc - 2) * 8 < pad) :
    dataBits len tbc pad = none := by
  unfold dataBits
  split
  · rfl
  · next hlen => exact if_pos (h.resolve_left hlen)

theorem dataBits_eq_some {len tbc pad : Nat} (hlen : tbc + 2 ≤ len)
    (hpad : pad ≤ (len - tbc - 2) * 8) :
    dataBits len tbc pad = some ((len - tbc - 2) * 8 - pad) := by
  rw [dataBits, if_neg (not_lt.2 hlen), if_neg (not_lt.2 hpad)]

/-- Settles O41: on a checked tree UNPACK_INIT goes by the bit count, which BITS_LEFT can hold for every
LEN. -/
theorem unpackInitResult : Obligations.UnpackInitResult := by
  intro s len he hm hwf
  constructor
  · intro hsize
    refine exec_raise_of_idle (.unpackInit len) he hm nofun nofun rfl (e := .badSize) ?_
    simp only [ownRule, unpackInitBody, if_pos hwf, dataBits_eq_none hsize]
  intro hlen hpad
  have hbits := dataBits_eq_some hlen hpad
  constructor
  · rintro ⟨hroot, hpos⟩
    refine exec_raise_of_idle (.unpackInit len) he hm nofun nofun rfl (e := .noTree) ?_
    simp only [ownRule, unpackInitBody, if_pos hwf, hbits]
    exact if_pos ⟨by omega, hroot⟩
  · intro hopen
    have hroot : ¬ (0 < (len.toNat - s.hdrTbc.toNat - 2) * 8 - s.hdrPad.toNat ∧
        s.root = Config.nil) := fun ⟨hpos, hnil⟩ =>
      hopen.elim (fun h => h hnil) (fun h => by omega)
    have hdone : unpackInitBody len s = .done { s with
        bitsLeft := BitVec.ofNat 51 ((len.toNat - s.hdrTbc.toNat - 2) * 8 - s.hdrPad.toNat)
        cursor := s.root
        mode := .unpack } := by
      simp only [unpackInitBody, if_pos hwf, hbits, if_neg hroot]
    refine ⟨_, exec_done_of_idle (.unpackInit len) he hm nofun nofun rfl hdone, ?_, rfl⟩
    have hlt := len.isLt
    exact (BitVec.toNat_ofNat ..).trans (Nat.mod_eq_of_lt (by omega))

/-- Settles O45: the two checks in their order, and the end of the session. -/
theorem unpackEndResult : Obligations.UnpackEndResult := by
  intro s he hm
  have ha : accepts .unpackEnd s.mode = true := congrArg (accepts .unpackEnd) hm
  have hdeser : s.mode ≠ .deser := hm ▸ nofun
  refine ⟨fun hbits hcur => ?_, fun hbits => ?_, fun hbits hcur => ?_⟩
  · refine perform_done he ha ?_
    rw [unpackEndBody, if_neg (not_not.2 hbits), if_neg (not_not.2 hcur)]
  · exact exec_raise_of_not_deser he ha (e := .payloadShort) (if_pos hbits) hdeser
  · exact exec_raise_of_not_deser he ha (e := .partialCode)
      ((if_neg (not_not.2 hbits)).trans (if_pos hcur)) hdeser

/-! ### The errors of a tree byte (R327 to R330) -/

theorem tokenOf_eq_escape_iff {p : Config.Params} {esc : Bool} {b : Byte} :
    tokenOf p esc b = .escape ↔ esc = false ∧ b = p.escapeByte := by
  unfold tokenOf
  split_ifs with hesc hb hsent
  · simp [hesc]
  · simp [hesc, hb]
  · simp [hb]
  · simp [hb]

/-- A byte after an escape, or one that is neither marker, is a leaf's value. -/
theorem tokenOf_of_literal {p : Config.Params} {esc : Bool} {b : Byte}
    (hb : esc = true ∨ b ≠ p.escapeByte) (hsent : esc = true ∨ b ≠ p.sentinelByte) :
    tokenOf p esc b = .leaf b := by
  cases esc with
  | true => rfl
  | false => simp [tokenOf, hb.resolve_left, hsent.resolve_left]

theorem tokenOf_of_sentinel {p : Config.Params} {esc : Bool} {b : Byte} (hesc : esc = false)
    (hb : b = p.sentinelByte) : tokenOf p esc b = .internal := by
  simp [tokenOf, hesc, hb, p.differ]

theorem finishToken_overrun {budget : BitVec 13} {s : State} (hsp : s.sp = 0#10)
    (hb : budget ≠ 0#13) : finishToken budget s = .raise .deserOverrun := by
  rw [finishToken, if_pos hsp, if_pos hb]

theorem finishToken_truncated {budget : BitVec 13} {s : State} (hsp : s.sp ≠ 0#10)
    (hb : budget = 0#13) : finishToken budget s = .raise .deserTruncated := by
  rw [finishToken, if_neg hsp, if_pos hb]

section

variable {s : State} {b : Byte}

/-- An error of DESER_BYTE clears the tree and the session (R312, R313). -/
theorem exec_deserByte_raise (he : s.err = 0#8) (hm : s.mode = .deser) {e : Err}
    (h : deserByteBody b s = .raise e) :
    ∃ t, exec (.deserByte b) s = .next t ∧
      ErrorEntered (errCode e) (encode (.deserByte b)) True s t :=
  ⟨_, exec_raise he (congrArg (accepts (.deserByte b)) hm) h,
    errorEntered_errorEntry (iff_of_true trivial (.inl hm)) e _⟩

variable (hbudget : s.budget ≠ 0#13)

include hbudget

theorem deserByteBody_of_leaf {v : Byte} (htok : tokenOf s.params s.escPending b = .leaf v) :
    deserByteBody b s = placeToken (newLeaf v) false (s.budget - 1#13) s := by
  simp only [deserByteBody, if_neg hbudget, htok]

theorem deserByteBody_of_internal (htok : tokenOf s.params s.escPending b = .internal) :
    deserByteBody b s = placeToken newInternal true (s.budget - 1#13) s := by
  simp only [deserByteBody, if_neg hbudget, htok]

/-- With all 511 entries taken any node token is DESER_CAPACITY (R330). -/
theorem deserByteBody_capacity (htok : tokenOf s.params s.escPending b ≠ .escape)
    (hn : s.nextNode = 511#10) : deserByteBody b s = .raise .deserCapacity := by
  cases hk : tokenOf s.params s.escPending b with
  | escape => exact absurd hk htok
  | leaf v => rw [deserByteBody_of_leaf hbudget hk, placeToken, if_pos hn]
  | internal => rw [deserByteBody_of_internal hbudget hk, placeToken, if_pos hn]

end

/-- Settles O34: each error of a tree byte by the token it reads as and by what is left of the budget,
the entries and the open positions. -/
theorem deserByteErrors : Obligations.DeserByteErrors := by
  intro s b he hm hbudget
  refine ⟨fun hesc hb hlast => ?_, fun hnode => ⟨fun hfull => ?_, fun hn => ⟨fun hlit h1 h512 => ?_,
    fun hesc hb h1 h511 hlast => ?_⟩⟩⟩
  · refine exec_deserByte_raise he hm (e := .deserEscAtEnd) ?_
    rw [deserByteBody, if_neg hbudget, tokenOf_eq_escape_iff.2 ⟨hesc, hb⟩, hlast]
    rfl
  · refine exec_deserByte_raise he hm (e := .deserCapacity) (deserByteBody_capacity hbudget ?_ hfull)
    rw [Ne, tokenOf_eq_escape_iff]
    rintro ⟨hesc, hb⟩
    exact hnode.elim (fun h => Bool.false_ne_true (hesc.symm.trans h)) fun h => h hb
  · have hbody := deserByteBody_of_leaf hbudget (tokenOf_of_literal hnode hlit)
    rw [placeToken_leaf hn (k := s.sp.toNat - 1) (by omega) (show _ < 512 by omega)] at hbody
    refine ⟨fun hsp hmore => ?_, fun hsp hlast => ?_⟩
    · refine exec_deserByte_raise he hm (e := .deserOverrun) (hbody.trans (finishToken_overrun ?_ ?_))
      · rw [hsp]; rfl
      · bv_omega
    · refine exec_deserByte_raise he hm (e := .deserTruncated)
        (hbody.trans (finishToken_truncated ?_ ?_))
      · show BitVec.ofNat 10 (s.sp.toNat - 1) ≠ 0#10
        bv_omega
      · rw [hlast]; rfl
  · have hbody := deserByteBody_of_internal hbudget (tokenOf_of_sentinel hesc hb)
    rw [placeToken_internal hn (k := s.sp.toNat - 1) (by omega) (show _ < 512 by omega)] at hbody
    refine exec_deserByte_raise he hm (e := .deserTruncated)
      (hbody.trans (finishToken_truncated ?_ ?_))
    · show BitVec.ofNat 10 (s.sp.toNat - 1 + 2) ≠ 0#10
      bv_omega
    · rw [hlast]; rfl

end Sys2Proof.Machine
end

section
/-! PROOFS. 70_reset_and_hazards.md R352, R353: what a command finds open it leaves open, with what the
session reads, or it closes it. Dispatch shuts out the commands that write anything else. -/

namespace Sys2Proof.Machine

/-- The session goes on, and what it reads stays: the code table, the header registers and, but for a
deserialize session, which builds it, the tree. -/
structure SessionGoesOn (s t : State) : Prop where
  mode : t.mode = s.mode
  codeLen : t.codeLen = s.codeLen
  codeBits : t.codeBits = s.codeBits
  hdrPad : t.hdrPad = s.hdrPad
  hdrTbc : t.hdrTbc = s.hdrTbc
  tree : s.mode ≠ .deser → t.root = s.root ∧ t.nodes = s.nodes

/-- The causes for which the command `i`, which leaves the state `t`, may close a session open in mode
`m`: an error, RESET, or the session's own last command. -/
def MayClose (i : Instr) (m : Mode) (t : State) : Prop :=
  t.err ≠ 0#8 ∨ opcode i = 0x01#8 ∨ (m = .pack ∧ opcode i = 0x32#8) ∨
    (m = .deser ∧ opcode i = 0x29#8) ∨ (m = .unpack ∧ opcode i = 0x42#8)

/-- The session is closed, for one of the causes there are. -/
def SessionCloses (i : Instr) (s t : State) : Prop := t.mode = .idle ∧ MayClose i s.mode t

theorem sessionGoesOn_refl (s : State) : SessionGoesOn s s :=
  ⟨rfl, rfl, rfl, rfl, rfl, fun _ => ⟨rfl, rfl⟩⟩

theorem sessionCloses_raiseIn (i : Instr) (e : Err) (s : State) :
    SessionCloses i s (raiseIn i e s) := by
  rw [raiseIn, errorEntry_eq]
  exact ⟨rfl, .inl (errCode_ne_zero e)⟩

variable {s t : State} {i : Instr}

/-- A node token goes on with the session or closes it (42_tree_deserializer.md R172). -/
theorem deserToken_goesOn_or_closes {b : Byte} (hm : s.mode = .deser)
    (hmode : t.mode = s.mode ∨ t.mode = .idle) (hlen : t.codeLen = s.codeLen)
    (hbits : t.codeBits = s.codeBits) (hpad : t.hdrPad = s.hdrPad) (htbc : t.hdrTbc = s.hdrTbc) :
    SessionGoesOn s t ∨ SessionCloses (.deserByte b) s t :=
  hmode.imp (fun h => ⟨h, hlen, hbits, hpad, htbc, fun hn => absurd hm hn⟩)
    fun h => ⟨h, .inr (.inr (.inr (.inl ⟨hm, rfl⟩)))⟩

/-- The commands that could write more than the session may are accepted in IDLE alone. -/
theorem Completes.goesOn_or_closes (hopen : s.mode ≠ .idle) (ha : accepts i s.mode = true)
    (hc : Completes s i t) : SessionGoesOn s t ∨ SessionCloses i s t := by
  cases hc with
  | nop => exact .inl (sessionGoesOn_refl s)
  | reset => exact .inr ⟨rfl, .inr (.inl rfl)⟩
  | errClr | deserEscape | packByte | unpackByte =>
    exact .inl ⟨rfl, rfl, rfl, rfl, rfl, fun _ => ⟨rfl, rfl⟩⟩
  | deserLeaf _ _ _ _ _ hmode | deserInternal _ _ _ _ _ hmode =>
    exact deserToken_goesOn_or_closes (eq_of_beq ha) hmode rfl rfl rfl rfl
  | packFlushNone | packFlush => exact .inr ⟨rfl, .inr (.inr (.inl ⟨eq_of_beq ha, rfl⟩))⟩
  | unpackEnd => exact .inr ⟨rfl, .inr (.inr (.inr (.inr ⟨eq_of_beq ha, rfl⟩)))⟩
  | _ => exact absurd (eq_of_beq ha) hopen

/-- A discarded command changes nothing and an error closes the session (60_exceptions.md R310, R312). -/
theorem exec_goesOn_or_closes (hopen : s.mode ≠ .idle) (h : exec i s = .next t) :
    SessionGoesOn s t ∨ SessionCloses i s t := by
  obtain ⟨-, rfl⟩ | ⟨e, rfl⟩ | ⟨-, ha, hc⟩ := exec_cases h
  · exact .inl (sessionGoesOn_refl t)
  · exact .inr (sessionCloses_raiseIn i e s)
  · exact hc.goesOn_or_closes hopen ha

/-- Settles O49: by MODE after the command, the session has gone on or has been closed. -/
theorem openSessionIsolated : Obligations.OpenSessionIsolated := by
  intro i s t h hopen
  obtain hon | ⟨hidle, hcause⟩ := exec_goesOn_or_closes hopen h
  · exact ⟨fun _ => ⟨hon.codeLen, hon.codeBits, hon.hdrPad, hon.hdrTbc, hon.tree⟩,
      fun hne => absurd hon.mode hne⟩
  · exact ⟨fun heq => absurd (heq.symm.trans hidle) hopen, fun _ => ⟨hidle, hcause⟩⟩

end Sys2Proof.Machine
end
